-- ==== Sys2Proof/Word.lean ====
section
/-! DEFINITION. The byte of the hardware: `u8` of spec 00 R11, 8 bits wide by `BYTE_W` and `DEC_W` of R9. -/

namespace Sys2Proof

/-- `u8`: a register byte, and a decimal operand or result (00 R9, R11). -/
abbrev Byte := BitVec 8

end Sys2Proof
end

