-- ==== Sys2Proof/Config.lean ====
section
/-! DEFINITION. What is fixed for the machine (00 R9): addresses, lengths, parameters; the shape of what the transport and
the other agents put in (20 R75, R76); and the free values, constants without a body that nothing can evaluate. -/

namespace Sys2Proof

/-! ### Addresses and lengths (00 R9, 10 R33) -/

/-- `ADDR_MAX`: the highest register address. -/
def Config.addrMax : Nat := 0x12
/-- `TIME_BASE` and `TIME_LEN`. -/
def Config.timeBase : Nat := 0x00
def Config.timeLen : Nat := 7
/-- `A1_BASE` and `A1_LEN`. -/
def Config.a1Base : Nat := 0x07
def Config.a1Len : Nat := 4
/-- `A2_BASE` and `A2_LEN`. -/
def Config.a2Base : Nat := 0x0B
def Config.a2Len : Nat := 3
/-- `CTRL_ADDR`. -/
def Config.ctrlAddr : Nat := 0x0E
/-- `STAT_ADDR`. -/
def Config.statAddr : Nat := 0x0F
/-- `TEMP_BASE` and `TEMP_LEN`. -/
def Config.tempBase : Nat := 0x11
def Config.tempLen : Nat := 2
/-- `HOURS_ADDR`. -/
def Config.hoursAddr : Nat := 0x02

/-! ### Parameters (00 R9) -/

/-- `P_PM_24H`: what a decode writes to `pm` in 24-hour mode, 0 by decision D11 (41 R164). No statement unfolds it. -/
def Config.pPm24h : Bool := false
/-- `P_SQW_EN_BIT2`: what SQW_EN writes to control bit 2, 0 by decision D19 (43 R246).
PRESUMED by the spec itself (entry U9 of 93). -/
def Config.pSqwEnBit2 : Bool := false
/-- `P_MULTI_ATOMIC`: whether the device sees a multi-byte call as one access. OPEN, no default (20 R71, D35): no body. -/
opaque Config.pMultiAtomic : Bool

/-! ### What reaches the block and the device from outside -/

/-- What another agent does between two transport calls of the block (20 R76, R77, 70 R316). -/
inductive EnvMove where
  /-- The device, or another caller's write, puts a byte in a register. -/
  | dev (a : Fin 19) (b : Byte)
  /-- Another caller's `init` leaves the session initialised. -/
  | init
  /-- Another caller's `deinit` leaves the session not initialised. -/
  | deinit
  deriving DecidableEq, Repr

/-- What the transport does with one call (20 R75, R71). -/
structure Answer where
  /-- Whether the call succeeds, for causes the block cannot see. -/
  ok : Bool
  /-- For a write that fails: byte `i` of the block reached its register if entry `i` is true (absent: it did not). -/
  landed : List Bool
  /-- `(i, a, b)`: the device puts `b` in register `a` just before byte `i` of the call is transferred. -/
  during : List (Nat × Fin 19 × Byte)
  deriving DecidableEq, Repr, Inhabited

/-! ### Free values: no body, so nothing can be proved of any of them -/

/-- The moves of the other agents before a call whose input is not written down in the state. -/
opaque Config.freeMoves : Nat → List EnvMove
/-- The transport's answer to a call whose input is not written down in the state. -/
opaque Config.freeAnswer : Nat → Answer
/-- The unspecified `ok` port after a reset of the block (10 R56). -/
opaque Config.freeOk : Nat → Bool
/-- An unspecified `res8` port (U5, U15). -/
opaque Config.freeRes8 : Nat → Byte
/-- An unspecified `frac` port (U5, U15). -/
opaque Config.freeFrac : Nat → BitVec 2
/-- An unspecified `flag_out` port (U5, U15). -/
opaque Config.freeFlagOut : Nat → Bool
/-- An unspecified `var1` port (U5, U15). -/
opaque Config.freeVar1 : Nat → BitVec 5
/-- An unspecified `var2` port (U5, U15). -/
opaque Config.freeVar2 : Nat → BitVec 4
/-- An unspecified `tv_out` port (U5, U15). -/
opaque Config.freeTvOut : Nat → BitVec 58
/-- The unspecified bits of a `blk_out` port (U5, U15, 30 R113). -/
opaque Config.freeBlkOut : Nat → BitVec 56

end Sys2Proof
end

