-- ==== Sys2Proof/Syntax.lean ====
section
/-! DEFINITION. The operand bundles (10 R51 to R53), the command ports (30 R114) and the 28 operations (30 R116 to R118). -/

namespace Sys2Proof

/-- TimeValue (10 R51): seven numbers and two bits, in the field order of the document. -/
structure TimeValue where
  seconds : Byte
  minutes : Byte
  hours : Byte
  dayOfWeek : Byte
  dayOfMonth : Byte
  month : Byte
  year : Byte
  is12HourFormat : Bool
  pm : Bool
  deriving DecidableEq, Repr

/-- The time register block, bytes `B[0]` to `B[6]` at 0x00 to 0x06 (30 R102, 20 R68). -/
structure TimeRegs where
  seconds : Byte
  minutes : Byte
  hours : Byte
  dayOfWeek : Byte
  dayOfMonth : Byte
  month : Byte
  year : Byte
  deriving DecidableEq, Repr

/-- The alarm 1 register block, bytes `B[0]` to `B[3]` at 0x07 to 0x0A (30 R104). -/
structure Alarm1Regs where
  seconds : Byte
  minutes : Byte
  hours : Byte
  day : Byte
  deriving DecidableEq, Repr

/-- The alarm 2 register block, bytes `B[0]` to `B[2]` at 0x0B to 0x0D (30 R104). -/
structure Alarm2Regs where
  minutes : Byte
  hours : Byte
  day : Byte
  deriving DecidableEq, Repr

/-- Alarm1Variant (10 R52, 30 R110). -/
inductive Alarm1Variant where
  | secondsMinutesHoursDayOfMonth
  | oncePerSecond
  | secondsMinutesHours
  | secondsMinutes
  | secondsOnly
  | secondsMinutesHoursDayOfWeek
  deriving DecidableEq, Repr

/-- Alarm2Variant (10 R52, 30 R111). -/
inductive Alarm2Variant where
  | minutesHoursDayOfMonth
  | minutesHours
  | minutesOnly
  | oncePerMinute
  | minutesHoursDayOfWeek
  deriving DecidableEq, Repr

/-- One command: the values on the command ports (30 R114). A port an operation does not list is ignored by it. -/
structure Command where
  op : Byte
  hv : Bool := false
  ov : Bool := false
  vv : Bool := false
  s1v : Bool := false
  sel1 : BitVec 5 := 0
  s2v : Bool := false
  sel2 : BitVec 4 := 0
  tvIn : BitVec 58 := 0
  blkIn : BitVec 56 := 0
  arg8 : Byte := 0
  tw : BitVec 3 := 0
  use24 : Bool := false
  mode12 : Bool := false
  freq : BitVec 2 := 0
  bb : Bool := false
  deriving DecidableEq, Repr

/-- The 28 operations with the operand ports of their formats (30 R116, R117), in the table's order. -/
inductive Instr where
  /-- BCD_DEC, format BD (40 R141). -/
  | bcdDec (arg8 : Byte) (tw : BitVec 3)
  /-- BCD_ENC, format BE (40 R143). -/
  | bcdEnc (arg8 : Byte)
  /-- TIME_DEC, format TD (41 R161). -/
  | timeDec (blk : TimeRegs)
  /-- TIME_ENC, format TE (41 R165). -/
  | timeEnc (tv : TimeValue) (use24 : Bool)
  /-- TIME_GET, format G (41 R168). -/
  | timeGet (hv ov : Bool)
  /-- TIME_SET, format TS (41 R169). -/
  | timeSet (hv vv : Bool) (tv : TimeValue) (use24 : Bool)
  /-- MODE_GET, format G (41 R171). -/
  | modeGet (hv ov : Bool)
  /-- A1_DEC, format AD1 (42 R200). -/
  | a1Dec (blk : Alarm1Regs) (tv : TimeValue)
  /-- A1_ENC, format AE1 (42 R196). -/
  | a1Enc (sel1 : BitVec 5) (tv : TimeValue) (mode12 : Bool)
  /-- A2_DEC, format AD2 (42 R201). -/
  | a2Dec (blk : Alarm2Regs) (tv : TimeValue)
  /-- A2_ENC, format AE2 (42 R197). -/
  | a2Enc (sel2 : BitVec 4) (tv : TimeValue) (mode12 : Bool)
  /-- ALARM_GET, format AG (42 R206). -/
  | alarmGet (hv ov s1v s2v : Bool) (tv : TimeValue)
  /-- ALARM_SET, format AS (42 R204). -/
  | alarmSet (hv vv s1v : Bool) (sel1 : BitVec 5) (s2v : Bool) (sel2 : BitVec 4) (tv : TimeValue)
  /-- OSC_EN, format A (43 R242). -/
  | oscEn (hv : Bool)
  /-- OSC_DIS, format A (43 R243). -/
  | oscDis (hv : Bool)
  /-- EN32K_EN, format A (43 R244). -/
  | en32kEn (hv : Bool)
  /-- EN32K_DIS, format A (43 R245). -/
  | en32kDis (hv : Bool)
  /-- SQW_EN, format SQ (43 R246). -/
  | sqwEn (hv : Bool) (freq : BitVec 2) (bb : Bool)
  /-- SQW_DIS, format A (43 R247). -/
  | sqwDis (hv : Bool)
  /-- A1IE_EN, format A (43 R248). -/
  | a1ieEn (hv : Bool)
  /-- A1IE_DIS, format A (43 R249). -/
  | a1ieDis (hv : Bool)
  /-- A2IE_EN, format A (43 R250). -/
  | a2ieEn (hv : Bool)
  /-- A2IE_DIS, format A (43 R251). -/
  | a2ieDis (hv : Bool)
  /-- A1F_CLR, format A (43 R252). -/
  | a1fClr (hv : Bool)
  /-- A2F_CLR, format A (43 R253). -/
  | a2fClr (hv : Bool)
  /-- OSF_GET, format G (43 R254). -/
  | osfGet (hv ov : Bool)
  /-- OSF_CLR, format A (43 R255). -/
  | osfClr (hv : Bool)
  /-- TEMP_GET, format G (43 R256). -/
  | tempGet (hv ov : Bool)
  deriving DecidableEq, Repr

end Sys2Proof
end

