-- ==== Sys2Proof/WellFormed.lean ====
section
/-! DEFINITION. The legal operand values of the 28 operations (30 R120). Every other operand takes all its values, calendar
ranges are not checked (00 R7). An ill-formed command still decodes (30 R116) and is refused when it runs: `ok = 0`. -/

namespace Sys2Proof

/-- A tens width is 1, 2, 3 or 4 (30 R120 (a)). -/
def tensWidthLegal (tw : BitVec 3) : Bool := decide (1 ≤ tw.toNat ∧ tw.toNat ≤ 4)

/-- The six tags of 30 R110. -/
def sel1Legal (sel1 : BitVec 5) : Bool := [0x00, 0x08, 0x0C, 0x0E, 0x0F, 0x10].contains sel1.toNat

/-- The five tags of 30 R111. -/
def sel2Legal (sel2 : BitVec 4) : Bool := [0x0, 0x4, 0x6, 0x7, 0x8].contains sel2.toNat

/-- No operand has a reserved value (30 R120): the tens width of BCD_DEC, the tag of A1_ENC and A2_ENC, and in ALARM_SET the
tag of each selector that is present. -/
def Instr.wf : Instr → Bool
  | .bcdDec _ tw => tensWidthLegal tw
  | .a1Enc sel1 _ _ => sel1Legal sel1
  | .a2Enc sel2 _ _ => sel2Legal sel2
  | .alarmSet _ _ s1v sel1 s2v sel2 _ => (!s1v || sel1Legal sel1) && (!s2v || sel2Legal sel2)
  | .bcdEnc _ | .timeDec _ | .timeEnc _ _ | .timeGet _ _ | .timeSet _ _ _ _ | .modeGet _ _
  | .a1Dec _ _ | .a2Dec _ _ | .alarmGet _ _ _ _ _
  | .oscEn _ | .oscDis _ | .en32kEn _ | .en32kDis _ | .sqwEn _ _ _ | .sqwDis _
  | .a1ieEn _ | .a1ieDis _ | .a2ieEn _ | .a2ieDis _ | .a1fClr _ | .a2fClr _
  | .osfGet _ _ | .osfClr _ | .tempGet _ _ => true

end Sys2Proof
end

