-- ==== Sys2Proof/Decode.lean ====
section
/-! DEFINITION. Decoding and encoding of commands: the packing of the operand ports (30 R112, R113), the operation codes
(30 R118), the reserved codes refused by name (30 R119), the alarm tags (30 R110, R111), and a command as one number. -/

namespace Sys2Proof

/-! ### Port packing -/

/-- Byte `k` of a packed port: bits `8k + 7` down to `8k` (30 R112, R113). -/
def portByte (v k : Nat) : Byte := BitVec.ofNat 8 (v / 2 ^ (8 * k))

/-- A 1-bit field at bit `k` of a packed port. -/
def portBit (v k : Nat) : Bool := decide (v / 2 ^ k % 2 = 1)

/-- A TimeValue from its 58-bit port (30 R112). -/
def TimeValue.ofPort (v : BitVec 58) : TimeValue where
  seconds := portByte v.toNat 0
  minutes := portByte v.toNat 1
  hours := portByte v.toNat 2
  dayOfWeek := portByte v.toNat 3
  dayOfMonth := portByte v.toNat 4
  month := portByte v.toNat 5
  year := portByte v.toNat 6
  is12HourFormat := portBit v.toNat 56
  pm := portBit v.toNat 57

/-- A TimeValue on its 58-bit port (30 R112, and the packing reminder of 95). -/
def TimeValue.toPort (tv : TimeValue) : BitVec 58 :=
  BitVec.ofNat 58 (tv.seconds.toNat + 2 ^ 8 * tv.minutes.toNat + 2 ^ 16 * tv.hours.toNat
    + 2 ^ 24 * tv.dayOfWeek.toNat + 2 ^ 32 * tv.dayOfMonth.toNat + 2 ^ 40 * tv.month.toNat
    + 2 ^ 48 * tv.year.toNat + 2 ^ 56 * tv.is12HourFormat.toNat + 2 ^ 57 * tv.pm.toNat)

/-- The bytes of a block as one number, byte `i` at bits `8i + 7` down to `8i` (30 R113). -/
def packBytes : List Byte → Nat
  | [] => 0
  | b :: bs => b.toNat + 2 ^ 8 * packBytes bs

def TimeRegs.toBytes (r : TimeRegs) : List Byte :=
  [r.seconds, r.minutes, r.hours, r.dayOfWeek, r.dayOfMonth, r.month, r.year]

def Alarm1Regs.toBytes (r : Alarm1Regs) : List Byte := [r.seconds, r.minutes, r.hours, r.day]

def Alarm2Regs.toBytes (r : Alarm2Regs) : List Byte := [r.minutes, r.hours, r.day]

/-- A block from its bytes in ascending address order (20 R68). A `read_multi` gives exactly the bytes of the block. -/
def TimeRegs.ofBytes (l : List Byte) : TimeRegs where
  seconds := l.getD 0 0
  minutes := l.getD 1 0
  hours := l.getD 2 0
  dayOfWeek := l.getD 3 0
  dayOfMonth := l.getD 4 0
  month := l.getD 5 0
  year := l.getD 6 0

def Alarm1Regs.ofBytes (l : List Byte) : Alarm1Regs where
  seconds := l.getD 0 0
  minutes := l.getD 1 0
  hours := l.getD 2 0
  day := l.getD 3 0

def Alarm2Regs.ofBytes (l : List Byte) : Alarm2Regs where
  minutes := l.getD 0 0
  hours := l.getD 1 0
  day := l.getD 2 0

/-- The seven bytes of `blk_in` (30 R113, R116 format TD). -/
def TimeRegs.ofPort (v : BitVec 56) : TimeRegs :=
  .ofBytes [portByte v.toNat 0, portByte v.toNat 1, portByte v.toNat 2, portByte v.toNat 3,
    portByte v.toNat 4, portByte v.toNat 5, portByte v.toNat 6]

/-- `blk_in[31:0]` (30 R116 format AD1): the bits above are ignored (R113). -/
def Alarm1Regs.ofPort (v : BitVec 56) : Alarm1Regs :=
  .ofBytes [portByte v.toNat 0, portByte v.toNat 1, portByte v.toNat 2, portByte v.toNat 3]

/-- `blk_in[23:0]` (30 R116 format AD2): the bits above are ignored (R113). -/
def Alarm2Regs.ofPort (v : BitVec 56) : Alarm2Regs :=
  .ofBytes [portByte v.toNat 0, portByte v.toNat 1, portByte v.toNat 2]

/-- A block on a 56-bit port, zero above a short block (an operand port's upper bits are ignored, 30 R113). -/
def blockPort (l : List Byte) : BitVec 56 := BitVec.ofNat 56 (packBytes l)

/-! ### Alarm variant tags -/

/-- The tag values of 30 R110. -/
def Alarm1Variant.tag : Alarm1Variant → BitVec 5
  | .secondsMinutesHoursDayOfMonth => 0x00
  | .secondsMinutesHours => 0x08
  | .secondsMinutes => 0x0C
  | .secondsOnly => 0x0E
  | .oncePerSecond => 0x0F
  | .secondsMinutesHoursDayOfWeek => 0x10

/-- The variant of a tag or fingerprint, none for the 26 other values (30 R110). -/
def Alarm1Variant.ofTag (t : BitVec 5) : Option Alarm1Variant :=
  if t = 0x00 then some .secondsMinutesHoursDayOfMonth
  else if t = 0x08 then some .secondsMinutesHours
  else if t = 0x0C then some .secondsMinutes
  else if t = 0x0E then some .secondsOnly
  else if t = 0x0F then some .oncePerSecond
  else if t = 0x10 then some .secondsMinutesHoursDayOfWeek
  else none

/-- The tag values of 30 R111. -/
def Alarm2Variant.tag : Alarm2Variant → BitVec 4
  | .minutesHoursDayOfMonth => 0x0
  | .minutesHours => 0x4
  | .minutesOnly => 0x6
  | .oncePerMinute => 0x7
  | .minutesHoursDayOfWeek => 0x8

/-- The variant of a tag or fingerprint, none for the 11 other values (30 R111). -/
def Alarm2Variant.ofTag (t : BitVec 4) : Option Alarm2Variant :=
  if t = 0x0 then some .minutesHoursDayOfMonth
  else if t = 0x4 then some .minutesHours
  else if t = 0x6 then some .minutesOnly
  else if t = 0x7 then some .oncePerMinute
  else if t = 0x8 then some .minutesHoursDayOfWeek
  else none

/-! ### The operation codes -/

/-- Why a command is no operation, by name. -/
inductive Reject where
  /-- `op` is one of the 228 reserved codes (30 R119). Safe: the block answers `ok = 0`, as the spec says. -/
  | reservedOp (op : Byte)
  deriving DecidableEq, Repr

/-- Codes 0x0-: the BCD codec (30 R118). -/
def bcdRows : List (Byte × (Command → Instr)) :=
  [(0x01, fun c => .bcdDec c.arg8 c.tw),
   (0x02, fun c => .bcdEnc c.arg8)]

/-- Codes 0x1-: the time register codec (30 R118). -/
def timeRows : List (Byte × (Command → Instr)) :=
  [(0x10, fun c => .timeDec (.ofPort c.blkIn)),
   (0x11, fun c => .timeEnc (.ofPort c.tvIn) c.use24),
   (0x12, fun c => .timeGet c.hv c.ov),
   (0x13, fun c => .timeSet c.hv c.vv (.ofPort c.tvIn) c.use24),
   (0x14, fun c => .modeGet c.hv c.ov)]

/-- Codes 0x2-: the alarm register codec (30 R118). -/
def alarmRows : List (Byte × (Command → Instr)) :=
  [(0x20, fun c => .a1Dec (.ofPort c.blkIn) (.ofPort c.tvIn)),
   (0x21, fun c => .a1Enc c.sel1 (.ofPort c.tvIn) c.mode12),
   (0x22, fun c => .a2Dec (.ofPort c.blkIn) (.ofPort c.tvIn)),
   (0x23, fun c => .a2Enc c.sel2 (.ofPort c.tvIn) c.mode12),
   (0x24, fun c => .alarmGet c.hv c.ov c.s1v c.s2v (.ofPort c.tvIn)),
   (0x25, fun c => .alarmSet c.hv c.vv c.s1v c.sel1 c.s2v c.sel2 (.ofPort c.tvIn))]

/-- Codes 0x3-: the control and status accessors (30 R118). -/
def accessorRows : List (Byte × (Command → Instr)) :=
  [(0x30, fun c => .oscEn c.hv),
   (0x31, fun c => .oscDis c.hv),
   (0x32, fun c => .en32kEn c.hv),
   (0x33, fun c => .en32kDis c.hv),
   (0x34, fun c => .sqwEn c.hv c.freq c.bb),
   (0x35, fun c => .sqwDis c.hv),
   (0x36, fun c => .a1ieEn c.hv),
   (0x37, fun c => .a1ieDis c.hv),
   (0x38, fun c => .a2ieEn c.hv),
   (0x39, fun c => .a2ieDis c.hv),
   (0x3A, fun c => .a1fClr c.hv),
   (0x3B, fun c => .a2fClr c.hv),
   (0x3C, fun c => .osfGet c.hv c.ov),
   (0x3D, fun c => .osfClr c.hv),
   (0x3E, fun c => .tempGet c.hv c.ov)]

/-- The operation table of 30 R118. -/
def opTable : List (Byte × (Command → Instr)) := bcdRows ++ timeRows ++ alarmRows ++ accessorRows

/-- The operation a command stands for: a decoder reads `op` alone to know it (30 R116) and takes the operands from the
ports its format lists (30 R117). -/
def decode (c : Command) : Except Reject Instr :=
  match opTable.find? (fun row => row.1 == c.op) with
  | some row => .ok (row.2 c)
  | none => .error (.reservedOp c.op)

/-- The command that stands for an operation: its code and its operand ports (30 R116 to R118), every port its format does
not list at 0 (ignored, 30 R114). -/
def encode : Instr → Command
  | .bcdDec arg8 tw => { op := 0x01, arg8 := arg8, tw := tw }
  | .bcdEnc arg8 => { op := 0x02, arg8 := arg8 }
  | .timeDec blk => { op := 0x10, blkIn := blockPort blk.toBytes }
  | .timeEnc tv use24 => { op := 0x11, tvIn := tv.toPort, use24 := use24 }
  | .timeGet hv ov => { op := 0x12, hv := hv, ov := ov }
  | .timeSet hv vv tv use24 => { op := 0x13, hv := hv, vv := vv, tvIn := tv.toPort, use24 := use24 }
  | .modeGet hv ov => { op := 0x14, hv := hv, ov := ov }
  | .a1Dec blk tv => { op := 0x20, blkIn := blockPort blk.toBytes, tvIn := tv.toPort }
  | .a1Enc sel1 tv mode12 => { op := 0x21, sel1 := sel1, tvIn := tv.toPort, mode12 := mode12 }
  | .a2Dec blk tv => { op := 0x22, blkIn := blockPort blk.toBytes, tvIn := tv.toPort }
  | .a2Enc sel2 tv mode12 => { op := 0x23, sel2 := sel2, tvIn := tv.toPort, mode12 := mode12 }
  | .alarmGet hv ov s1v s2v tv => { op := 0x24, hv := hv, ov := ov, s1v := s1v, s2v := s2v, tvIn := tv.toPort }
  | .alarmSet hv vv s1v sel1 s2v sel2 tv =>
      { op := 0x25, hv := hv, vv := vv, s1v := s1v, sel1 := sel1, s2v := s2v, sel2 := sel2, tvIn := tv.toPort }
  | .oscEn hv => { op := 0x30, hv := hv }
  | .oscDis hv => { op := 0x31, hv := hv }
  | .en32kEn hv => { op := 0x32, hv := hv }
  | .en32kDis hv => { op := 0x33, hv := hv }
  | .sqwEn hv freq bb => { op := 0x34, hv := hv, freq := freq, bb := bb }
  | .sqwDis hv => { op := 0x35, hv := hv }
  | .a1ieEn hv => { op := 0x36, hv := hv }
  | .a1ieDis hv => { op := 0x37, hv := hv }
  | .a2ieEn hv => { op := 0x38, hv := hv }
  | .a2ieDis hv => { op := 0x39, hv := hv }
  | .a1fClr hv => { op := 0x3A, hv := hv }
  | .a2fClr hv => { op := 0x3B, hv := hv }
  | .osfGet hv ov => { op := 0x3C, hv := hv, ov := ov }
  | .osfClr hv => { op := 0x3D, hv := hv }
  | .tempGet hv ov => { op := 0x3E, hv := hv, ov := ov }

/-! ### A command as one number

DESIGN CHOICE (log entry 1): the spec gives the ports no place beside `op`, which has bits 7:0 in the opcode table. Here the
ports follow `op` in the order of 30 R114, least significant first, 152 bits in all. -/

/-- The command whose ports, in the order of 30 R114 from bit 0 up, are the number `w`. -/
def Command.ofWord (w : Nat) : Command where
  op := BitVec.ofNat 8 w
  hv := portBit w 8
  ov := portBit w 9
  vv := portBit w 10
  s1v := portBit w 11
  sel1 := BitVec.ofNat 5 (w / 2 ^ 12)
  s2v := portBit w 17
  sel2 := BitVec.ofNat 4 (w / 2 ^ 18)
  tvIn := BitVec.ofNat 58 (w / 2 ^ 22)
  blkIn := BitVec.ofNat 56 (w / 2 ^ 80)
  arg8 := BitVec.ofNat 8 (w / 2 ^ 136)
  tw := BitVec.ofNat 3 (w / 2 ^ 144)
  use24 := portBit w 147
  mode12 := portBit w 148
  freq := BitVec.ofNat 2 (w / 2 ^ 149)
  bb := portBit w 151

/-- The number whose ports are the command (the inverse of `Command.ofWord`). -/
def Command.toWord (c : Command) : Nat :=
  c.op.toNat + 2 ^ 8 * c.hv.toNat + 2 ^ 9 * c.ov.toNat + 2 ^ 10 * c.vv.toNat + 2 ^ 11 * c.s1v.toNat
    + 2 ^ 12 * c.sel1.toNat + 2 ^ 17 * c.s2v.toNat + 2 ^ 18 * c.sel2.toNat + 2 ^ 22 * c.tvIn.toNat
    + 2 ^ 80 * c.blkIn.toNat + 2 ^ 136 * c.arg8.toNat + 2 ^ 144 * c.tw.toNat + 2 ^ 147 * c.use24.toNat
    + 2 ^ 148 * c.mode12.toNat + 2 ^ 149 * c.freq.toNat + 2 ^ 151 * c.bb.toNat

/-- The operation the decoder reads from a command whose bits are `w`, all bits from `nbits` up being 0. -/
def decodeTableWord (nbits w : Nat) : Option Instr :=
  match decode (.ofWord (w % 2 ^ nbits)) with
  | .ok i => some i
  | .error _ => none

end Sys2Proof
end

