-- ==== Sys2Proof/Machine/State.lean ====
section
/-! DEFINITION. What the machine holds (10 R30 to R57), what reaches it from outside (20 R62, R63, R75, R76), how a step can
stop, and the state after reset (10 R56). -/

namespace Sys2Proof.Machine

/-- The cause labels of 60 R281. No port shows one and no state keeps one (60 R280): a cause only says, inside a meaning, which
check failed. -/
inductive FailCause where
  | reservedOp
  | reservedOperand
  | precondHandle
  | precondSession
  | precondTarget
  | precondSelector
  | fingerprint
  | transport
  deriving DecidableEq, Repr

/-- The device register file `DEV` (10 R33), sparse: Machine/Ops.lean says what an unlisted register holds and what the
canonical form is. -/
abbrev Memory := List Host.Cell

/-- An operation in flight (10 R54). -/
structure Flight where
  /-- The operation and the operands latched when its command was accepted. -/
  instr : Instr
  /-- How many of its transport calls are done: the index of the one that comes next. -/
  idx : Nat
  /-- The bytes the last `MemRead` returned. -/
  latched : List Byte
  deriving DecidableEq, Repr

/-- The response ports (30 R115), as the last response left them. -/
structure Response where
  ok : Bool
  res8 : Byte
  frac : BitVec 2
  flagOut : Bool
  var1 : BitVec 5
  var2 : BitVec 4
  tvOut : BitVec 58
  blkOut : BitVec 56
  deriving DecidableEq, Repr

/-- One transport call the block put out (20 R60, R64 to R67). -/
inductive Call where
  | readSingle (addr : Nat)
  | readMulti (start count : Nat)
  | writeSingle (addr : Nat) (byte : Byte)
  | writeMulti (start : Nat) (bytes : List Byte)
  deriving DecidableEq, Repr

/-- What reaches the machine from outside while no operation is in flight. -/
inductive Input where
  /-- The caller presents a command (30 R114). -/
  | command (c : Command)
  /-- The caller issues `init`; `willing` is whether the transport answers ok when nothing forces a failure (20 R62). -/
  | init (willing : Bool)
  /-- The caller issues `deinit`; `willing` as for `init` (20 R63). -/
  | deinit (willing : Bool)
  /-- The block is reset (70 R310). -/
  | reset
  /-- Another agent acts between two commands (20 R76, 70 R316). -/
  | move (m : EnvMove)
  deriving DecidableEq, Repr

/-- What reaches the machine from outside while an operation is in flight, in order. -/
inductive WireEvent where
  /-- Another agent acts before the next transport call (20 R76, 70 R314, R316). -/
  | move (m : EnvMove)
  /-- The step ends here with the operation still in flight: the next transport call is not yet answered. -/
  | pause
  /-- The transport's answer to the next call (20 R75). -/
  | answer (a : Answer)
  deriving DecidableEq, Repr

/-- The whole state. -/
structure State where
  /-- `SESS.init` (10 R31). -/
  sess : Bool
  /-- `DEV[0x00..0x12]` (10 R33). -/
  dev : Memory
  /-- The operation in flight (10 R54), none between operations (10 R30). -/
  flight : Option Flight
  /-- The response ports (30 R115). -/
  resp : Response
  /-- The transport's answer to the caller's last `init` or `deinit` (20 R62, R63). -/
  sessAnswer : Bool
  /-- Inputs not yet taken, oldest first. -/
  inputs : List Input
  /-- What the transport and the other agents do during operations, oldest first. -/
  wire : List WireEvent
  /-- Transport calls made so far, newest first: an observer of the transport port, read by nothing. -/
  trace : List Call
  /-- The model's own counter, which indexes the free values of Config. -/
  free : Nat
  deriving DecidableEq, Repr

/-- Machine faults: none. Every failure the spec describes is the outcome `ok = 0` of an operation (60 R280), a next state.
Nobody raises a fault, which is safe. -/
inductive Fault where
  deriving DecidableEq, Repr

/-- Why the model gives an instruction no next state. -/
inductive Refusal where
  /-- Raised by an arm of `exec` for an instruction without a meaning (there is none left). Safe. -/
  | notModelled (mnemonic : String)
  /-- Raised by a meaning run while a different operation is in flight: the block accepts one command at a time (60 R292) and
  93 U18 says to refuse to model this. `step` never runs a meaning so. Safe. -/
  | commandInFlight
  deriving DecidableEq, Repr

/-- The response ports at reset: unspecified by 10 R56. DESIGN CHOICE, all 0 (log entry 9). Unsafe. -/
def Response.reset : Response :=
  { ok := false, res8 := 0, frac := 0, flagOut := false, var1 := 0, var2 := 0, tvOut := 0, blkOut := 0 }

/-- The machine after reset with the device's contents as the argument (10 R56, 70 R311): the session not initialised, no
operation in flight, the device as it is. -/
def State.resetWith (dev : Memory) : State :=
  { sess := false, dev := dev, flight := none, resp := .reset, sessAnswer := false,
    inputs := [], wire := [], trace := [], free := 0 }

/-- The machine right after reset, with nothing listed in the device's register file (log entry 8). -/
def State.reset : State := .resetWith []

end Sys2Proof.Machine
end

