-- ==== Sys2Proof/Machine/Flags.lean ====
section
/-! DEFINITION. Every flag computation: what each operation writes back to the control byte 0x0E (30 R106, 10 R43) and to the
status byte 0x0F (30 R107, 10 R44), given the byte it read. Bits an operation does not name are kept (10 R47). -/

namespace Sys2Proof.Machine

/-! ### The control byte -/

/-- OSC_EN: OSC_DIS (bit 7) cleared (43 R242). -/
def oscEnByte (r : Byte) : Byte := r &&& 0x7F
/-- OSC_DIS: OSC_DIS (bit 7) set (43 R243). -/
def oscDisByte (r : Byte) : Byte := r ||| 0x80
/-- SQW_EN: BBSQW (bit 6), RS (bits 4:3) and INTCN (bit 2) written (43 R246). -/
def sqwEnByte (freq : BitVec 2) (bb : Bool) (r : Byte) : Byte :=
  (r &&& 0xA3) ||| (if bb then 0x40 else 0x00) ||| (freq.zeroExtend 8 <<< 3)
    ||| (if Config.pSqwEnBit2 then 0x04 else 0x00)
/-- SQW_DIS: INTCN (bit 2) written with the complement of what SQW_EN writes (43 R247). -/
def sqwDisByte (r : Byte) : Byte := if Config.pSqwEnBit2 then r &&& 0xFB else r ||| 0x04
/-- A1IE_EN (43 R248). -/
def a1ieEnByte (r : Byte) : Byte := r ||| 0x01
/-- A1IE_DIS (43 R249). -/
def a1ieDisByte (r : Byte) : Byte := r &&& 0xFE
/-- A2IE_EN (43 R250). -/
def a2ieEnByte (r : Byte) : Byte := r ||| 0x02
/-- A2IE_DIS (43 R251). -/
def a2ieDisByte (r : Byte) : Byte := r &&& 0xFD
/-- ALARM_SET, alarm 1, step 4: A1IE = 1, A2IE = 0, INTCN = 1 (42 R204). -/
def alarmSet1Control (c : Byte) : Byte := (c &&& 0xFD) ||| 0x05
/-- ALARM_SET, alarm 2, step 4: A2IE = 1, A1IE = 0, INTCN = 1 (42 R204). -/
def alarmSet2Control (c : Byte) : Byte := (c &&& 0xFE) ||| 0x06

/-! ### The status byte -/

/-- EN32K_EN: EN32K (bit 3) set (43 R244). -/
def en32kEnByte (r : Byte) : Byte := r ||| 0x08
/-- EN32K_DIS: EN32K (bit 3) cleared (43 R245). -/
def en32kDisByte (r : Byte) : Byte := r &&& 0xF7
/-- A1F_CLR: A1F (bit 0) cleared (43 R252). -/
def a1fClrByte (r : Byte) : Byte := r &&& 0xFE
/-- A2F_CLR: A2F (bit 1) cleared (43 R253). -/
def a2fClrByte (r : Byte) : Byte := r &&& 0xFD
/-- OSF_CLR, and step 2 of TIME_SET: OSF (bit 7) cleared (43 R255, 41 R169). -/
def osfClrByte (r : Byte) : Byte := r &&& 0x7F
/-- ALARM_SET, alarm 1, step 6: A1F = 0 (42 R204). -/
def alarmSet1Status (s : Byte) : Byte := s &&& 0xFE
/-- ALARM_SET, alarm 2, step 6: A2F = 0 (42 R204). -/
def alarmSet2Status (s : Byte) : Byte := s &&& 0xFD

/-! ### Flag reads -/

/-- OSF, bit 7 of the status byte (43 R254). -/
def osfBit (s : Byte) : Bool := s.getLsbD 7
/-- The mode-select bit, bit 6 of an hours byte, 1 = 12-hour (41 R171, 42 R204 step 1). -/
def mode12Bit (h : Byte) : Bool := h.getLsbD 6

end Sys2Proof.Machine
end

