-- ==== Sys2Proof/Machine/Operands.lean ====
section
/-! DEFINITION. Operand forms: the BCD byte (40), the hours byte (30 R103), the time block (41), the alarm variants, their
fingerprints and blocks (30 R109, R124, 42). Pure functions of bytes and TimeValues. -/

namespace Sys2Proof.Machine

/-! ### The BCD codec -/

/-- `mask(w)` (00 R11). -/
def tensMask (w : Nat) : Nat := (1 <<< w) - 1

/-- `bcd_dec(b, w)` (40 R141). -/
def bcdDec (b : Byte) (w : Nat) : Byte :=
  if b.toNat < 10 then b
  else
    let tens := (b.toNat >>> 4) &&& tensMask w
    let ones := b.toNat &&& 0x0F
    let v := tens * 10 + ones
    if v > 99 then 0 else BitVec.ofNat 8 v

/-- `bcd_enc(d)` (40 R143), in its closed form (DEDUCED by the spec in that rule). -/
def bcdEnc (d : Byte) : Byte :=
  if d.toNat > 99 then 0x00 else BitVec.ofNat 8 (((d.toNat / 10) <<< 4) ||| (d.toNat % 10))

/-! ### The hours byte -/

/-- The hours byte to write: BCD, and in 12-hour mode the mode-select and AM/PM bits (30 R103). -/
def hoursEnc (hours : Byte) (pm mode12 : Bool) : Byte :=
  if mode12 then bcdEnc hours ||| 0x40 ||| (if pm then 0x20 else 0x00) else bcdEnc hours

/-- `hours_dec(b)`: hours, `is_12_hour_format`, `pm` (42 R193, the hours part of 41 R161). -/
def hoursDec (b : Byte) : Byte × Bool × Bool :=
  if b.getLsbD 6 then (bcdDec b 1, true, b.getLsbD 5) else (bcdDec b 2, false, Config.pPm24h)

/-! ### The time block -/

/-- `time_dec(B)` (41 R161). -/
def timeDec (blk : TimeRegs) : TimeValue :=
  let h := hoursDec blk.hours
  { seconds := bcdDec blk.seconds 3
    minutes := bcdDec blk.minutes 3
    hours := h.1
    dayOfWeek := blk.dayOfWeek
    dayOfMonth := bcdDec blk.dayOfMonth 2
    month := bcdDec blk.month 1
    year := bcdDec blk.year 4
    is12HourFormat := h.2.1
    pm := h.2.2 }

/-- `time_enc(tv, use24)` (41 R165): `tv.is_12_hour_format` is not read. -/
def timeEnc (tv : TimeValue) (use24 : Bool) : TimeRegs where
  seconds := bcdEnc tv.seconds
  minutes := bcdEnc tv.minutes
  hours := hoursEnc tv.hours tv.pm (!use24)
  dayOfWeek := tv.dayOfWeek
  dayOfMonth := bcdEnc tv.dayOfMonth
  month := bcdEnc tv.month
  year := bcdEnc tv.year

/-! ### Alarm variants: classes and fingerprints -/

/-- *Has seconds* (30 R124). -/
def hasSeconds1 : Alarm1Variant → Bool
  | .secondsMinutesHoursDayOfMonth | .secondsMinutesHours | .secondsMinutes | .secondsOnly
  | .secondsMinutesHoursDayOfWeek => true
  | .oncePerSecond => false

/-- *Has minutes*, alarm 1 (30 R124). -/
def hasMinutes1 : Alarm1Variant → Bool
  | .secondsMinutesHoursDayOfMonth | .secondsMinutesHours | .secondsMinutes | .secondsMinutesHoursDayOfWeek => true
  | .secondsOnly | .oncePerSecond => false

/-- *Has hours*, alarm 1 (30 R124). -/
def hasHours1 : Alarm1Variant → Bool
  | .secondsMinutesHoursDayOfMonth | .secondsMinutesHours | .secondsMinutesHoursDayOfWeek => true
  | .secondsMinutes | .secondsOnly | .oncePerSecond => false

/-- *Needs no value*, alarm 1 (30 R124). -/
def needsNoValue1 : Alarm1Variant → Bool
  | .oncePerSecond => true
  | .secondsMinutesHoursDayOfMonth | .secondsMinutesHours | .secondsMinutes | .secondsOnly
  | .secondsMinutesHoursDayOfWeek => false

/-- *Has minutes*, alarm 2 (30 R124). -/
def hasMinutes2 : Alarm2Variant → Bool
  | .minutesHoursDayOfMonth | .minutesHours | .minutesOnly | .minutesHoursDayOfWeek => true
  | .oncePerMinute => false

/-- *Has hours*, alarm 2 (30 R124). -/
def hasHours2 : Alarm2Variant → Bool
  | .minutesHoursDayOfMonth | .minutesHours | .minutesHoursDayOfWeek => true
  | .minutesOnly | .oncePerMinute => false

/-- *Needs no value*, alarm 2 (30 R124). -/
def needsNoValue2 : Alarm2Variant → Bool
  | .oncePerMinute => true
  | .minutesHoursDayOfMonth | .minutesHours | .minutesOnly | .minutesHoursDayOfWeek => false

/-- Bit `i` of a byte as the number 0 or 1 (00 R10). -/
def bitNat (b : Byte) (i : Nat) : Nat := (b.getLsbD i).toNat

/-- `fp1`, the fingerprint of an alarm 1 block (30 R109). -/
def fp1 (blk : Alarm1Regs) : BitVec 5 :=
  BitVec.ofNat 5 (bitNat blk.seconds 7 ||| (bitNat blk.minutes 7 <<< 1) ||| (bitNat blk.hours 7 <<< 2)
    ||| (bitNat blk.day 7 <<< 3) ||| (bitNat blk.day 6 <<< 4))

/-- `fp2`, the fingerprint of an alarm 2 block (30 R109). -/
def fp2 (blk : Alarm2Regs) : BitVec 4 :=
  BitVec.ofNat 4 (bitNat blk.minutes 7 ||| (bitNat blk.hours 7 <<< 1) ||| (bitNat blk.day 7 <<< 2)
    ||| (bitNat blk.day 6 <<< 3))

/-! ### Alarm blocks -/

/-- The mask value, "always match this field" (30 R104). -/
def maskByte : Byte := 0x80

/-- `alarm_hours(tv, mode12)` (42 R191): `tv.is_12_hour_format` is not read. -/
def alarmHours (tv : TimeValue) (mode12 : Bool) : Byte := hoursEnc tv.hours tv.pm mode12

/-- The day byte of a *has day-of-month* variant, DY/DT = 0 (42 R192). -/
def alarmDayOfMonth (tv : TimeValue) : Byte := bcdEnc tv.dayOfMonth

/-- The day byte of a *has day-of-week* variant, DY/DT = 1 (42 R192). -/
def alarmDayOfWeek (tv : TimeValue) : Byte := bcdEnc tv.dayOfWeek ||| 0x40

/-- `a1_enc(V, tv, mode12)` for the six tags (42 R196). -/
def a1Enc (v : Alarm1Variant) (tv : TimeValue) (mode12 : Bool) : Alarm1Regs :=
  match v with
  | .oncePerSecond => ⟨maskByte, maskByte, maskByte, maskByte⟩
  | .secondsOnly => ⟨bcdEnc tv.seconds, maskByte, maskByte, maskByte⟩
  | .secondsMinutes => ⟨bcdEnc tv.seconds, bcdEnc tv.minutes, maskByte, maskByte⟩
  | .secondsMinutesHours => ⟨bcdEnc tv.seconds, bcdEnc tv.minutes, alarmHours tv mode12, maskByte⟩
  | .secondsMinutesHoursDayOfMonth =>
      ⟨bcdEnc tv.seconds, bcdEnc tv.minutes, alarmHours tv mode12, alarmDayOfMonth tv⟩
  | .secondsMinutesHoursDayOfWeek =>
      ⟨bcdEnc tv.seconds, bcdEnc tv.minutes, alarmHours tv mode12, alarmDayOfWeek tv⟩

/-- `a2_enc(V, tv, mode12)` for the five tags (42 R197). -/
def a2Enc (v : Alarm2Variant) (tv : TimeValue) (mode12 : Bool) : Alarm2Regs :=
  match v with
  | .oncePerMinute => ⟨maskByte, maskByte, maskByte⟩
  | .minutesOnly => ⟨bcdEnc tv.minutes, maskByte, maskByte⟩
  | .minutesHours => ⟨bcdEnc tv.minutes, alarmHours tv mode12, maskByte⟩
  | .minutesHoursDayOfMonth => ⟨bcdEnc tv.minutes, alarmHours tv mode12, alarmDayOfMonth tv⟩
  | .minutesHoursDayOfWeek => ⟨bcdEnc tv.minutes, alarmHours tv mode12, alarmDayOfWeek tv⟩

/-- Replace the hours fields of a TimeValue by a decoded hours byte (42 R193). -/
def withHours (tv : TimeValue) (b : Byte) : TimeValue :=
  let h := hoursDec b
  { tv with hours := h.1, is12HourFormat := h.2.1, pm := h.2.2 }

/-- The fields an alarm 1 variant implies, every other field as in `tv` (42 R195, R200). -/
def a1Populate (v : Alarm1Variant) (blk : Alarm1Regs) (tv : TimeValue) : TimeValue :=
  let tv := if hasSeconds1 v then { tv with seconds := bcdDec blk.seconds 3 } else tv
  let tv := if hasMinutes1 v then { tv with minutes := bcdDec blk.minutes 3 } else tv
  let tv := if hasHours1 v then withHours tv blk.hours else tv
  match v with
  | .secondsMinutesHoursDayOfMonth => { tv with dayOfMonth := bcdDec blk.day 2 }
  | .secondsMinutesHoursDayOfWeek => { tv with dayOfWeek := bcdDec blk.day 2 }
  | .secondsMinutesHours | .secondsMinutes | .secondsOnly | .oncePerSecond => tv

/-- The fields an alarm 2 variant implies, every other field as in `tv` (42 R195, R201). -/
def a2Populate (v : Alarm2Variant) (blk : Alarm2Regs) (tv : TimeValue) : TimeValue :=
  let tv := if hasMinutes2 v then { tv with minutes := bcdDec blk.minutes 3 } else tv
  let tv := if hasHours2 v then withHours tv blk.hours else tv
  match v with
  | .minutesHoursDayOfMonth => { tv with dayOfMonth := bcdDec blk.day 2 }
  | .minutesHoursDayOfWeek => { tv with dayOfWeek := bcdDec blk.day 2 }
  | .minutesHours | .minutesOnly | .oncePerMinute => tv

/-- `a1_dec(B, tv_in)` (42 R200): the recovered variant and TimeValue, or an unrecognised fingerprint. -/
def a1Dec (blk : Alarm1Regs) (tvIn : TimeValue) : Except FailCause (Alarm1Variant × TimeValue) :=
  match Alarm1Variant.ofTag (fp1 blk) with
  | some v => .ok (v, a1Populate v blk tvIn)
  | none => .error .fingerprint

/-- `a2_dec(B, tv_in)` (42 R201). -/
def a2Dec (blk : Alarm2Regs) (tvIn : TimeValue) : Except FailCause (Alarm2Variant × TimeValue) :=
  match Alarm2Variant.ofTag (fp2 blk) with
  | some v => .ok (v, a2Populate v blk tvIn)
  | none => .error .fingerprint

/-! ### Temperature -/

/-- The quarter-degree fraction code, bits 7:6 of the second byte (43 R256, 30 R108). -/
def tempFrac (lsb : Byte) : BitVec 2 := BitVec.ofNat 2 (lsb.toNat >>> 6)

/-- `signed8(v)` (00 R11, decision D31): how a caller reads `res8` of TEMP_GET. -/
def signed8 (v : Byte) : Int := if v.toNat < 128 then v.toNat else (v.toNat : Int) - 256

/-- The temperature in quarter degrees, `signed8(res8) + frac / 4` degrees (43 R256). -/
def tempQuarters (res8 : Byte) (frac : BitVec 2) : Int := 4 * signed8 res8 + frac.toNat

end Sys2Proof.Machine
end

