-- ==== Sys2Proof/Machine/Ops.lean ====
section
/-! DEFINITION. The named operations over the device's registers, the session, the transport and the response ports, and the
one shape of every operation: checks, transport calls in order, response (60 R280 to R289). The fail outcome, which is what
this block has in the place of an exception (60 R288), is `State.fail`. -/

namespace Sys2Proof.Machine

/-! ### The register file as memory -/

/-- What an unlisted register holds. The spec gives the device no reset contents (10 R57): DESIGN CHOICE (log entry 8).
Unsafe. -/
def Memory.unlisted : Byte := 0x00

/-- The byte a register holds. -/
def Memory.read : Memory → Nat → Byte
  | [], _ => Memory.unlisted
  | (a, v) :: m, x => if x = a then v else Memory.read m x

/-- Forget what is listed for register `x`. -/
def Memory.erase (m : Memory) (x : Nat) : Memory := m.filter (fun e => e.1 != x)

/-- List register `x` with byte `b` at its place in the rising order. -/
def Memory.insert : Memory → Nat → Byte → Memory
  | [], x, b => [(x, b)]
  | (a, v) :: m, x, b => if x < a then (x, b) :: (a, v) :: m else (a, v) :: Memory.insert m x b

/-- Put a byte in a register, keeping the canonical form: a register that holds what an unlisted one holds is not listed. -/
def Memory.write (m : Memory) (x : Nat) (b : Byte) : Memory :=
  if b = Memory.unlisted then m.erase x else (m.erase x).insert x b

/-- Listed addresses are at least `lo`, strictly rising and at most `ADDR_MAX`, and no entry equals what an unlisted register
holds. -/
def Memory.wfFrom : Nat → Memory → Bool
  | _, [] => true
  | lo, (a, v) :: m =>
    decide (lo ≤ a) && decide (a ≤ Config.addrMax) && decide (v ≠ Memory.unlisted) && Memory.wfFrom (a + 1) m

/-- The canonical form of the register file: equal register files are equal lists. -/
def Memory.wf (m : Memory) : Bool := Memory.wfFrom 0 m

/-! ### The other agents -/

/-- One move of another agent (20 R76, 70 R316). -/
def State.applyMove (s : State) : EnvMove → State
  | .dev a b => { s with dev := s.dev.write a.val b }
  | .init => { s with sess := true }
  | .deinit => { s with sess := false }

/-- Several moves in order. -/
def State.applyMoves (s : State) (ms : List EnvMove) : State := ms.foldl State.applyMove s

/-- What the device does just before byte `i` of a call is transferred: nothing if a call is one access to it
(20 R71, `P_MULTI_ATOMIC`). -/
def movesAt (a : Answer) (i : Nat) : List (Fin 19 × Byte) :=
  match a.during with
  | [] => []
  | l => if Config.pMultiAtomic then [] else l.filterMap (fun e => if e.1 = i then some e.2 else none)

/-- The device's changes to its own registers. -/
def Memory.deviceMoves (m : Memory) (l : List (Fin 19 × Byte)) : Memory := l.foldl (fun m e => m.write e.1.val e.2) m

/-! ### The session (20 R62, R63), the block's reset (70 R310) -/

/-- `init(handle)`: fails if already initialised, else as the transport answers; on ok the session is initialised. -/
def State.initSession (s : State) (willing : Bool) : State :=
  let ok := !s.sess && willing
  { s with sess := s.sess || ok, sessAnswer := ok }

/-- `deinit(handle)`: fails if not initialised, else as the transport answers; on ok the session is left. -/
def State.deinitSession (s : State) (willing : Bool) : State :=
  let ok := s.sess && willing
  { s with sess := s.sess && !ok, sessAnswer := ok }

/-- Response ports of which nothing is specified (10 R56, 60 R286), `ok` given. -/
def Response.unspecified (ok : Bool) (n : Nat) : Response :=
  { ok := ok, res8 := Config.freeRes8 n, frac := Config.freeFrac n, flagOut := Config.freeFlagOut n,
    var1 := Config.freeVar1 n, var2 := Config.freeVar2 n, tvOut := Config.freeTvOut n, blkOut := Config.freeBlkOut n }

/-- A reset of the block: the session not initialised, no operation in flight, the response ports unspecified, the device
untouched (70 R310, 10 R56). -/
def State.resetBlock (s : State) : State :=
  { s with sess := false, flight := none, resp := .unspecified (Config.freeOk s.free) s.free, free := s.free + 1 }

/-! ### Transport primitives (20 R60 to R75, R84) -/

/-- The range rule, in one place for the four primitives (20 R69). -/
def inRange (start count : Nat) : Bool := decide (start + count ≤ Config.addrMax + 1)

/-- A call can succeed only with the session initialised (20 R84) and in range (20 R64 to R67). -/
def State.callSucceeds (s : State) (a : Answer) (start count : Nat) : Bool := s.sess && inRange start count && a.ok

/-- Transfer `n` bytes from the device, byte `i` and on: the device may move before each. -/
def Memory.transferIn (a : Answer) (start : Nat) : Nat → Nat → Memory → Memory × List Byte
  | 0, _, m => (m, [])
  | n + 1, i, m =>
    let m1 := m.deviceMoves (movesAt a i)
    let r := Memory.transferIn a start n (i + 1) m1
    (r.1, m1.read (start + i) :: r.2)

/-- Transfer bytes to the device, byte `i` and on: the device may move before each, and a byte arrives if the call succeeds, or
if it is one of the bytes that landed although the call failed (20 R75). An address that does not exist takes no byte. -/
def Memory.transferOut (a : Answer) (ok : Bool) (start : Nat) : List Byte → Nat → Memory → Memory
  | [], _, m => m
  | b :: bs, i, m =>
    let m1 := m.deviceMoves (movesAt a i)
    let m2 := if (ok || a.landed.getD i false) && decide (start + i ≤ Config.addrMax) then m1.write (start + i) b else m1
    Memory.transferOut a ok start bs (i + 1) m2

/-- The call `MemRead(start, count)` puts out: read_single for one byte, else read_multi (00 R12). -/
def readCall (start count : Nat) : Call := if count = 1 then .readSingle start else .readMulti start count

/-- The call `MemWrite(start, n, B)` puts out: write_single for one byte, else write_multi (00 R12). -/
def writeCall (start : Nat) : List Byte → Call
  | [b] => .writeSingle start b
  | bs => .writeMulti start bs

/-- `MemRead(start, count)` (20 R64, R65): the bytes, or none when the call fails. A failed read yields no byte (20 R75). -/
def State.memRead (s : State) (a : Answer) (start count : Nat) : State × Option (List Byte) :=
  let s := { s with trace := readCall start count :: s.trace }
  if s.callSucceeds a start count then
    let r := s.dev.transferIn a start count 0
    ({ s with dev := r.1 }, some r.2)
  else (s, none)

/-- `MemWrite(start, n, B)` (20 R66, R67): whether the call succeeds. A failed write leaves each addressed register old or new
(20 R75). -/
def State.memWrite (s : State) (a : Answer) (start : Nat) (bytes : List Byte) : State × Bool :=
  let s := { s with trace := writeCall start bytes :: s.trace }
  let ok := s.callSucceeds a start bytes.length
  ({ s with dev := s.dev.transferOut a ok start bytes 0 }, ok)

/-! ### The response -/

/-- The results an operation names (30 R117); a port left at `none` is unspecified (30 R115). `blk` holds the bytes of a result
block, and the bits of `blk_out` above them are unspecified (30 R113). -/
structure Results where
  res8 : Option Byte := none
  frac : Option (BitVec 2) := none
  flagOut : Option Bool := none
  var1 : Option (BitVec 5) := none
  var2 : Option (BitVec 4) := none
  tv : Option TimeValue := none
  blk : List Byte := []

/-- `blk_out`: the bytes of the block, and above them the unspecified bits of `hi` (30 R113). -/
def blkOutPort (bytes : List Byte) (hi : BitVec 56) : BitVec 56 :=
  let w := 2 ^ (8 * bytes.length)
  BitVec.ofNat 56 (packBytes bytes + w * (hi.toNat / w))

/-- The ports after a pass: `ok = 1`, the named results, a free value on every other port. -/
def Response.pass (r : Results) (n : Nat) : Response :=
  { ok := true
    res8 := r.res8.getD (Config.freeRes8 n)
    frac := r.frac.getD (Config.freeFrac n)
    flagOut := r.flagOut.getD (Config.freeFlagOut n)
    var1 := r.var1.getD (Config.freeVar1 n)
    var2 := r.var2.getD (Config.freeVar2 n)
    tvOut := match r.tv with
      | some tv => tv.toPort
      | none => Config.freeTvOut n
    blkOut := blkOutPort r.blk (Config.freeBlkOut n) }

/-- The pass outcome (60 R280): the response is given and no operation is in flight. -/
def State.pass (s : State) (r : Results) : State :=
  { s with flight := none, resp := .pass r s.free, free := s.free + 1 }

/-- The fail outcome `raise Fail(cause)` (60 R280, R286, R288): `ok = 0`, every other port unspecified, nothing saved and the
cause not kept, no operation in flight. -/
def State.fail (s : State) (_cause : FailCause) : State :=
  { s with flight := none, resp := .unspecified false s.free, free := s.free + 1 }

/-- The response of an operation whose steps are done. -/
def State.respond (s : State) : Except FailCause Results → State
  | .ok r => s.pass r
  | .error c => s.fail c

/-! ### The shape of every operation -/

/-- One transport step: a read, or a write of bytes computed from the bytes latched by the last read. -/
inductive OpStep where
  | read (start count : Nat)
  | write (start : Nat) (bytes : List Byte → List Byte)

/-- What the wire gives the next transport call. -/
inductive Drawn where
  /-- The step ends with the call not yet answered. -/
  | paused (s : State)
  /-- The other agents have moved, and this is the answer. -/
  | answered (s : State) (a : Answer)

/-- Take events of the wire, in order, up to a pause or an answer; past its end both the other agents' moves and the answer are
free values (20 R75, R76). -/
def drawFrom : List WireEvent → State → Drawn
  | [], s =>
    .answered ({ s with wire := [], free := s.free + 1 }.applyMoves (Config.freeMoves s.free)) (Config.freeAnswer s.free)
  | .pause :: w, s => .paused { s with wire := w }
  | .answer a :: w, s => .answered { s with wire := w } a
  | .move m :: w, s => drawFrom w (s.applyMove m)

/-- Make one transport call: the bytes latched after it, or none when it fails. A write leaves the latched bytes alone. -/
def OpStep.call (st : OpStep) (a : Answer) (latched : List Byte) (s : State) : State × Option (List Byte) :=
  match st with
  | .read start count => s.memRead a start count
  | .write start bytes =>
    let r := s.memWrite a start (bytes latched)
    (r.1, if r.2 then some latched else none)

/-- Carry out the remaining transport steps of operation `i`, `k` of them being done, and respond. The first failing call ends
the operation (60 R285); a pause leaves it in flight (10 R54). -/
def runSteps (i : Instr) (finish : List Byte → Except FailCause Results) :
    List OpStep → Nat → List Byte → State → State
  | [], _, latched, s => s.respond (finish latched)
  | st :: rest, k, latched, s =>
    match drawFrom s.wire s with
    | .paused s1 => { s1 with flight := some { instr := i, idx := k, latched := latched } }
    | .answered s1 a =>
      match st.call a latched s1 with
      | (s2, some latched2) => runSteps i finish rest (k + 1) latched2 s2
      | (s2, none) => s2.fail .transport

/-- The first check of step 0 that fails, in order (60 R283, R284). -/
def firstFailed : List (Bool × FailCause) → Option FailCause
  | [] => none
  | (good, c) :: rest => if good then firstFailed rest else some c

/-- An operation: its step-0 checks, its transport steps, its results from the bytes last read. A new operation starts with the
checks, an operation `i` already in flight is carried on from its step index, and while a different operation is in flight the
block takes no command (60 R292, 93 U18). -/
def operation (i : Instr) (checks : List (Bool × FailCause)) (steps : List OpStep)
    (finish : List Byte → Except FailCause Results) (s : State) : Host.Outcome State Fault Refusal :=
  match s.flight with
  | none =>
    match firstFailed checks with
    | some c => .next (s.fail c)
    | none => .next (runSteps i finish steps 0 [] s)
  | some f =>
    if f.instr = i then
      .next (runSteps i finish (steps.drop f.idx) f.idx f.latched { s with flight := none })
    else .refused .commandInFlight

/-- `rmw(A, f)` (43 R240). -/
def rmw (i : Instr) (hv : Bool) (addr : Nat) (f : Byte → Byte) (s : State) : Host.Outcome State Fault Refusal :=
  operation i [(hv, .precondHandle), (s.sess, .precondSession)]
    [.read addr 1, .write addr (fun r => [f (r.getD 0 0)])]
    (fun _ => .ok {}) s

/-- `rd(A, n)` (43 R241), also the shape of TIME_GET and MODE_GET (41 R168, R171). -/
def rd (i : Instr) (hv ov : Bool) (start count : Nat) (g : List Byte → Results) (s : State) :
    Host.Outcome State Fault Refusal :=
  operation i [(hv, .precondHandle), (s.sess, .precondSession), (ov, .precondTarget)]
    [.read start count]
    (fun b => .ok (g b)) s

/-! ### Between operations -/

/-- A command with a reserved code is refused (30 R119, cause `FC_RESERVED_OP`): the fail outcome, no transport call. -/
def State.rejectCommand (s : State) : Reject → State
  | .reservedOp _ => s.fail .reservedOp

/-- With no input pending the block waits (70 R310). -/
def State.idle (s : State) : State := s

end Sys2Proof.Machine
end

