-- ==== Sys2Proof/Machine/Accessors.lean ====
section
/-! DEFINITION. The control and status bit accessors: 13 read-modify-writes and 2 reads (43). -/

namespace Sys2Proof.Machine

/-- OSC_EN (43 R242). -/
def execOscEn (hv : Bool) (s : State) : Host.Outcome State Fault Refusal :=
  rmw (.oscEn hv) hv Config.ctrlAddr oscEnByte s

/-- OSC_DIS (43 R243). -/
def execOscDis (hv : Bool) (s : State) : Host.Outcome State Fault Refusal :=
  rmw (.oscDis hv) hv Config.ctrlAddr oscDisByte s

/-- EN32K_EN (43 R244). -/
def execEn32kEn (hv : Bool) (s : State) : Host.Outcome State Fault Refusal :=
  rmw (.en32kEn hv) hv Config.statAddr en32kEnByte s

/-- EN32K_DIS (43 R245). -/
def execEn32kDis (hv : Bool) (s : State) : Host.Outcome State Fault Refusal :=
  rmw (.en32kDis hv) hv Config.statAddr en32kDisByte s

/-- SQW_EN (43 R246). -/
def execSqwEn (hv : Bool) (freq : BitVec 2) (bb : Bool) (s : State) : Host.Outcome State Fault Refusal :=
  rmw (.sqwEn hv freq bb) hv Config.ctrlAddr (sqwEnByte freq bb) s

/-- SQW_DIS (43 R247). -/
def execSqwDis (hv : Bool) (s : State) : Host.Outcome State Fault Refusal :=
  rmw (.sqwDis hv) hv Config.ctrlAddr sqwDisByte s

/-- A1IE_EN (43 R248). -/
def execA1ieEn (hv : Bool) (s : State) : Host.Outcome State Fault Refusal :=
  rmw (.a1ieEn hv) hv Config.ctrlAddr a1ieEnByte s

/-- A1IE_DIS (43 R249). -/
def execA1ieDis (hv : Bool) (s : State) : Host.Outcome State Fault Refusal :=
  rmw (.a1ieDis hv) hv Config.ctrlAddr a1ieDisByte s

/-- A2IE_EN (43 R250). -/
def execA2ieEn (hv : Bool) (s : State) : Host.Outcome State Fault Refusal :=
  rmw (.a2ieEn hv) hv Config.ctrlAddr a2ieEnByte s

/-- A2IE_DIS (43 R251). -/
def execA2ieDis (hv : Bool) (s : State) : Host.Outcome State Fault Refusal :=
  rmw (.a2ieDis hv) hv Config.ctrlAddr a2ieDisByte s

/-- A1F_CLR (43 R252). -/
def execA1fClr (hv : Bool) (s : State) : Host.Outcome State Fault Refusal :=
  rmw (.a1fClr hv) hv Config.statAddr a1fClrByte s

/-- A2F_CLR (43 R253). -/
def execA2fClr (hv : Bool) (s : State) : Host.Outcome State Fault Refusal :=
  rmw (.a2fClr hv) hv Config.statAddr a2fClrByte s

/-- OSF_GET (43 R254). -/
def execOsfGet (hv ov : Bool) (s : State) : Host.Outcome State Fault Refusal :=
  rd (.osfGet hv ov) hv ov Config.statAddr 1 (fun b => { flagOut := some (osfBit (b.getD 0 0)) }) s

/-- OSF_CLR (43 R255). -/
def execOsfClr (hv : Bool) (s : State) : Host.Outcome State Fault Refusal :=
  rmw (.osfClr hv) hv Config.statAddr osfClrByte s

/-- TEMP_GET (43 R256). -/
def execTempGet (hv ov : Bool) (s : State) : Host.Outcome State Fault Refusal :=
  rd (.tempGet hv ov) hv ov Config.tempBase Config.tempLen
    (fun b => { res8 := some (b.getD 0 0), frac := some (tempFrac (b.getD 1 0)) }) s

end Sys2Proof.Machine
end

