-- ==== Sys2Proof/Machine/Alarm.lean ====
section
/-! DEFINITION. The alarm register codec: A1_DEC, A1_ENC, A2_DEC, A2_ENC, ALARM_GET, ALARM_SET (42). -/

namespace Sys2Proof.Machine

/-- The results of an alarm 1 decode: `var1` and `tv_out` (42 R200). -/
def alarm1Results (blk : Alarm1Regs) (tvIn : TimeValue) : Except FailCause Results :=
  match a1Dec blk tvIn with
  | .ok (v, tv) => .ok { var1 := some v.tag, tv := some tv }
  | .error c => .error c

/-- The results of an alarm 2 decode: `var2` and `tv_out` (42 R201). -/
def alarm2Results (blk : Alarm2Regs) (tvIn : TimeValue) : Except FailCause Results :=
  match a2Dec blk tvIn with
  | .ok (v, tv) => .ok { var2 := some v.tag, tv := some tv }
  | .error c => .error c

/-- A1_DEC (42 R200). -/
def execA1Dec (blk : Alarm1Regs) (tv : TimeValue) (s : State) : Host.Outcome State Fault Refusal :=
  operation (.a1Dec blk tv) [] [] (fun _ => alarm1Results blk tv) s

/-- A2_DEC (42 R201). -/
def execA2Dec (blk : Alarm2Regs) (tv : TimeValue) (s : State) : Host.Outcome State Fault Refusal :=
  operation (.a2Dec blk tv) [] [] (fun _ => alarm2Results blk tv) s

/-- A1_ENC (42 R196): a tag that is no variant is refused (30 R120 (b)). -/
def execA1Enc (sel1 : BitVec 5) (tv : TimeValue) (mode12 : Bool) (s : State) : Host.Outcome State Fault Refusal :=
  operation (.a1Enc sel1 tv mode12) [] []
    (fun _ => match Alarm1Variant.ofTag sel1 with
      | some v => .ok { blk := (a1Enc v tv mode12).toBytes }
      | none => .error .precondSelector) s

/-- A2_ENC (42 R197): a tag that is no variant is refused (30 R120 (c)). -/
def execA2Enc (sel2 : BitVec 4) (tv : TimeValue) (mode12 : Bool) (s : State) : Host.Outcome State Fault Refusal :=
  operation (.a2Enc sel2 tv mode12) [] []
    (fun _ => match Alarm2Variant.ofTag sel2 with
      | some v => .ok { blk := (a2Enc v tv mode12).toBytes }
      | none => .error .precondSelector) s

/-- ALARM_GET (42 R206): `s1v` asks for alarm 1, `s2v` for alarm 2, exactly one of them. -/
def execAlarmGet (hv ov s1v s2v : Bool) (tv : TimeValue) (s : State) : Host.Outcome State Fault Refusal :=
  operation (.alarmGet hv ov s1v s2v tv)
    [(hv, .precondHandle), (s.sess, .precondSession), (ov, .precondTarget), (s1v != s2v, .precondSelector)]
    (if s1v then [.read Config.a1Base Config.a1Len] else [.read Config.a2Base Config.a2Len])
    (fun b => if s1v then alarm1Results (.ofBytes b) tv else alarm2Results (.ofBytes b) tv) s

/-- The selector of ALARM_SET when exactly one is present (42 R204): a legal tag of its alarm. -/
def selectorLegal (s1v : Bool) (sel1 : BitVec 5) (sel2 : BitVec 4) : Bool :=
  if s1v then (Alarm1Variant.ofTag sel1).isSome else (Alarm2Variant.ofTag sel2).isSome

/-- Whether the variant needs no value (42 R204, "once per second/minute"). -/
def selectorNeedsNoValue (s1v : Bool) (sel1 : BitVec 5) (sel2 : BitVec 4) : Bool :=
  if s1v then (Alarm1Variant.ofTag sel1).any needsNoValue1 else (Alarm2Variant.ofTag sel2).any needsNoValue2

/-- Step 1 of ALARM_SET (42 R204): the hours register is read only when the variant has hours (decision D16). -/
def hoursRead (hasHours : Bool) : List OpStep := if hasHours then [.read Config.hoursAddr 1] else []

/-- Steps 1 to 6 of ALARM_SET for an alarm 1 variant (42 R204): block, then control, then status. -/
def alarmSet1Steps (v : Alarm1Variant) (tv : TimeValue) : List OpStep :=
  hoursRead (hasHours1 v) ++
  [.write Config.a1Base (fun r => (a1Enc v tv (mode12Bit (r.getD 0 0))).toBytes),
   .read Config.ctrlAddr 1,
   .write Config.ctrlAddr (fun r => [alarmSet1Control (r.getD 0 0)]),
   .read Config.statAddr 1,
   .write Config.statAddr (fun r => [alarmSet1Status (r.getD 0 0)])]

/-- Steps 1 to 6 of ALARM_SET for an alarm 2 variant (42 R204). -/
def alarmSet2Steps (v : Alarm2Variant) (tv : TimeValue) : List OpStep :=
  hoursRead (hasHours2 v) ++
  [.write Config.a2Base (fun r => (a2Enc v tv (mode12Bit (r.getD 0 0))).toBytes),
   .read Config.ctrlAddr 1,
   .write Config.ctrlAddr (fun r => [alarmSet2Control (r.getD 0 0)]),
   .read Config.statAddr 1,
   .write Config.statAddr (fun r => [alarmSet2Status (r.getD 0 0)])]

/-- The steps of ALARM_SET; a selector without a variant has none, and step 0 fails on it first. -/
def alarmSetSteps (s1v : Bool) (sel1 : BitVec 5) (sel2 : BitVec 4) (tv : TimeValue) : List OpStep :=
  if s1v then
    match Alarm1Variant.ofTag sel1 with
    | some v => alarmSet1Steps v tv
    | none => []
  else
    match Alarm2Variant.ofTag sel2 with
    | some v => alarmSet2Steps v tv
    | none => []

/-- ALARM_SET (42 R204). -/
def execAlarmSet (hv vv s1v : Bool) (sel1 : BitVec 5) (s2v : Bool) (sel2 : BitVec 4) (tv : TimeValue) (s : State) :
    Host.Outcome State Fault Refusal :=
  operation (.alarmSet hv vv s1v sel1 s2v sel2 tv)
    [(hv, .precondHandle), (s.sess, .precondSession), (s1v != s2v, .precondSelector),
     (selectorLegal s1v sel1 sel2, .precondSelector),
     (vv || selectorNeedsNoValue s1v sel1 sel2, .precondTarget)]
    (alarmSetSteps s1v sel1 sel2 tv)
    (fun _ => .ok {}) s

end Sys2Proof.Machine
end

