-- ==== Sys2Proof/Machine/Bcd.lean ====
section
/-! DEFINITION. The BCD codec: BCD_DEC and BCD_ENC (40). Pure operations: no transport step. -/

namespace Sys2Proof.Machine

/-- BCD_DEC (40 R141). -/
def execBcdDec (arg8 : Byte) (tw : BitVec 3) (s : State) : Host.Outcome State Fault Refusal :=
  operation (.bcdDec arg8 tw) [(decide (1 ≤ tw.toNat ∧ tw.toNat ≤ 4), .reservedOperand)] []
    (fun _ => .ok { res8 := some (bcdDec arg8 tw.toNat) }) s

/-- BCD_ENC (40 R143). -/
def execBcdEnc (arg8 : Byte) (s : State) : Host.Outcome State Fault Refusal :=
  operation (.bcdEnc arg8) [] [] (fun _ => .ok { res8 := some (bcdEnc arg8) }) s

end Sys2Proof.Machine
end

