-- ==== Sys2Proof/Machine/Time.lean ====
section
/-! DEFINITION. The time register codec: TIME_DEC, TIME_ENC, TIME_GET, TIME_SET, MODE_GET (41). -/

namespace Sys2Proof.Machine

/-- TIME_DEC (41 R161). -/
def execTimeDec (blk : TimeRegs) (s : State) : Host.Outcome State Fault Refusal :=
  operation (.timeDec blk) [] [] (fun _ => .ok { tv := some (timeDec blk) }) s

/-- TIME_ENC (41 R165). -/
def execTimeEnc (tv : TimeValue) (use24 : Bool) (s : State) : Host.Outcome State Fault Refusal :=
  operation (.timeEnc tv use24) [] [] (fun _ => .ok { blk := (timeEnc tv use24).toBytes }) s

/-- TIME_GET (41 R168). -/
def execTimeGet (hv ov : Bool) (s : State) : Host.Outcome State Fault Refusal :=
  rd (.timeGet hv ov) hv ov Config.timeBase Config.timeLen (fun b => { tv := some (timeDec (.ofBytes b)) }) s

/-- TIME_SET (41 R169): status read, OSF cleared, then the seven time bytes. -/
def execTimeSet (hv vv : Bool) (tv : TimeValue) (use24 : Bool) (s : State) : Host.Outcome State Fault Refusal :=
  operation (.timeSet hv vv tv use24)
    [(hv, .precondHandle), (s.sess, .precondSession), (vv, .precondTarget)]
    [.read Config.statAddr 1,
     .write Config.statAddr (fun r => [osfClrByte (r.getD 0 0)]),
     .write Config.timeBase (fun _ => (timeEnc tv use24).toBytes)]
    (fun _ => .ok {}) s

/-- MODE_GET (41 R171). -/
def execModeGet (hv ov : Bool) (s : State) : Host.Outcome State Fault Refusal :=
  rd (.modeGet hv ov) hv ov Config.hoursAddr 1 (fun b => { flagOut := some (mode12Bit (b.getD 0 0)) }) s

end Sys2Proof.Machine
end

