-- ==== Sys2Proof/Machine/Dispatch.lean ====
section
/-! DEFINITION. The dispatch: one meaning for each of the 28 operations of 30 R118. -/

namespace Sys2Proof.Machine

def exec (i : Instr) (s : State) : Host.Outcome State Fault Refusal :=
  match i with
  | .bcdDec arg8 tw => Sys2Proof.Machine.execBcdDec arg8 tw s
  | .bcdEnc arg8 => Sys2Proof.Machine.execBcdEnc arg8 s
  | .timeDec blk => Sys2Proof.Machine.execTimeDec blk s
  | .timeEnc tv use24 => Sys2Proof.Machine.execTimeEnc tv use24 s
  | .timeGet hv ov => Sys2Proof.Machine.execTimeGet hv ov s
  | .timeSet hv vv tv use24 => Sys2Proof.Machine.execTimeSet hv vv tv use24 s
  | .modeGet hv ov => Sys2Proof.Machine.execModeGet hv ov s
  | .a1Dec blk tv => Sys2Proof.Machine.execA1Dec blk tv s
  | .a1Enc sel1 tv mode12 => Sys2Proof.Machine.execA1Enc sel1 tv mode12 s
  | .a2Dec blk tv => Sys2Proof.Machine.execA2Dec blk tv s
  | .a2Enc sel2 tv mode12 => Sys2Proof.Machine.execA2Enc sel2 tv mode12 s
  | .alarmGet hv ov s1v s2v tv => Sys2Proof.Machine.execAlarmGet hv ov s1v s2v tv s
  | .alarmSet hv vv s1v sel1 s2v sel2 tv => Sys2Proof.Machine.execAlarmSet hv vv s1v sel1 s2v sel2 tv s
  | .oscEn hv => Sys2Proof.Machine.execOscEn hv s
  | .oscDis hv => Sys2Proof.Machine.execOscDis hv s
  | .en32kEn hv => Sys2Proof.Machine.execEn32kEn hv s
  | .en32kDis hv => Sys2Proof.Machine.execEn32kDis hv s
  | .sqwEn hv freq bb => Sys2Proof.Machine.execSqwEn hv freq bb s
  | .sqwDis hv => Sys2Proof.Machine.execSqwDis hv s
  | .a1ieEn hv => Sys2Proof.Machine.execA1ieEn hv s
  | .a1ieDis hv => Sys2Proof.Machine.execA1ieDis hv s
  | .a2ieEn hv => Sys2Proof.Machine.execA2ieEn hv s
  | .a2ieDis hv => Sys2Proof.Machine.execA2ieDis hv s
  | .a1fClr hv => Sys2Proof.Machine.execA1fClr hv s
  | .a2fClr hv => Sys2Proof.Machine.execA2fClr hv s
  | .osfGet hv ov => Sys2Proof.Machine.execOsfGet hv ov s
  | .osfClr hv => Sys2Proof.Machine.execOsfClr hv s
  | .tempGet hv ov => Sys2Proof.Machine.execTempGet hv ov s

end Sys2Proof.Machine
end

