-- ==== Sys2Proof/Machine/Step.lean ====
section
/-! DEFINITION. One step: carry the operation in flight on, or else take the next input (60 R292). -/

namespace Sys2Proof.Machine

/-- One step of the machine. An operation in flight is carried on to its response or to the next pause. With none in flight the
oldest input is taken: a command is decoded and run, a reserved code is refused (30 R119), `init`, `deinit`, a block reset and
the moves of other agents have their effects, and with no input the block waits. -/
def step (s : State) : Host.Outcome State Fault Refusal :=
  match s.flight with
  | some f => exec f.instr s
  | none =>
    match s.inputs with
    | [] => .next s.idle
    | .command c :: rest =>
      match decode c with
      | .ok i => exec i { s with inputs := rest }
      | .error r => .next (State.rejectCommand { s with inputs := rest } r)
    | .init willing :: rest => .next (State.initSession { s with inputs := rest } willing)
    | .deinit willing :: rest => .next (State.deinitSession { s with inputs := rest } willing)
    | .reset :: rest => .next (State.resetBlock { s with inputs := rest })
    | .move m :: rest => .next (State.applyMove { s with inputs := rest } m)

/-- `s` with the command whose bits are `w` (all bits from `nbits` up being 0) as the next input, and no operation in flight, so
that the next step runs it (log entry 2). -/
def State.withFetchWord (s : State) (nbits w : Nat) : State :=
  { s with flight := none, inputs := .command (.ofWord (w % 2 ^ nbits)) :: s.inputs }

end Sys2Proof.Machine
end

