-- ==== Sys2Proof/Safety.lean ====
section
/-! DEFINITION. The terms claims are made in: registers, answers of the transport, what a step leaves alone, the transport calls
of an operation (20 R70), calendar ranges (10 R51), and the invariant of the state. -/

namespace Sys2Proof.Machine

/-- The byte the device holds in register `a`: `DEV[a]` (10 R33). -/
def State.reg (s : State) (a : Nat) : Byte := s.dev.read a

/-- The seven time registers, the four of alarm 1, the three of alarm 2 (10 R33). -/
def State.timeRegs (s : State) : TimeRegs :=
  ⟨s.reg 0x00, s.reg 0x01, s.reg 0x02, s.reg 0x03, s.reg 0x04, s.reg 0x05, s.reg 0x06⟩
def State.alarm1Regs (s : State) : Alarm1Regs := ⟨s.reg 0x07, s.reg 0x08, s.reg 0x09, s.reg 0x0A⟩
def State.alarm2Regs (s : State) : Alarm2Regs := ⟨s.reg 0x0B, s.reg 0x0C, s.reg 0x0D⟩

/-- The transport answers ok and the device does not move inside the call. -/
def GoodAnswer (a : Answer) : Prop := a.ok = true ∧ a.during = []

/-- The transport answers fail and the device does not move inside the call. -/
def BadAnswer (a : Answer) : Prop := a.ok = false ∧ a.during = []

/-- `n` calls in a row are answered ok on a device that does not move of itself, plain memory (20 R76), and then comes `w`. -/
def Answered (s : State) (n : Nat) (w : List WireEvent) : Prop :=
  ∃ as : List Answer, as.length = n ∧ (∀ a ∈ as, GoodAnswer a) ∧ s.wire = as.map .answer ++ w

/-- The next calls are answered, ok or fail, and no other agent moves: the wire gives at least as many answers as an operation
makes calls (60 R298). -/
def StillWire (s : State) : Prop :=
  ∃ (as : List Answer) (w : List WireEvent), 6 ≤ as.length ∧ (∀ a ∈ as, a.during = []) ∧ s.wire = as.map .answer ++ w

/-- An operation can start and its handshake check passes. -/
def Ready (s : State) : Prop := s.flight = none ∧ s.sess = true

/-- From `s` to `t` only the response was given: no register, session bit, pending input, wire event or transport call. -/
def OnlyResponse (s t : State) : Prop := t = { s with resp := t.resp, free := t.free }

/-- From `s` to `t` only registers, the response, the trace of calls and the wire (which is now `w`) changed: the session, the
pending inputs and the operation in flight are as they were. -/
def OnlyTransport (s t : State) (w : List WireEvent) : Prop :=
  t = { s with dev := t.dev, resp := t.resp, trace := t.trace, wire := w, free := t.free }

/-- Every register outside `start … start + count - 1` holds what it held. -/
def RegsKeptOutside (s t : State) (start count : Nat) : Prop :=
  ∀ a, ¬ (start ≤ a ∧ a < start + count) → t.reg a = s.reg a

/-- Every register holds what it held. -/
def RegsKept (s t : State) : Prop := ∀ a, t.reg a = s.reg a

/-- The operation answers `ok = 0` at once: no transport call, nothing changed but the response (60 R283). -/
def FailsAtOnce (i : Instr) (s : State) : Prop :=
  ∃ t, exec i s = .next t ∧ t.resp.ok = false ∧ OnlyResponse s t

/-- The block on the low bytes of `blk_out` (30 R113). -/
def BlkOutIs (r : Response) (bytes : List Byte) : Prop :=
  ∀ k, ∀ h : k < bytes.length, r.blkOut.extractLsb' (8 * k) 8 = bytes[k]

/-- The `rmw(A, f)` shape of 43 R240: step 0 makes no call; a failed read changes no register; a failed write leaves the register
old or new; a pass writes `f` of the byte read, always, and nothing else. -/
def RmwShape (op : Bool → Instr) (addr : Nat) (f : Byte → Byte) : Prop :=
  ∀ s : State, s.flight = none →
    (∀ hv, hv = false ∨ s.sess = false → FailsAtOnce (op hv) s) ∧
    (s.sess = true →
      (∀ a w, BadAnswer a → s.wire = .answer a :: w →
        ∃ t, exec (op true) s = .next t ∧ t.resp.ok = false ∧ RegsKept s t ∧
          t.trace = .readSingle addr :: s.trace ∧ OnlyTransport s t w) ∧
      (∀ a b w, GoodAnswer a → BadAnswer b → s.wire = .answer a :: .answer b :: w →
        ∃ t, exec (op true) s = .next t ∧ t.resp.ok = false ∧
          (t.reg addr = s.reg addr ∨ t.reg addr = f (s.reg addr)) ∧ RegsKeptOutside s t addr 1 ∧
          t.trace = .writeSingle addr (f (s.reg addr)) :: .readSingle addr :: s.trace ∧ OnlyTransport s t w) ∧
      (∀ w, Answered s 2 w →
        ∃ t, exec (op true) s = .next t ∧ t.resp.ok = true ∧
          t.reg addr = f (s.reg addr) ∧ RegsKeptOutside s t addr 1 ∧
          t.trace = .writeSingle addr (f (s.reg addr)) :: .readSingle addr :: s.trace ∧ OnlyTransport s t w))

/-! ### Other agents between two calls (70 R314) -/

/-- Events of the wire by which the device, or another caller, puts bytes in registers, in order. -/
def registerMoves (ms : List (Fin 19 × Byte)) : List WireEvent := ms.map fun m => .move (.dev m.1 m.2)

/-- The last byte that `ms` puts in register `y`, none if they leave it alone. -/
def lastPut : List (Fin 19 × Byte) → Nat → Option Byte
  | [], _ => none
  | (a, b) :: ms, y => (lastPut ms y).orElse fun _ => if y = a.val then some b else none

/-- The window of `rmw(A, f)` (70 R314, 43 R240): whatever registers other agents change after the read and before the write, a
pass leaves `f` of the byte read in the register, and in every other register what was last put there. -/
def RmwOverwrites (i : Instr) (addr : Nat) (f : Byte → Byte) : Prop :=
  ∀ (s : State) (a c : Answer) (ms : List (Fin 19 × Byte)) (w : List WireEvent), Ready s → GoodAnswer a → GoodAnswer c →
    s.wire = .answer a :: (registerMoves ms ++ .answer c :: w) →
    ∃ t, exec i s = .next t ∧ t.resp.ok = true ∧ t.reg addr = f (s.reg addr) ∧
      (∀ y, y ≠ addr → t.reg y = (lastPut ms y).getD (s.reg y)) ∧
      t.trace = .writeSingle addr (f (s.reg addr)) :: .readSingle addr :: s.trace ∧ OnlyTransport s t w

/-- The two windows of ALARM_SET (70 R314, 42 R204, R205 (f)): other agents change any registers between the read and the write of
the control byte (`ms1`) and of the status byte (`ms2`). A pass leaves `c` of the control byte read, unless it is changed again
later, and `f` of the status byte read; the alarm block and every other register hold what was last put there. `early` is the
number of calls before the block write. -/
def AlarmSetOverwrites (i : Instr) (s : State) (early base : Nat) (bytes : List Byte) (c f : Byte → Byte) : Prop :=
  ∀ (before : List Answer) (x y z : Answer) (ms1 ms2 : List (Fin 19 × Byte)) (w : List WireEvent),
    before.length = early + 2 → (∀ a ∈ before ++ [x, y, z], GoodAnswer a) →
    s.wire = before.map .answer ++ (registerMoves ms1 ++ .answer x :: .answer y :: (registerMoves ms2 ++ .answer z :: w)) →
    ∃ t, exec i s = .next t ∧ t.resp.ok = true ∧
      t.reg 0x0E = (lastPut ms2 0x0E).getD (c (s.reg 0x0E)) ∧
      t.reg 0x0F = f ((lastPut ms1 0x0F).getD (s.reg 0x0F)) ∧
      (∀ k, ∀ h : k < bytes.length, t.reg (base + k) = (lastPut (ms1 ++ ms2) (base + k)).getD bytes[k]) ∧
      (∀ a, (a < base ∨ base + bytes.length ≤ a) → a ≠ 0x0E → a ≠ 0x0F →
        t.reg a = (lastPut (ms1 ++ ms2) a).getD (s.reg a)) ∧
      OnlyTransport s t w

/-- The `rd(A, n)` shape of 43 R241: step 0 makes no call; a failed read gives `ok = 0`; a pass gives the results `g` of the
registers, and no register changes. -/
def RdShape (op : Bool → Bool → Instr) (call : Call) (g : State → Response → Prop) : Prop :=
  ∀ s : State, s.flight = none →
    (∀ hv ov, hv = false ∨ s.sess = false ∨ ov = false → FailsAtOnce (op hv ov) s) ∧
    (s.sess = true →
      (∀ a w, BadAnswer a → s.wire = .answer a :: w →
        ∃ t, exec (op true true) s = .next t ∧ t.resp.ok = false ∧ RegsKept s t ∧
          t.trace = call :: s.trace ∧ OnlyTransport s t w) ∧
      (∀ w, Answered s 1 w →
        ∃ t, exec (op true true) s = .next t ∧ t.resp.ok = true ∧ g s t.resp ∧ RegsKept s t ∧
          t.trace = call :: s.trace ∧ OnlyTransport s t w))

/-! ### The transport calls of an operation (20 R70, 70 R324) -/

/-- A call without its data: whether it writes, its address, its byte count. -/
def callShape : Call → Bool × Nat × Nat
  | .readSingle a => (false, a, 1)
  | .readMulti a n => (false, a, n)
  | .writeSingle a _ => (true, a, 1)
  | .writeMulti a bs => (true, a, bs.length)

/-- The last four calls of ALARM_SET: control, then status. -/
def enablesAndFlag : List (Bool × Nat × Nat) := [(false, 0x0E, 1), (true, 0x0E, 1), (false, 0x0F, 1), (true, 0x0F, 1)]

/-- The table of 20 R70: the calls of each operation on a pass, in order. -/
def callTable : Instr → List (Bool × Nat × Nat)
  | .bcdDec _ _ | .bcdEnc _ | .timeDec _ | .timeEnc _ _ | .a1Dec _ _ | .a1Enc _ _ _ | .a2Dec _ _ | .a2Enc _ _ _ => []
  | .timeGet _ _ => [(false, 0x00, 7)]
  | .timeSet _ _ _ _ => [(false, 0x0F, 1), (true, 0x0F, 1), (true, 0x00, 7)]
  | .modeGet _ _ => [(false, 0x02, 1)]
  | .alarmGet _ _ s1v _ _ => if s1v then [(false, 0x07, 4)] else [(false, 0x0B, 3)]
  | .alarmSet _ _ s1v sel1 _ sel2 _ =>
    if s1v then
      (if sel1 ∈ [0x00#5, 0x08#5, 0x10#5] then [(false, 0x02, 1)] else []) ++ (true, 0x07, 4) :: enablesAndFlag
    else
      (if sel2 ∈ [0x0#4, 0x4#4, 0x8#4] then [(false, 0x02, 1)] else []) ++ (true, 0x0B, 3) :: enablesAndFlag
  | .oscEn _ | .oscDis _ | .sqwEn _ _ _ | .sqwDis _ | .a1ieEn _ | .a1ieDis _ | .a2ieEn _ | .a2ieDis _ =>
    [(false, 0x0E, 1), (true, 0x0E, 1)]
  | .en32kEn _ | .en32kDis _ | .a1fClr _ | .a2fClr _ | .osfClr _ => [(false, 0x0F, 1), (true, 0x0F, 1)]
  | .osfGet _ _ => [(false, 0x0F, 1)]
  | .tempGet _ _ => [(false, 0x11, 2)]

/-- The handle bit of a transport operation, none for the 8 pure operations (60 R283). -/
def handleBit : Instr → Option Bool
  | .bcdDec _ _ | .bcdEnc _ | .timeDec _ | .timeEnc _ _ | .a1Dec _ _ | .a1Enc _ _ _ | .a2Dec _ _ | .a2Enc _ _ _ => none
  | .timeGet hv _ | .timeSet hv _ _ _ | .modeGet hv _ | .alarmGet hv _ _ _ _ | .alarmSet hv _ _ _ _ _ _
  | .oscEn hv | .oscDis hv | .en32kEn hv | .en32kDis hv | .sqwEn hv _ _ | .sqwDis hv | .a1ieEn hv | .a1ieDis hv
  | .a2ieEn hv | .a2ieDis hv | .a1fClr hv | .a2fClr hv | .osfGet hv _ | .osfClr hv | .tempGet hv _ => some hv

/-! ### The modifying accessors (43 R242 to R255) -/

/-- The register a modifying accessor writes and the bits of it that it changes; none for every other operation. -/
def accessorBits : Instr → Option (Nat × List Nat)
  | .oscEn _ | .oscDis _ => some (0x0E, [7])
  | .sqwEn _ _ _ => some (0x0E, [6, 4, 3, 2])
  | .sqwDis _ => some (0x0E, [2])
  | .a1ieEn _ | .a1ieDis _ => some (0x0E, [0])
  | .a2ieEn _ | .a2ieDis _ => some (0x0E, [1])
  | .en32kEn _ | .en32kDis _ => some (0x0F, [3])
  | .a1fClr _ => some (0x0F, [0])
  | .a2fClr _ => some (0x0F, [1])
  | .osfClr _ => some (0x0F, [7])
  | .bcdDec _ _ | .bcdEnc _ | .timeDec _ | .timeEnc _ _ | .timeGet _ _ | .timeSet _ _ _ _ | .modeGet _ _ | .a1Dec _ _
  | .a1Enc _ _ _ | .a2Dec _ _ | .a2Enc _ _ _ | .alarmGet _ _ _ _ _ | .alarmSet _ _ _ _ _ _ _ | .osfGet _ _
  | .tempGet _ _ => none

/-- From `s`, operation `i` and then operation `j` pass, and lead to `u`. -/
def BothPass (i j : Instr) (s u : State) : Prop :=
  ∃ t, exec i s = .next t ∧ exec j t = .next u ∧ t.resp.ok = true ∧ u.resp.ok = true

/-- An enable and its disable undo each other on their own bit (43 R258), in either order: the second leaves its own value in the
bit (`val` is what the enable leaves), and nothing outside `bits`, those the two change, is different from before. -/
def UndoEachOther (en dis : Instr) (addr bit : Nat) (val : Bool) (bits : List Nat) (s : State) : Prop :=
  ∃ u v, BothPass en dis s u ∧ BothPass dis en s v ∧
    (u.reg addr).getLsbD bit = !val ∧ (v.reg addr).getLsbD bit = val ∧
    (∀ k, k < 8 → k ∉ bits →
      (u.reg addr).getLsbD k = (s.reg addr).getLsbD k ∧ (v.reg addr).getLsbD k = (s.reg addr).getLsbD k) ∧
    RegsKeptOutside s u addr 1 ∧ RegsKeptOutside s v addr 1

/-! ### Ranges in which the codecs lose nothing (41 R167, 42 R203) -/

/-- The decimals of a TimeValue that survive the time block: seconds and minutes to 79, hours to 39 (24-hour) or 19 (12-hour),
day of month to 39, month to 19, year to 99. It contains every calendar value (10 R51). -/
def TimeFits (tv : TimeValue) (use24 : Bool) : Prop :=
  tv.seconds.toNat ≤ 79 ∧ tv.minutes.toNat ≤ 79 ∧ tv.hours.toNat ≤ (if use24 then 39 else 19) ∧
  tv.dayOfMonth.toNat ≤ 39 ∧ tv.month.toNat ≤ 19 ∧ tv.year.toNat ≤ 99

/-- The decimals of a TimeValue that survive an alarm block (42 R203). -/
def AlarmFits (tv : TimeValue) (mode12 : Bool) : Prop :=
  tv.seconds.toNat ≤ 79 ∧ tv.minutes.toNat ≤ 79 ∧ tv.hours.toNat ≤ (if mode12 then 19 else 39) ∧
  tv.dayOfMonth.toNat ≤ 39 ∧ tv.dayOfWeek.toNat ≤ 39

/-- The decimals an alarm 1 variant uses survive its block; the fields it does not use are free (42 R199, R203). It contains every
TimeValue whose used fields are inside their calendar ranges (10 R51). -/
def Used1Fit (v : Alarm1Variant) (tv : TimeValue) (mode12 : Bool) : Prop :=
  (v.tag ∈ [0x00#5, 0x08#5, 0x0C#5, 0x0E#5, 0x10#5] → tv.seconds.toNat ≤ 79) ∧
  (v.tag ∈ [0x00#5, 0x08#5, 0x0C#5, 0x10#5] → tv.minutes.toNat ≤ 79) ∧
  (v.tag ∈ [0x00#5, 0x08#5, 0x10#5] → tv.hours.toNat ≤ if mode12 then 19 else 39) ∧
  (v.tag = 0x00#5 → tv.dayOfMonth.toNat ≤ 39) ∧ (v.tag = 0x10#5 → tv.dayOfWeek.toNat ≤ 39)

/-- The same for an alarm 2 variant. -/
def Used2Fit (v : Alarm2Variant) (tv : TimeValue) (mode12 : Bool) : Prop :=
  (v.tag ∈ [0x0#4, 0x4#4, 0x6#4, 0x8#4] → tv.minutes.toNat ≤ 79) ∧
  (v.tag ∈ [0x0#4, 0x4#4, 0x8#4] → tv.hours.toNat ≤ if mode12 then 19 else 39) ∧
  (v.tag = 0x0#4 → tv.dayOfMonth.toNat ≤ 39) ∧ (v.tag = 0x8#4 → tv.dayOfWeek.toNat ≤ 39)

/-- What a get of alarm 1 reports after `tv` was set under `v` (42 R203): the fields the variant implies are those set, in the
mode of the set, every other field is that of `tv0`. -/
def alarm1Reported (v : Alarm1Variant) (tv tv0 : TimeValue) (mode12 : Bool) : TimeValue :=
  { seconds := if v.tag ∈ [0x00#5, 0x08#5, 0x0C#5, 0x0E#5, 0x10#5] then tv.seconds else tv0.seconds
    minutes := if v.tag ∈ [0x00#5, 0x08#5, 0x0C#5, 0x10#5] then tv.minutes else tv0.minutes
    hours := if v.tag ∈ [0x00#5, 0x08#5, 0x10#5] then tv.hours else tv0.hours
    dayOfWeek := if v.tag = 0x10#5 then tv.dayOfWeek else tv0.dayOfWeek
    dayOfMonth := if v.tag = 0x00#5 then tv.dayOfMonth else tv0.dayOfMonth
    month := tv0.month
    year := tv0.year
    is12HourFormat := if v.tag ∈ [0x00#5, 0x08#5, 0x10#5] then mode12 else tv0.is12HourFormat
    pm := if v.tag ∈ [0x00#5, 0x08#5, 0x10#5] then (if mode12 then tv.pm else Config.pPm24h) else tv0.pm }

/-- The same for alarm 2. -/
def alarm2Reported (v : Alarm2Variant) (tv tv0 : TimeValue) (mode12 : Bool) : TimeValue :=
  { seconds := tv0.seconds
    minutes := if v.tag ∈ [0x0#4, 0x4#4, 0x6#4, 0x8#4] then tv.minutes else tv0.minutes
    hours := if v.tag ∈ [0x0#4, 0x4#4, 0x8#4] then tv.hours else tv0.hours
    dayOfWeek := if v.tag = 0x8#4 then tv.dayOfWeek else tv0.dayOfWeek
    dayOfMonth := if v.tag = 0x0#4 then tv.dayOfMonth else tv0.dayOfMonth
    month := tv0.month
    year := tv0.year
    is12HourFormat := if v.tag ∈ [0x0#4, 0x4#4, 0x8#4] then mode12 else tv0.is12HourFormat
    pm := if v.tag ∈ [0x0#4, 0x4#4, 0x8#4] then (if mode12 then tv.pm else Config.pPm24h) else tv0.pm }

/-! ### The invariant -/

/-- What every step keeps: the register file is canonical and names only registers that exist, and an operation in flight is a
transport operation with a present handle whose next call is one of its own (10 R54, 60 R283). -/
structure State.Inv (s : State) : Prop where
  devCanonical : s.dev.wf = true
  flightHandle : ∀ f, s.flight = some f → handleBit f.instr = some true
  flightIndex : ∀ f, s.flight = some f → f.idx < (callTable f.instr).length

end Sys2Proof.Machine
end

