-- ==== Sys2Proof/Certificates/Slice0/Obligations.lean ====
section
/-! DEFINITION. The statements for the provers. Each formalises what a rule of spec/ says an operation or the machine does, over
every state and every operand value. -/

open Sys2Proof Sys2Proof.Machine

/-! ### Encoding and decoding -/

/-- Decoding the encoding of any operation, well formed or not, gives it back with every operand (30 R112 to R118). -/
def Obligations.DecodeOfEncode : Prop :=
  ∀ i : Instr, decode (encode i) = .ok i

/-- Words written out from 30 R118 and from the programs of 95: every code of the table, and three commands with operands. -/
def Obligations.SpecCommandsDecode : Prop :=
  (∀ i ∈ [0x01, 0x02, 0x10, 0x11, 0x12, 0x13, 0x14, 0x20, 0x21, 0x22, 0x23, 0x24, 0x25, 0x30, 0x31, 0x32, 0x33, 0x34,
      0x35, 0x36, 0x37, 0x38, 0x39, 0x3A, 0x3B, 0x3C, 0x3D, 0x3E], ∃ x, decodeTableWord 8 i = some x) ∧
  decode { op := 0x01, arg8 := 0xD9, tw := 3 } = .ok (.bcdDec 0xD9 3) ∧
  decode { op := 0x13, hv := true, vv := true, tvIn := 0x018060F030E1E2D, use24 := true }
    = .ok (.timeSet true true ⟨45, 30, 14, 3, 15, 6, 24, false, false⟩ true) ∧
  decode { op := 0x10, blkIn := 0x24061503143045 } = .ok (.timeDec ⟨0x45, 0x30, 0x14, 0x03, 0x15, 0x06, 0x24⟩) ∧
  decode { op := 0x25, hv := true, vv := true, s2v := true, sel2 := 0x8, tvIn := 0x000000002071E00 }
    = .ok (.alarmSet true true false 0 true 0x8 ⟨0, 30, 7, 2, 0, 0, 0, false, false⟩)

/-- The TimeValue port (30 R112): each field at its bits. -/
def Obligations.TimeValuePortLayout : Prop :=
  ∀ tv : TimeValue,
    tv.toPort.extractLsb' 0 8 = tv.seconds ∧ tv.toPort.extractLsb' 8 8 = tv.minutes ∧
    tv.toPort.extractLsb' 16 8 = tv.hours ∧ tv.toPort.extractLsb' 24 8 = tv.dayOfWeek ∧
    tv.toPort.extractLsb' 32 8 = tv.dayOfMonth ∧ tv.toPort.extractLsb' 40 8 = tv.month ∧
    tv.toPort.extractLsb' 48 8 = tv.year ∧ tv.toPort.getLsbD 56 = tv.is12HourFormat ∧ tv.toPort.getLsbD 57 = tv.pm

/-- A command with a reserved code is refused: `ok = 0`, no transport call, nothing else changed, and every code of 30 R118 is
decoded (30 R119, the spec's decision D5). -/
def Obligations.ReservedCodesRefused : Prop :=
  ∀ (s : State) (c : Command) (rest : List Input), s.flight = none → s.inputs = .command c :: rest →
    (c.op.toNat ∉ [0x01, 0x02, 0x10, 0x11, 0x12, 0x13, 0x14, 0x20, 0x21, 0x22, 0x23, 0x24, 0x25, 0x30, 0x31, 0x32, 0x33,
        0x34, 0x35, 0x36, 0x37, 0x38, 0x39, 0x3A, 0x3B, 0x3C, 0x3D, 0x3E] →
      decode c = .error (.reservedOp c.op) ∧
      ∃ t, step s = .next t ∧ t.resp.ok = false ∧ OnlyResponse { s with inputs := rest } t) ∧
    (c.op.toNat ∈ [0x01, 0x02, 0x10, 0x11, 0x12, 0x13, 0x14, 0x20, 0x21, 0x22, 0x23, 0x24, 0x25, 0x30, 0x31, 0x32, 0x33,
        0x34, 0x35, 0x36, 0x37, 0x38, 0x39, 0x3A, 0x3B, 0x3C, 0x3D, 0x3E] →
      ∃ i, decode c = .ok i)

/-- A reserved operand value is refused in every state: `ok = 0`, no transport call, nothing else changed (30 R120, the spec's
decisions D5, D10, D15). -/
def Obligations.ReservedOperandsRefused : Prop :=
  ∀ (i : Instr) (s : State), s.flight = none → i.wf = false → FailsAtOnce i s

/-! ### The machine's step -/

/-- With no operation in flight a pending command is taken and run: the step is `exec` of the decoded operation, on the state
without that command; an operation in flight is carried on before any input is taken; and with neither the block waits. -/
def Obligations.StepRunsDecodedCommand : Prop :=
  (∀ (s : State) (c : Command) (rest : List Input) (i : Instr), s.flight = none → s.inputs = .command c :: rest →
    decode c = .ok i → step s = exec i { s with inputs := rest }) ∧
  (∀ (s : State) (f : Flight), s.flight = some f → step s = exec f.instr s) ∧
  (∀ s : State, s.flight = none → s.inputs = [] → step s = .next s)

/-- Every step has a next state: no command, input, operand, wire or state stops the machine (60 R280, R298). -/
def Obligations.StepAlwaysAnswersNext : Prop :=
  ∀ s : State, ∃ t, step s = .next t

/-- A different operation while one is in flight is refused by name, and only then does a meaning refuse (93 U18; the name is the
model's, log entry 14). -/
def Obligations.SecondCommandRefused : Prop :=
  ∀ (i : Instr) (s : State),
    (∀ f, s.flight = some f → f.instr ≠ i → exec i s = .refused .commandInFlight) ∧
    ((∃ t, exec i s = .next t) ∨ ∃ f, s.flight = some f ∧ f.instr ≠ i)

/-- An operation paused between two of its transport calls and carried on by the next step ends in the state in which it would
have ended without the pause: the state of 10 R54 is all that an operation in flight needs. -/
def Obligations.PausedOperationResumes : Prop :=
  ∀ (i : Instr) (s t u : State) (w1 w2 : List WireEvent), s.flight = none → .pause ∉ w1 →
    s.wire = w1 ++ .pause :: w2 → exec i s = .next t → t.flight ≠ none →
    exec i { s with wire := w1 ++ w2 } = .next u → step t = .next u

/-! ### Session, reset -/

/-- `init` (20 R62) as a pending input: it fails when already initialised and when the transport fails, else the session is
initialised; nothing but the session and the answer changes. -/
def Obligations.InitRule : Prop :=
  ∀ (s : State) (willing : Bool) (rest : List Input), s.flight = none → s.inputs = .init willing :: rest →
    ∃ t, step s = .next t ∧ t = { s with inputs := rest, sess := t.sess, sessAnswer := t.sessAnswer } ∧
      (s.sess = true → t.sess = true ∧ t.sessAnswer = false) ∧
      (s.sess = false → t.sess = willing ∧ t.sessAnswer = willing)

/-- `deinit` (20 R63) as a pending input: it fails when not initialised and when the transport fails, else the session is left;
nothing but the session and the answer changes. -/
def Obligations.DeinitRule : Prop :=
  ∀ (s : State) (willing : Bool) (rest : List Input), s.flight = none → s.inputs = .deinit willing :: rest →
    ∃ t, step s = .next t ∧ t = { s with inputs := rest, sess := t.sess, sessAnswer := t.sessAnswer } ∧
      (s.sess = false → t.sess = false ∧ t.sessAnswer = false) ∧
      (s.sess = true → t.sess = !willing ∧ t.sessAnswer = willing)

/-- After reset (10 R56, 70 R310): session 0, no operation in flight, whatever the device holds; and a reset of the block
between two operations changes the session to 0 and leaves the device, both for every contents of the device. -/
def Obligations.ResetLeavesDevice : Prop :=
  (∀ d : Memory, (State.resetWith d).sess = false ∧ (State.resetWith d).flight = none ∧ (State.resetWith d).dev = d) ∧
  (∀ (s : State) (rest : List Input), s.flight = none → s.inputs = .reset :: rest →
    ∃ t, step s = .next t ∧ t = { s with inputs := rest, sess := false, resp := t.resp, free := t.free })

/-! ### The transport primitives -/

/-- The read primitives (20 R64, R65, R69, R84): they succeed exactly when the session is initialised, the range rule holds and
the transport answers ok, and then byte `i` is `DEV[start + i]`; the device is not changed. -/
def Obligations.ReadPrimitiveContract : Prop :=
  ∀ (s : State) (a : Answer) (start count : Nat), a.during = [] →
    (s.sess = true ∧ start + count ≤ 0x13 ∧ a.ok = true →
      (s.memRead a start count).2 = some ((List.range count).map fun i => s.reg (start + i))) ∧
    (¬ (s.sess = true ∧ start + count ≤ 0x13 ∧ a.ok = true) → (s.memRead a start count).2 = none) ∧
    (∀ x, (s.memRead a start count).1.reg x = s.reg x)

/-- The write primitives (20 R66, R67, R69, R75, R84): they succeed exactly when the session is initialised, the range rule holds
and the transport answers ok, and then `DEV[start + i]` is byte `i`; a failed write leaves each register it addressed with its
old byte or the byte being written; no other register changes. -/
def Obligations.WritePrimitiveContract : Prop :=
  ∀ (s : State) (a : Answer) (start : Nat) (bytes : List Byte), a.during = [] →
    ((s.memWrite a start bytes).2 = true ↔ s.sess = true ∧ start + bytes.length ≤ 0x13 ∧ a.ok = true) ∧
    ((s.memWrite a start bytes).2 = true →
      ∀ i (h : i < bytes.length), (s.memWrite a start bytes).1.reg (start + i) = bytes[i]) ∧
    (∀ i (h : i < bytes.length), (s.memWrite a start bytes).1.reg (start + i) = s.reg (start + i) ∨
      (s.memWrite a start bytes).1.reg (start + i) = bytes[i]) ∧
    RegsKeptOutside s (s.memWrite a start bytes).1 start bytes.length

/-! ### The BCD codec -/

/-- BCD_DEC (40 R141): the operation, its result and its one failure. -/
def Obligations.BcdDecRule : Prop :=
  (∀ c : Command, c.op = 0x01 → decode c = .ok (.bcdDec c.arg8 c.tw)) ∧
  ∀ (s : State) (b : Byte) (tw : BitVec 3), s.flight = none →
    (¬ (1 ≤ tw.toNat ∧ tw.toNat ≤ 4) → FailsAtOnce (.bcdDec b tw) s) ∧
    (1 ≤ tw.toNat ∧ tw.toNat ≤ 4 →
      ∃ t, exec (.bcdDec b tw) s = .next t ∧ t.resp.ok = true ∧ OnlyResponse s t ∧
        (b.toNat < 10 → t.resp.res8 = b) ∧
        (10 ≤ b.toNat → ∀ v, v = b.toNat / 16 % 2 ^ tw.toNat * 10 + b.toNat % 16 →
          t.resp.res8.toNat = if v > 99 then 0 else v))

/-- BCD_ENC (40 R143): decimals above 99 give 0, the others tens in the high nibble and ones in the low one; it never fails. -/
def Obligations.BcdEncRule : Prop :=
  (∀ c : Command, c.op = 0x02 → decode c = .ok (.bcdEnc c.arg8)) ∧
  ∀ (s : State) (d : Byte), s.flight = none →
    ∃ t, exec (.bcdEnc d) s = .next t ∧ t.resp.ok = true ∧ OnlyResponse s t ∧
      (d.toNat > 99 → t.resp.res8 = 0) ∧
      (d.toNat ≤ 99 → t.resp.res8.toNat = 16 * (d.toNat / 10) + d.toNat % 10)

/-- The laws of the BCD pair (40 R146, R142): the round trip at every width up to its bound, the fallbacks, and that bits above
the tens width never matter. -/
def Obligations.BcdPairLaws : Prop :=
  (∀ d : Byte, d.toNat ≤ 99 → bcdDec (bcdEnc d) 4 = d) ∧
  (∀ d : Byte, d.toNat ≤ 79 → bcdDec (bcdEnc d) 3 = d) ∧
  (∀ d : Byte, d.toNat ≤ 39 → bcdDec (bcdEnc d) 2 = d) ∧
  (∀ d : Byte, d.toNat ≤ 19 → bcdDec (bcdEnc d) 1 = d) ∧
  (∀ d : Byte, 99 < d.toNat → bcdEnc d = 0) ∧
  (∀ b : Byte, 99 < b.toNat / 16 * 10 + b.toNat % 16 → bcdDec b 4 = 0) ∧
  (∀ b : Byte, bcdDec b 1 = bcdDec (b &&& 0x1F) 1 ∧ bcdDec b 2 = bcdDec (b &&& 0x3F) 2 ∧
    bcdDec b 3 = bcdDec (b &&& 0x7F) 3)

/-! ### The time register codec -/

/-- TIME_DEC (41 R161): it never fails and gives the nine fields; `P_PM_24H` is named, so the statement holds whatever it is. -/
def Obligations.TimeDecRule : Prop :=
  (∀ c : Command, c.op = 0x10 → decode c = .ok (.timeDec (.ofPort c.blkIn))) ∧
  ∀ (s : State) (B : TimeRegs), s.flight = none →
    ∃ t, exec (.timeDec B) s = .next t ∧ t.resp.ok = true ∧ OnlyResponse s t ∧
      t.resp.tvOut = TimeValue.toPort
        { seconds := bcdDec B.seconds 3
          minutes := bcdDec B.minutes 3
          hours := if B.hours.getLsbD 6 then bcdDec B.hours 1 else bcdDec B.hours 2
          dayOfWeek := B.dayOfWeek
          dayOfMonth := bcdDec B.dayOfMonth 2
          month := bcdDec B.month 1
          year := bcdDec B.year 4
          is12HourFormat := B.hours.getLsbD 6
          pm := if B.hours.getLsbD 6 then B.hours.getLsbD 5 else Config.pPm24h }

/-- TIME_ENC (41 R165): it never fails and gives the seven bytes; `is_12_hour_format` is not read. -/
def Obligations.TimeEncRule : Prop :=
  (∀ c : Command, c.op = 0x11 → decode c = .ok (.timeEnc (.ofPort c.tvIn) c.use24)) ∧
  ∀ (s : State) (tv : TimeValue) (use24 : Bool), s.flight = none →
    ∃ t, exec (.timeEnc tv use24) s = .next t ∧ t.resp.ok = true ∧ OnlyResponse s t ∧
      BlkOutIs t.resp
        [bcdEnc tv.seconds, bcdEnc tv.minutes,
         if use24 then bcdEnc tv.hours else bcdEnc tv.hours ||| 0x40 ||| (if tv.pm then 0x20 else 0x00),
         tv.dayOfWeek, bcdEnc tv.dayOfMonth, bcdEnc tv.month, bcdEnc tv.year]

/-- The time round trip in both modes (41 R167): every field within its encodable range comes back, the day of week raw, the
mode as asked for and `pm` in 12-hour mode. -/
def Obligations.TimeRoundTrip : Prop :=
  ∀ (tv : TimeValue) (use24 : Bool), TimeFits tv use24 →
    timeDec (timeEnc tv use24) =
      { tv with is12HourFormat := !use24, pm := if use24 then Config.pPm24h else tv.pm }

/-- TIME_GET (41 R168): the seven registers decoded as `time_dec` says. -/
def Obligations.TimeGetRule : Prop :=
  (∀ c : Command, c.op = 0x12 → decode c = .ok (.timeGet c.hv c.ov)) ∧
  RdShape .timeGet (.readMulti 0x00 7) (fun s r => r.tvOut = (timeDec s.timeRegs).toPort)

/-- MODE_GET (41 R171): bit 6 of the hours register. -/
def Obligations.ModeGetRule : Prop :=
  (∀ c : Command, c.op = 0x14 → decode c = .ok (.modeGet c.hv c.ov)) ∧
  RdShape .modeGet (.readSingle 0x02) (fun s r => r.flagOut = (s.reg 0x02).getLsbD 6)

/-- TIME_SET (41 R169) on a pass and at step 0: status bit 7 is cleared by a read and a write of the status byte, then the seven
time bytes are written, in that order, and no other register changes. -/
def Obligations.TimeSetRule : Prop :=
  (∀ c : Command, c.op = 0x13 → decode c = .ok (.timeSet c.hv c.vv (.ofPort c.tvIn) c.use24)) ∧
  ∀ (s : State) (tv : TimeValue) (use24 : Bool), s.flight = none →
    (∀ hv vv, hv = false ∨ s.sess = false ∨ vv = false → FailsAtOnce (.timeSet hv vv tv use24) s) ∧
    (s.sess = true → ∀ w, Answered s 3 w →
      ∃ t, exec (.timeSet true true tv use24) s = .next t ∧ t.resp.ok = true ∧
        t.reg 0x0F = s.reg 0x0F &&& 0x7F ∧ t.timeRegs = timeEnc tv use24 ∧
        (∀ a, 7 ≤ a → a ≠ 0x0F → t.reg a = s.reg a) ∧
        t.trace = .writeMulti 0x00 (timeEnc tv use24).toBytes :: .writeSingle 0x0F (s.reg 0x0F &&& 0x7F)
          :: .readSingle 0x0F :: s.trace ∧
        OnlyTransport s t w)

/-- What a failed TIME_SET leaves (41 R170, 70 R315): at the read nothing changed; at the status write that byte is old or
cleared of OSF and the time is untouched; at the block write OSF is cleared and each time register is old or new. -/
def Obligations.TimeSetFailureLeftovers : Prop :=
  ∀ (s : State) (tv : TimeValue) (use24 : Bool), Ready s →
    (∀ a w, BadAnswer a → s.wire = .answer a :: w →
      ∃ t, exec (.timeSet true true tv use24) s = .next t ∧ t.resp.ok = false ∧ RegsKept s t ∧ OnlyTransport s t w) ∧
    (∀ a b w, GoodAnswer a → BadAnswer b → s.wire = .answer a :: .answer b :: w →
      ∃ t, exec (.timeSet true true tv use24) s = .next t ∧ t.resp.ok = false ∧
        (t.reg 0x0F = s.reg 0x0F ∨ t.reg 0x0F = s.reg 0x0F &&& 0x7F) ∧ RegsKeptOutside s t 0x0F 1 ∧
        OnlyTransport s t w) ∧
    (∀ a b c w, GoodAnswer a → GoodAnswer b → BadAnswer c → s.wire = .answer a :: .answer b :: .answer c :: w →
      ∃ t, exec (.timeSet true true tv use24) s = .next t ∧ t.resp.ok = false ∧
        t.reg 0x0F = s.reg 0x0F &&& 0x7F ∧
        (∀ k, ∀ h : k < (timeEnc tv use24).toBytes.length,
          t.reg k = s.reg k ∨ t.reg k = (timeEnc tv use24).toBytes[k]) ∧
        (∀ x, 7 ≤ x → x ≠ 0x0F → t.reg x = s.reg x) ∧ OnlyTransport s t w)

/-- Set the time, then get it, then read OSF (41 R172), on plain memory with every call answered ok: the fields come back, in the
mode set, and OSF reads 0. -/
def Obligations.TimeSetThenGet : Prop :=
  ∀ (s : State) (tv : TimeValue) (use24 : Bool) (w : List WireEvent), Ready s → TimeFits tv use24 → Answered s 5 w →
    ∃ t u v, exec (.timeSet true true tv use24) s = .next t ∧ exec (.timeGet true true) t = .next u ∧
      exec (.osfGet true true) u = .next v ∧ t.resp.ok = true ∧ u.resp.ok = true ∧ v.resp.ok = true ∧
      u.resp.tvOut = TimeValue.toPort
        { tv with is12HourFormat := !use24, pm := if use24 then Config.pPm24h else tv.pm } ∧
      v.resp.flagOut = false

/-! ### The alarm register codec -/

/-- A1_ENC (42 R196): the bytes of each of the six tags, and the refusal of every other. -/
def Obligations.Alarm1EncRule : Prop :=
  (∀ c : Command, c.op = 0x21 → decode c = .ok (.a1Enc c.sel1 (.ofPort c.tvIn) c.mode12)) ∧
  ∀ (s : State) (tv : TimeValue) (mode12 : Bool) (S M H : Byte), s.flight = none →
    S = bcdEnc tv.seconds → M = bcdEnc tv.minutes →
    H = (if mode12 then bcdEnc tv.hours ||| 0x40 ||| (if tv.pm then 0x20 else 0x00) else bcdEnc tv.hours) →
    (∀ p ∈ [((0x0F : BitVec 5), [(0x80 : Byte), 0x80, 0x80, 0x80]), (0x0E, [S, 0x80, 0x80, 0x80]),
        (0x0C, [S, M, 0x80, 0x80]), (0x08, [S, M, H, 0x80]), (0x00, [S, M, H, bcdEnc tv.dayOfMonth]),
        (0x10, [S, M, H, bcdEnc tv.dayOfWeek ||| 0x40])],
      ∃ t, exec (.a1Enc p.1 tv mode12) s = .next t ∧ t.resp.ok = true ∧ OnlyResponse s t ∧ BlkOutIs t.resp p.2) ∧
    (∀ sel1 : BitVec 5, sel1.toNat ∉ [0x00, 0x08, 0x0C, 0x0E, 0x0F, 0x10] → FailsAtOnce (.a1Enc sel1 tv mode12) s)

/-- A2_ENC (42 R197): the bytes of each of the five tags, and the refusal of every other. -/
def Obligations.Alarm2EncRule : Prop :=
  (∀ c : Command, c.op = 0x23 → decode c = .ok (.a2Enc c.sel2 (.ofPort c.tvIn) c.mode12)) ∧
  ∀ (s : State) (tv : TimeValue) (mode12 : Bool) (M H : Byte), s.flight = none → M = bcdEnc tv.minutes →
    H = (if mode12 then bcdEnc tv.hours ||| 0x40 ||| (if tv.pm then 0x20 else 0x00) else bcdEnc tv.hours) →
    (∀ p ∈ [((0x7 : BitVec 4), [(0x80 : Byte), 0x80, 0x80]), (0x6, [M, 0x80, 0x80]), (0x4, [M, H, 0x80]),
        (0x0, [M, H, bcdEnc tv.dayOfMonth]), (0x8, [M, H, bcdEnc tv.dayOfWeek ||| 0x40])],
      ∃ t, exec (.a2Enc p.1 tv mode12) s = .next t ∧ t.resp.ok = true ∧ OnlyResponse s t ∧ BlkOutIs t.resp p.2) ∧
    (∀ sel2 : BitVec 4, sel2.toNat ∉ [0x0, 0x4, 0x6, 0x7, 0x8] → FailsAtOnce (.a2Enc sel2 tv mode12) s)

/-- A1_DEC (42 R200): the fingerprint of the block decides; the implied fields are decoded, the others are those of `tv_in`. -/
def Obligations.Alarm1DecRule : Prop :=
  (∀ c : Command, c.op = 0x20 → decode c = .ok (.a1Dec (.ofPort c.blkIn) (.ofPort c.tvIn))) ∧
  ∀ (s : State) (B : Alarm1Regs) (tv : TimeValue) (fp : Nat), s.flight = none →
    fp = (B.seconds.getLsbD 7).toNat + 2 * (B.minutes.getLsbD 7).toNat + 4 * (B.hours.getLsbD 7).toNat
      + 8 * (B.day.getLsbD 7).toNat + 16 * (B.day.getLsbD 6).toNat →
    (fp ∉ [0x00, 0x08, 0x0C, 0x0E, 0x0F, 0x10] → FailsAtOnce (.a1Dec B tv) s) ∧
    (fp ∈ [0x00, 0x08, 0x0C, 0x0E, 0x0F, 0x10] →
      ∃ t, exec (.a1Dec B tv) s = .next t ∧ t.resp.ok = true ∧ OnlyResponse s t ∧ t.resp.var1.toNat = fp ∧
        t.resp.tvOut = TimeValue.toPort
          { seconds := if fp ∈ [0x00, 0x08, 0x0C, 0x0E, 0x10] then bcdDec B.seconds 3 else tv.seconds
            minutes := if fp ∈ [0x00, 0x08, 0x0C, 0x10] then bcdDec B.minutes 3 else tv.minutes
            hours := if fp ∈ [0x00, 0x08, 0x10] then
              (if B.hours.getLsbD 6 then bcdDec B.hours 1 else bcdDec B.hours 2) else tv.hours
            dayOfWeek := if fp = 0x10 then bcdDec B.day 2 else tv.dayOfWeek
            dayOfMonth := if fp = 0x00 then bcdDec B.day 2 else tv.dayOfMonth
            month := tv.month
            year := tv.year
            is12HourFormat := if fp ∈ [0x00, 0x08, 0x10] then B.hours.getLsbD 6 else tv.is12HourFormat
            pm := if fp ∈ [0x00, 0x08, 0x10] then
              (if B.hours.getLsbD 6 then B.hours.getLsbD 5 else Config.pPm24h) else tv.pm })

/-- A2_DEC (42 R201): the fingerprint of the block decides; the implied fields are decoded, the others are those of `tv_in`. -/
def Obligations.Alarm2DecRule : Prop :=
  (∀ c : Command, c.op = 0x22 → decode c = .ok (.a2Dec (.ofPort c.blkIn) (.ofPort c.tvIn))) ∧
  ∀ (s : State) (B : Alarm2Regs) (tv : TimeValue) (fp : Nat), s.flight = none →
    fp = (B.minutes.getLsbD 7).toNat + 2 * (B.hours.getLsbD 7).toNat + 4 * (B.day.getLsbD 7).toNat
      + 8 * (B.day.getLsbD 6).toNat →
    (fp ∉ [0x0, 0x4, 0x6, 0x7, 0x8] → FailsAtOnce (.a2Dec B tv) s) ∧
    (fp ∈ [0x0, 0x4, 0x6, 0x7, 0x8] →
      ∃ t, exec (.a2Dec B tv) s = .next t ∧ t.resp.ok = true ∧ OnlyResponse s t ∧ t.resp.var2.toNat = fp ∧
        t.resp.tvOut = TimeValue.toPort
          { seconds := tv.seconds
            minutes := if fp ∈ [0x0, 0x4, 0x6, 0x8] then bcdDec B.minutes 3 else tv.minutes
            hours := if fp ∈ [0x0, 0x4, 0x8] then
              (if B.hours.getLsbD 6 then bcdDec B.hours 1 else bcdDec B.hours 2) else tv.hours
            dayOfWeek := if fp = 0x8 then bcdDec B.day 2 else tv.dayOfWeek
            dayOfMonth := if fp = 0x0 then bcdDec B.day 2 else tv.dayOfMonth
            month := tv.month
            year := tv.year
            is12HourFormat := if fp ∈ [0x0, 0x4, 0x8] then B.hours.getLsbD 6 else tv.is12HourFormat
            pm := if fp ∈ [0x0, 0x4, 0x8] then
              (if B.hours.getLsbD 6 then B.hours.getLsbD 5 else Config.pPm24h) else tv.pm })

/-- The tag of every variant is the fingerprint of the block its encode writes, whatever the fields it does not use hold
(42 R199). -/
def Obligations.TagIsFingerprint : Prop :=
  (∀ (v : Alarm1Variant) (tv : TimeValue) (m : Bool), Used1Fit v tv m → fp1 (a1Enc v tv m) = v.tag) ∧
  (∀ (v : Alarm2Variant) (tv : TimeValue) (m : Bool), Used2Fit v tv m → fp2 (a2Enc v tv m) = v.tag)

/-- The alarm round trip for every variant of both alarms (42 R203): the variant comes back, the fields it implies are those
encoded, every other field is that of `tv0`. -/
def Obligations.AlarmRoundTrip : Prop :=
  (∀ (v : Alarm1Variant) (tv tv0 : TimeValue) (m : Bool), AlarmFits tv m →
    a1Dec (a1Enc v tv m) tv0 = .ok (v,
      { seconds := if v.tag ∈ [0x00#5, 0x08#5, 0x0C#5, 0x0E#5, 0x10#5] then tv.seconds else tv0.seconds
        minutes := if v.tag ∈ [0x00#5, 0x08#5, 0x0C#5, 0x10#5] then tv.minutes else tv0.minutes
        hours := if v.tag ∈ [0x00#5, 0x08#5, 0x10#5] then tv.hours else tv0.hours
        dayOfWeek := if v.tag = 0x10#5 then tv.dayOfWeek else tv0.dayOfWeek
        dayOfMonth := if v.tag = 0x00#5 then tv.dayOfMonth else tv0.dayOfMonth
        month := tv0.month
        year := tv0.year
        is12HourFormat := if v.tag ∈ [0x00#5, 0x08#5, 0x10#5] then m else tv0.is12HourFormat
        pm := if v.tag ∈ [0x00#5, 0x08#5, 0x10#5] then (if m then tv.pm else Config.pPm24h) else tv0.pm })) ∧
  (∀ (v : Alarm2Variant) (tv tv0 : TimeValue) (m : Bool), AlarmFits tv m →
    a2Dec (a2Enc v tv m) tv0 = .ok (v,
      { seconds := tv0.seconds
        minutes := if v.tag ∈ [0x0#4, 0x4#4, 0x6#4, 0x8#4] then tv.minutes else tv0.minutes
        hours := if v.tag ∈ [0x0#4, 0x4#4, 0x8#4] then tv.hours else tv0.hours
        dayOfWeek := if v.tag = 0x8#4 then tv.dayOfWeek else tv0.dayOfWeek
        dayOfMonth := if v.tag = 0x0#4 then tv.dayOfMonth else tv0.dayOfMonth
        month := tv0.month
        year := tv0.year
        is12HourFormat := if v.tag ∈ [0x0#4, 0x4#4, 0x8#4] then m else tv0.is12HourFormat
        pm := if v.tag ∈ [0x0#4, 0x4#4, 0x8#4] then (if m then tv.pm else Config.pPm24h) else tv0.pm }))

/-- Step 0 of ALARM_SET (42 R204): no handle, no session, both selectors or neither, a tag that is no variant, or no value for a
variant that needs one: `ok = 0` at once, never a partial write. -/
def Obligations.AlarmSetPreconditions : Prop :=
  (∀ c : Command, c.op = 0x25 →
    decode c = .ok (.alarmSet c.hv c.vv c.s1v c.sel1 c.s2v c.sel2 (.ofPort c.tvIn))) ∧
  ∀ (s : State) (hv vv s1v s2v : Bool) (sel1 : BitVec 5) (sel2 : BitVec 4) (tv : TimeValue), s.flight = none →
    (hv = false ∨ s.sess = false ∨ s1v = s2v ∨
      (s1v = true ∧ sel1.toNat ∉ [0x00, 0x08, 0x0C, 0x0E, 0x0F, 0x10]) ∨
      (s2v = true ∧ sel2.toNat ∉ [0x0, 0x4, 0x6, 0x7, 0x8]) ∨
      (vv = false ∧ s1v = true ∧ sel1.toNat ≠ 0x0F) ∨
      (vv = false ∧ s2v = true ∧ sel2.toNat ≠ 0x7)) →
    FailsAtOnce (.alarmSet hv vv s1v sel1 s2v sel2 tv) s

/-- ALARM_SET for alarm 1 on a pass (42 R204): six calls for a variant with hours, five without; the block is the variant's, in
the mode of the hours register; A1IE and INTCN set, A2IE cleared; A1F cleared; no other register changes. -/
def Obligations.AlarmSet1Rule : Prop :=
  ∀ (s : State) (vv : Bool) (v : Alarm1Variant) (sel2 : BitVec 4) (tv : TimeValue) (B : Alarm1Regs)
    (hours : List Call) (w : List WireEvent), Ready s → (vv = true ∨ v = .oncePerSecond) →
    B = a1Enc v tv ((s.reg 0x02).getLsbD 6) →
    hours = (if v.tag ∈ [0x00#5, 0x08#5, 0x10#5] then [.readSingle 0x02] else []) →
    Answered s (hours.length + 5) w →
    ∃ t, exec (.alarmSet true vv true v.tag false sel2 tv) s = .next t ∧ t.resp.ok = true ∧
      t.alarm1Regs = B ∧ t.reg 0x0E = (s.reg 0x0E &&& 0xFD) ||| 0x05 ∧ t.reg 0x0F = s.reg 0x0F &&& 0xFE ∧
      (∀ a, (a < 0x07 ∨ 0x0A < a) → a ≠ 0x0E → a ≠ 0x0F → t.reg a = s.reg a) ∧
      t.trace = .writeSingle 0x0F (s.reg 0x0F &&& 0xFE) :: .readSingle 0x0F
        :: .writeSingle 0x0E ((s.reg 0x0E &&& 0xFD) ||| 0x05) :: .readSingle 0x0E
        :: .writeMulti 0x07 B.toBytes :: (hours ++ s.trace) ∧
      OnlyTransport s t w

/-- ALARM_SET for alarm 2 on a pass (42 R204), the symmetric rule. -/
def Obligations.AlarmSet2Rule : Prop :=
  ∀ (s : State) (vv : Bool) (v : Alarm2Variant) (sel1 : BitVec 5) (tv : TimeValue) (B : Alarm2Regs)
    (hours : List Call) (w : List WireEvent), Ready s → (vv = true ∨ v = .oncePerMinute) →
    B = a2Enc v tv ((s.reg 0x02).getLsbD 6) →
    hours = (if v.tag ∈ [0x0#4, 0x4#4, 0x8#4] then [.readSingle 0x02] else []) →
    Answered s (hours.length + 5) w →
    ∃ t, exec (.alarmSet true vv false sel1 true v.tag tv) s = .next t ∧ t.resp.ok = true ∧
      t.alarm2Regs = B ∧ t.reg 0x0E = (s.reg 0x0E &&& 0xFE) ||| 0x06 ∧ t.reg 0x0F = s.reg 0x0F &&& 0xFD ∧
      (∀ a, (a < 0x0B ∨ 0x0D < a) → a ≠ 0x0E → a ≠ 0x0F → t.reg a = s.reg a) ∧
      t.trace = .writeSingle 0x0F (s.reg 0x0F &&& 0xFD) :: .readSingle 0x0F
        :: .writeSingle 0x0E ((s.reg 0x0E &&& 0xFE) ||| 0x06) :: .readSingle 0x0E
        :: .writeMulti 0x0B B.toBytes :: (hours ++ s.trace) ∧
      OnlyTransport s t w

/-- ALARM_SET that fails at any of its calls (42 R205 (d), 60 R285): each register it may write is old or new, no other changes,
nothing is undone and nothing comes after the failing call: the control byte moves only once the block is whole, the status
byte only once the control byte is new. -/
def Obligations.AlarmSetFailureLeftovers : Prop :=
  ∀ (s t : State) (vv s1v : Bool) (sel1 : BitVec 5) (sel2 : BitVec 4) (tv : TimeValue) (base : Nat) (bytes : List Byte)
    (c f : Byte), s.flight = none → StillWire s →
    (s1v = true → base = 0x07 ∧ c = (s.reg 0x0E &&& 0xFD) ||| 0x05 ∧ f = s.reg 0x0F &&& 0xFE ∧
      ∃ v, Alarm1Variant.ofTag sel1 = some v ∧ bytes = (a1Enc v tv ((s.reg 0x02).getLsbD 6)).toBytes) →
    (s1v = false → base = 0x0B ∧ c = (s.reg 0x0E &&& 0xFE) ||| 0x06 ∧ f = s.reg 0x0F &&& 0xFD ∧
      ∃ v, Alarm2Variant.ofTag sel2 = some v ∧ bytes = (a2Enc v tv ((s.reg 0x02).getLsbD 6)).toBytes) →
    exec (.alarmSet true vv s1v sel1 (!s1v) sel2 tv) s = .next t → t.resp.ok = false →
    (∀ k, ∀ h : k < bytes.length, t.reg (base + k) = s.reg (base + k) ∨ t.reg (base + k) = bytes[k]) ∧
    (t.reg 0x0E = s.reg 0x0E ∨ t.reg 0x0E = c) ∧ (t.reg 0x0F = s.reg 0x0F ∨ t.reg 0x0F = f) ∧
    (t.reg 0x0E ≠ s.reg 0x0E → ∀ k, ∀ h : k < bytes.length, t.reg (base + k) = bytes[k]) ∧
    (t.reg 0x0F ≠ s.reg 0x0F → t.reg 0x0E = c ∧ ∀ k, ∀ h : k < bytes.length, t.reg (base + k) = bytes[k]) ∧
    (∀ a, (a < base ∨ base + bytes.length ≤ a) → a ≠ 0x0E → a ≠ 0x0F → t.reg a = s.reg a) ∧ t.sess = s.sess

/-- ALARM_GET (42 R206): step 0, the failed read, an unrecognised fingerprint, and for each alarm the recovered variant and
TimeValue; no register changes. -/
def Obligations.AlarmGetRule : Prop :=
  (∀ c : Command, c.op = 0x24 → decode c = .ok (.alarmGet c.hv c.ov c.s1v c.s2v (.ofPort c.tvIn))) ∧
  ∀ (s : State) (tv : TimeValue), s.flight = none →
    (∀ hv ov s1v s2v, hv = false ∨ s.sess = false ∨ ov = false ∨ s1v = s2v →
      FailsAtOnce (.alarmGet hv ov s1v s2v tv) s) ∧
    (s.sess = true →
      (∀ s1v a w, BadAnswer a → s.wire = .answer a :: w →
        ∃ t, exec (.alarmGet true true s1v (!s1v) tv) s = .next t ∧ t.resp.ok = false ∧ RegsKept s t ∧
          OnlyTransport s t w) ∧
      (∀ w, Answered s 1 w →
        (∃ t, exec (.alarmGet true true true false tv) s = .next t ∧ RegsKept s t ∧ OnlyTransport s t w ∧
          t.trace = .readMulti 0x07 4 :: s.trace ∧
          (a1Dec s.alarm1Regs tv = .error .fingerprint → t.resp.ok = false) ∧
          (∀ v tv', a1Dec s.alarm1Regs tv = .ok (v, tv') →
            t.resp.ok = true ∧ t.resp.var1 = v.tag ∧ t.resp.tvOut = tv'.toPort)) ∧
        (∃ t, exec (.alarmGet true true false true tv) s = .next t ∧ RegsKept s t ∧ OnlyTransport s t w ∧
          t.trace = .readMulti 0x0B 3 :: s.trace ∧
          (a2Dec s.alarm2Regs tv = .error .fingerprint → t.resp.ok = false) ∧
          (∀ v tv', a2Dec s.alarm2Regs tv = .ok (v, tv') →
            t.resp.ok = true ∧ t.resp.var2 = v.tag ∧ t.resp.tvOut = tv'.toPort))))

/-- Set alarm 1 and get it back (42 R207), for every variant, on plain memory with every call answered ok: the variant comes
back, A1IE is 1 and A2IE is 0. -/
def Obligations.AlarmSetThenGet : Prop :=
  ∀ (s : State) (v : Alarm1Variant) (sel2 : BitVec 4) (tv tv0 : TimeValue) (n : Nat) (w : List WireEvent), Ready s →
    AlarmFits tv ((s.reg 0x02).getLsbD 6) → n = (callTable (.alarmSet true true true v.tag false sel2 tv)).length →
    Answered s (n + 1) w →
    ∃ t u tv', exec (.alarmSet true true true v.tag false sel2 tv) s = .next t ∧
      exec (.alarmGet true true true false tv0) t = .next u ∧ t.resp.ok = true ∧ u.resp.ok = true ∧
      u.resp.var1 = v.tag ∧ u.resp.tvOut = tv'.toPort ∧ a1Dec (a1Enc v tv ((s.reg 0x02).getLsbD 6)) tv0 = .ok (v, tv') ∧
      (u.reg 0x0E).getLsbD 0 = true ∧ (u.reg 0x0E).getLsbD 1 = false

/-- Set either alarm and get it back (42 R207), for every variant, with a value or, where the variant needs none, without one
(42 R204 step 0, R205 (b)), on plain memory with every call answered ok: the variant and the fields it implies come back, the
alarm's interrupt is enabled and the other alarm's is not. -/
def Obligations.EitherAlarmSetThenGet : Prop :=
  (∀ (s : State) (vv : Bool) (v : Alarm1Variant) (sel2 : BitVec 4) (tv tv0 : TimeValue) (n : Nat) (w : List WireEvent),
    Ready s → (vv = true ∨ v = .oncePerSecond) → Used1Fit v tv ((s.reg 0x02).getLsbD 6) →
    n = (callTable (.alarmSet true vv true v.tag false sel2 tv)).length → Answered s (n + 1) w →
    ∃ u, BothPass (.alarmSet true vv true v.tag false sel2 tv) (.alarmGet true true true false tv0) s u ∧
      u.resp.var1 = v.tag ∧ u.resp.tvOut = (alarm1Reported v tv tv0 ((s.reg 0x02).getLsbD 6)).toPort ∧
      (u.reg 0x0E).getLsbD 0 = true ∧ (u.reg 0x0E).getLsbD 1 = false) ∧
  (∀ (s : State) (vv : Bool) (v : Alarm2Variant) (sel1 : BitVec 5) (tv tv0 : TimeValue) (n : Nat) (w : List WireEvent),
    Ready s → (vv = true ∨ v = .oncePerMinute) → Used2Fit v tv ((s.reg 0x02).getLsbD 6) →
    n = (callTable (.alarmSet true vv false sel1 true v.tag tv)).length → Answered s (n + 1) w →
    ∃ u, BothPass (.alarmSet true vv false sel1 true v.tag tv) (.alarmGet true true false true tv0) s u ∧
      u.resp.var2 = v.tag ∧ u.resp.tvOut = (alarm2Reported v tv tv0 ((s.reg 0x02).getLsbD 6)).toPort ∧
      (u.reg 0x0E).getLsbD 1 = true ∧ (u.reg 0x0E).getLsbD 0 = false)

/-! ### The control and status accessors -/

/-- OSC_EN clears, OSC_DIS sets control bit 7 (43 R242, R243). -/
def Obligations.OscillatorAccessors : Prop :=
  (∀ c : Command, (c.op = 0x30 → decode c = .ok (.oscEn c.hv)) ∧ (c.op = 0x31 → decode c = .ok (.oscDis c.hv))) ∧
  RmwShape .oscEn 0x0E (fun r => r &&& 0x7F) ∧ RmwShape .oscDis 0x0E (fun r => r ||| 0x80)

/-- EN32K_EN sets, EN32K_DIS clears status bit 3 (43 R244, R245). -/
def Obligations.Output32kAccessors : Prop :=
  (∀ c : Command, (c.op = 0x32 → decode c = .ok (.en32kEn c.hv)) ∧ (c.op = 0x33 → decode c = .ok (.en32kDis c.hv))) ∧
  RmwShape .en32kEn 0x0F (fun r => r ||| 0x08) ∧ RmwShape .en32kDis 0x0F (fun r => r &&& 0xF7)

/-- SQW_EN writes BBSQW, RS and INTCN, SQW_DIS writes INTCN with the complement (43 R246, R247; the polarity is the spec's
decision D19, and the statement names `P_SQW_EN_BIT2`, so it holds whatever that is). -/
def Obligations.SquareWaveAccessors : Prop :=
  (∀ c : Command, (c.op = 0x34 → decode c = .ok (.sqwEn c.hv c.freq c.bb)) ∧
    (c.op = 0x35 → decode c = .ok (.sqwDis c.hv))) ∧
  (∀ (freq : BitVec 2) (bb : Bool), ∃ f : Byte → Byte, RmwShape (fun hv => .sqwEn hv freq bb) 0x0E f ∧
    ∀ r : Byte, ∀ k, k < 8 → (f r).getLsbD k =
      if k = 6 then bb else if k = 4 then freq.getLsbD 1 else if k = 3 then freq.getLsbD 0
      else if k = 2 then Config.pSqwEnBit2 else r.getLsbD k) ∧
  (∃ f : Byte → Byte, RmwShape .sqwDis 0x0E f ∧
    ∀ r : Byte, ∀ k, k < 8 → (f r).getLsbD k = if k = 2 then !Config.pSqwEnBit2 else r.getLsbD k)

/-- The four alarm interrupt enables (43 R248 to R251): one control bit each, the others as read. -/
def Obligations.AlarmEnableAccessors : Prop :=
  (∀ c : Command, (c.op = 0x36 → decode c = .ok (.a1ieEn c.hv)) ∧ (c.op = 0x37 → decode c = .ok (.a1ieDis c.hv)) ∧
    (c.op = 0x38 → decode c = .ok (.a2ieEn c.hv)) ∧ (c.op = 0x39 → decode c = .ok (.a2ieDis c.hv))) ∧
  RmwShape .a1ieEn 0x0E (fun r => r ||| 0x01) ∧ RmwShape .a1ieDis 0x0E (fun r => r &&& 0xFE) ∧
  RmwShape .a2ieEn 0x0E (fun r => r ||| 0x02) ∧ RmwShape .a2ieDis 0x0E (fun r => r &&& 0xFD)

/-- The three flag clears (43 R252, R253, R255): one status bit each, the others as read. -/
def Obligations.FlagClearAccessors : Prop :=
  (∀ c : Command, (c.op = 0x3A → decode c = .ok (.a1fClr c.hv)) ∧ (c.op = 0x3B → decode c = .ok (.a2fClr c.hv)) ∧
    (c.op = 0x3D → decode c = .ok (.osfClr c.hv))) ∧
  RmwShape .a1fClr 0x0F (fun r => r &&& 0xFE) ∧ RmwShape .a2fClr 0x0F (fun r => r &&& 0xFD) ∧
  RmwShape .osfClr 0x0F (fun r => r &&& 0x7F)

/-- OSF_GET (43 R254): status bit 7. -/
def Obligations.OsfGetRule : Prop :=
  (∀ c : Command, c.op = 0x3C → decode c = .ok (.osfGet c.hv c.ov)) ∧
  RdShape .osfGet (.readSingle 0x0F) (fun s r => r.flagOut = (s.reg 0x0F).getLsbD 7)

/-- TEMP_GET (43 R256): the whole-degree byte as it is and bits 7:6 of the second byte. -/
def Obligations.TempGetRule : Prop :=
  (∀ c : Command, c.op = 0x3E → decode c = .ok (.tempGet c.hv c.ov)) ∧
  RdShape .tempGet (.readMulti 0x11 2) (fun s r => r.res8 = s.reg 0x11 ∧ r.frac.toNat = (s.reg 0x12).toNat / 64)

/-- The accessor laws of 43 R258, on plain memory with every call answered ok, for all 13 modifying accessors and every operand
of SQW_EN: doing one twice is doing it once; each EN/DIS pair undoes itself on its own bit, in either order; accessors on
disjoint bits of one register commute. The polarity of the square-wave pair is the parameter `P_SQW_EN_BIT2`, so the statement
holds whatever that is. -/
def Obligations.AccessorLaws : Prop :=
  ∀ (s : State) (w : List WireEvent), Ready s → Answered s 4 w →
    (∀ i, handleBit i = some true → accessorBits i ≠ none →
      ∃ t u, exec i s = .next t ∧ exec i t = .next u ∧ t.resp.ok = true ∧ u.resp.ok = true ∧ RegsKept t u) ∧
    UndoEachOther (.oscEn true) (.oscDis true) 0x0E 7 false [7] s ∧
    UndoEachOther (.en32kEn true) (.en32kDis true) 0x0F 3 true [3] s ∧
    (∀ (freq : BitVec 2) (bb : Bool),
      UndoEachOther (.sqwEn true freq bb) (.sqwDis true) 0x0E 2 Config.pSqwEnBit2 [6, 4, 3, 2] s) ∧
    UndoEachOther (.a1ieEn true) (.a1ieDis true) 0x0E 0 true [0] s ∧
    UndoEachOther (.a2ieEn true) (.a2ieDis true) 0x0E 1 true [1] s ∧
    (∀ (i j : Instr) (addr : Nat) (bi bj : List Nat), handleBit i = some true → handleBit j = some true →
      accessorBits i = some (addr, bi) → accessorBits j = some (addr, bj) → (∀ k ∈ bi, k ∉ bj) →
      ∃ u v, BothPass i j s u ∧ BothPass j i s v ∧ RegsKept u v)

/-! ### Hazards -/

/-- The stale latched byte (70 R314) in the window of every read-modify-write, of all 13 accessors and of steps 1 to 2 of
TIME_SET: whatever registers the device, or another caller, changes between the read and the write, the register written ends as
a function of the byte read, and every other register the operation does not write keeps what was put there. -/
def Obligations.StaleLatchedByte : Prop :=
  RmwOverwrites (.oscEn true) 0x0E (fun r => r &&& 0x7F) ∧ RmwOverwrites (.oscDis true) 0x0E (fun r => r ||| 0x80) ∧
  RmwOverwrites (.a1ieEn true) 0x0E (fun r => r ||| 0x01) ∧ RmwOverwrites (.a1ieDis true) 0x0E (fun r => r &&& 0xFE) ∧
  RmwOverwrites (.a2ieEn true) 0x0E (fun r => r ||| 0x02) ∧ RmwOverwrites (.a2ieDis true) 0x0E (fun r => r &&& 0xFD) ∧
  RmwOverwrites (.en32kEn true) 0x0F (fun r => r ||| 0x08) ∧ RmwOverwrites (.en32kDis true) 0x0F (fun r => r &&& 0xF7) ∧
  RmwOverwrites (.a1fClr true) 0x0F (fun r => r &&& 0xFE) ∧ RmwOverwrites (.a2fClr true) 0x0F (fun r => r &&& 0xFD) ∧
  RmwOverwrites (.osfClr true) 0x0F (fun r => r &&& 0x7F) ∧
  (∀ (freq : BitVec 2) (bb : Bool), ∃ f : Byte → Byte, RmwOverwrites (.sqwEn true freq bb) 0x0E f ∧
    ∀ r : Byte, ∀ k, k < 8 → (f r).getLsbD k =
      if k = 6 then bb else if k = 4 then freq.getLsbD 1 else if k = 3 then freq.getLsbD 0
      else if k = 2 then Config.pSqwEnBit2 else r.getLsbD k) ∧
  (∃ f : Byte → Byte, RmwOverwrites (.sqwDis true) 0x0E f ∧
    ∀ r : Byte, ∀ k, k < 8 → (f r).getLsbD k = if k = 2 then !Config.pSqwEnBit2 else r.getLsbD k) ∧
  (∀ (s : State) (tv : TimeValue) (use24 : Bool) (a c d : Answer) (ms : List (Fin 19 × Byte)) (w : List WireEvent), Ready s →
    GoodAnswer a → GoodAnswer c → GoodAnswer d →
    s.wire = .answer a :: (registerMoves ms ++ .answer c :: .answer d :: w) →
    ∃ t, exec (.timeSet true true tv use24) s = .next t ∧ t.resp.ok = true ∧ t.reg 0x0F = s.reg 0x0F &&& 0x7F ∧
      t.timeRegs = timeEnc tv use24 ∧ (∀ y, 7 ≤ y → y ≠ 0x0F → t.reg y = (lastPut ms y).getD (s.reg y)) ∧
      OnlyTransport s t w)

/-- The stale latched byte in the two windows of ALARM_SET (70 R314, 42 R205 (f)), steps 3 to 4 on the control byte and 5 to 6 on
the status byte, for both alarms and every variant. -/
def Obligations.StaleByteInAlarmSet : Prop :=
  ∀ (s : State) (vv : Bool) (tv : TimeValue), Ready s →
    (∀ (v : Alarm1Variant) (sel2 : BitVec 4), (vv = true ∨ v = .oncePerSecond) →
      AlarmSetOverwrites (.alarmSet true vv true v.tag false sel2 tv) s (if v.tag ∈ [0x00#5, 0x08#5, 0x10#5] then 1 else 0)
        0x07 (a1Enc v tv ((s.reg 0x02).getLsbD 6)).toBytes (fun r => (r &&& 0xFD) ||| 0x05) (fun r => r &&& 0xFE)) ∧
    (∀ (v : Alarm2Variant) (sel1 : BitVec 5), (vv = true ∨ v = .oncePerMinute) →
      AlarmSetOverwrites (.alarmSet true vv false sel1 true v.tag tv) s (if v.tag ∈ [0x0#4, 0x4#4, 0x8#4] then 1 else 0)
        0x0B (a2Enc v tv ((s.reg 0x02).getLsbD 6)).toBytes (fun r => (r &&& 0xFE) ||| 0x06) (fun r => r &&& 0xFD))

/-- A `deinit` of another caller between two steps makes the rest of a read-modify-write fail (70 R316, 20 R84): the register is
old or new, the session is left. Stated of OSC_EN. -/
def Obligations.DeinitInsideOperation : Prop :=
  ∀ (s : State) (a b : Answer) (w : List WireEvent), Ready s → GoodAnswer a → b.during = [] →
    s.wire = .answer a :: .move .deinit :: .answer b :: w →
    ∃ t, exec (.oscEn true) s = .next t ∧ t.resp.ok = false ∧ t.sess = false ∧
      (t.reg 0x0E = s.reg 0x0E ∨ t.reg 0x0E = s.reg 0x0E &&& 0x7F) ∧ RegsKeptOutside s t 0x0E 1

/-! ### Rules of the whole machine -/

/-- A transport operation without a handle or without a session fails at once (60 R283): no call, nothing changed. -/
def Obligations.HandleAndSessionChecked : Prop :=
  ∀ (i : Instr) (s : State) (h : Bool), s.flight = none → handleBit i = some h → h = false ∨ s.sess = false →
    FailsAtOnce i s

/-- The calls an operation makes are those of the table of 20 R70, in order: all of them on a pass, the first ones on a failure;
so never more than six (60 R298). -/
def Obligations.CallsFollowTable : Prop :=
  ∀ (i : Instr) (s t : State), s.flight = none → StillWire s → exec i s = .next t →
    ∃ made : List Call, t.trace = made.reverse ++ s.trace ∧ made.map callShape <+: callTable i ∧
      (t.resp.ok = true → made.map callShape = callTable i) ∧ made.length ≤ 6

/-- The block never writes the session bit (10 R31): with no other agent moving, no operation changes it. -/
def Obligations.SessionNeverWritten : Prop :=
  ∀ (i : Instr) (s t : State), s.flight = none → StillWire s → exec i s = .next t → t.sess = s.sess

/-- No operation writes register 0x10 or the temperature registers (10 R45, R46), or any address above. -/
def Obligations.TemperatureNeverWritten : Prop :=
  ∀ (i : Instr) (s t : State), s.flight = none → StillWire s → exec i s = .next t →
    ∀ a, 0x10 ≤ a → t.reg a = s.reg a

/-- The block only ever clears OSF, A1F and A2F (10 R44): with no other agent moving, no operation turns one of them on. -/
def Obligations.FlagsOnlyCleared : Prop :=
  ∀ (i : Instr) (s t : State), s.flight = none → StillWire s → exec i s = .next t →
    ∀ k ∈ [7, 1, 0], (t.reg 0x0F).getLsbD k = true → (s.reg 0x0F).getLsbD k = true

/-- Control bit 5 and status bits 6:4 and 2 are never changed (10 R43, R44, R47). -/
def Obligations.UnnamedBitsKept : Prop :=
  ∀ (i : Instr) (s t : State), s.flight = none → StillWire s → exec i s = .next t →
    (t.reg 0x0E).getLsbD 5 = (s.reg 0x0E).getLsbD 5 ∧
    ∀ k ∈ [6, 5, 4, 2], (t.reg 0x0F).getLsbD k = (s.reg 0x0F).getLsbD k

/-- The block keeps nothing between operations (10 R30, 60 R289): what an operation does is the same whatever the last response,
the pending inputs, the last session answer and the calls made before. -/
def Obligations.OperationsForgetThePast : Prop :=
  ∀ (i : Instr) (s t t' : State) (r : Response) (b : Bool) (x : List Input) (y : List Call), s.flight = none →
    exec i s = .next t → exec i { s with resp := r, sessAnswer := b, inputs := x, trace := y } = .next t' →
    t'.sess = t.sess ∧ t'.dev = t.dev ∧ t'.wire = t.wire ∧ t'.flight = t.flight ∧
      (t.flight = none → t'.resp = t.resp)

/-! ### The invariant -/

/-- The invariant holds after reset, whatever canonical contents the device has. -/
def Obligations.ResetMeetsInvariant : Prop :=
  (∀ d : Memory, d.wf = true → (State.resetWith d).Inv) ∧ State.reset.Inv

/-- Every step keeps the invariant, from every state that meets it. -/
def Obligations.StepKeepsInvariant : Prop :=
  ∀ s t : State, s.Inv → step s = .next t → t.Inv

/-- In canonical form equal register files are equal data (the model's own form, log entry 8): two states that meet the
invariant and hold the same byte in every register have the same `dev`. -/
def Obligations.CanonicalDevicesEqual : Prop :=
  ∀ s t : State, s.Inv → t.Inv → (∀ a, s.reg a = t.reg a) → s.dev = t.dev
end

