-- ==== Sys2Proof/Laws/Memory.lean ====
section
/-! SUPPORT. The register file: reading after writing, and the canonical form every operation keeps. -/

namespace Sys2Proof.Machine.Memory

/-! ### Reading after writing -/

theorem read_erase (m : Memory) (x y : Nat) : (m.erase x).read y = if y = x then unlisted else m.read y := by
  induction m with
  | nil => simp [erase, read]
  | cons e m ih =>
    obtain ⟨a, v⟩ := e
    simp only [erase] at ih ⊢
    by_cases h : a = x
    · subst h
      simp only [List.filter_cons, bne_self_eq_false, Bool.false_eq_true, if_false, ih, read]
      split <;> simp_all
    · simp only [List.filter_cons, bne_iff_ne, ne_eq, h, not_false_eq_true, if_true, read, ih]
      by_cases hy : y = a
      · subst hy; simp [h]
      · simp [hy]

theorem read_insert (m : Memory) (x y : Nat) (b : Byte)
    (hx : ∀ e ∈ m, e.1 ≠ x) : (m.insert x b).read y = if y = x then b else m.read y := by
  induction m with
  | nil => simp [insert, read]
  | cons e m ih =>
    obtain ⟨a, v⟩ := e
    have ha : a ≠ x := hx (a, v) (by simp)
    simp only [insert]
    split
    · simp [read]
    · simp only [read, ih (fun e he => hx e (by simp [he]))]
      by_cases hy : y = a
      · subst hy; simp [ha]
      · simp [hy]

theorem not_mem_erase (m : Memory) (x : Nat) : ∀ e ∈ m.erase x, e.1 ≠ x := by
  intro e he
  simpa [erase] using (List.mem_filter.mp he).2

/-- A register holds the byte last written to it, and a write leaves every other register alone. -/
theorem read_write (m : Memory) (x y : Nat) (b : Byte) : (m.write x b).read y = if y = x then b else m.read y := by
  unfold write
  split
  · next h => rw [read_erase]; split <;> simp_all
  · rw [read_insert _ _ _ _ (not_mem_erase m x), read_erase]
    split <;> simp_all

/-! ### The canonical form -/

theorem wfFrom_cons {lo a : Nat} {v : Byte} {m : Memory} :
    wfFrom lo ((a, v) :: m) = true ↔
      lo ≤ a ∧ a ≤ Config.addrMax ∧ v ≠ unlisted ∧ wfFrom (a + 1) m = true := by
  simp [wfFrom, and_assoc]

theorem wfFrom_mono {lo lo' : Nat} {m : Memory} (hle : lo ≤ lo') (h : wfFrom lo' m = true) : wfFrom lo m = true := by
  cases m with
  | nil => rfl
  | cons e m =>
    obtain ⟨a, v⟩ := e
    rw [wfFrom_cons] at h ⊢
    exact ⟨by omega, h.2⟩

theorem wfFrom_erase {lo : Nat} {m : Memory} (x : Nat) (h : wfFrom lo m = true) : wfFrom lo (m.erase x) = true := by
  induction m generalizing lo with
  | nil => rfl
  | cons e m ih =>
    obtain ⟨a, v⟩ := e
    rw [wfFrom_cons] at h
    simp only [erase, List.filter_cons]
    split
    · rw [wfFrom_cons]; exact ⟨h.1, h.2.1, h.2.2.1, ih h.2.2.2⟩
    · exact wfFrom_mono (by omega) (ih h.2.2.2)

theorem wfFrom_insert {lo x : Nat} {m : Memory} {b : Byte} (h : wfFrom lo m = true) (hlo : lo ≤ x)
    (hx : x ≤ Config.addrMax) (hb : b ≠ unlisted) (hm : ∀ e ∈ m, e.1 ≠ x) : wfFrom lo (m.insert x b) = true := by
  induction m generalizing lo with
  | nil => simp [insert, wfFrom, hlo, hx, hb]
  | cons e m ih =>
    obtain ⟨a, v⟩ := e
    have ha : a ≠ x := hm (a, v) (by simp)
    rw [wfFrom_cons] at h
    simp only [insert]
    split
    · rw [wfFrom_cons, wfFrom_cons]; exact ⟨hlo, hx, hb, by omega, h.2⟩
    · rw [wfFrom_cons]
      exact ⟨h.1, h.2.1, h.2.2.1, ih h.2.2.2 (by omega) (fun e he => hm e (by simp [he]))⟩

/-- A write to a register that exists keeps the canonical form. -/
theorem wf_write {m : Memory} {x : Nat} (b : Byte) (h : m.wf = true) (hx : x ≤ Config.addrMax) :
    (m.write x b).wf = true := by
  unfold write wf at *
  split
  · exact wfFrom_erase x h
  · next hb => exact wfFrom_insert (wfFrom_erase x h) (by omega) hx hb (not_mem_erase m x)

theorem read_below {lo x : Nat} {m : Memory} (h : wfFrom lo m = true) (hx : x < lo) : m.read x = unlisted := by
  induction m generalizing lo with
  | nil => rfl
  | cons e m ih =>
    obtain ⟨a, v⟩ := e
    rw [wfFrom_cons] at h
    rw [read, if_neg (by omega)]
    exact ih h.2.2.2 (by omega)

/-! ### Blocks -/

/-- Write the bytes of a block in ascending order. -/
def writeBlock (m : Memory) (start : Nat) : List Byte → Memory
  | [] => m
  | b :: bs => writeBlock (m.write start b) (start + 1) bs

theorem read_writeBlock (m : Memory) (start : Nat) (bs : List Byte) (x : Nat) :
    (m.writeBlock start bs).read x =
      if h : start ≤ x ∧ x < start + bs.length then bs[x - start]'(by omega) else m.read x := by
  induction bs generalizing m start with
  | nil => simp [writeBlock]
  | cons b bs ih =>
    rw [writeBlock, ih, read_write]
    by_cases h1 : x = start
    · subst h1; simp
    · by_cases h2 : start + 1 ≤ x ∧ x < start + 1 + bs.length
      · have h3 : start ≤ x ∧ x < start + (b :: bs).length := by simp; omega
        rw [dif_pos h2, dif_pos h3]
        have : x - start = (x - (start + 1)) + 1 := by omega
        simp [this]
      · have h3 : ¬ (start ≤ x ∧ x < start + (b :: bs).length) := by simp; omega
        rw [dif_neg h2, dif_neg h3, if_neg h1]

end Sys2Proof.Machine.Memory
end

