-- ==== Sys2Proof/Laws/State.lean ====
section
/-! SUPPORT. One lemma per field for each named update of State: later proofs never unfold an update. -/

namespace Sys2Proof.Machine

section fields
variable (s : State) (r : Results) (c : FailCause)

@[simp] theorem pass_sess : (s.pass r).sess = s.sess := rfl
@[simp] theorem pass_dev : (s.pass r).dev = s.dev := rfl
@[simp] theorem pass_flight : (s.pass r).flight = none := rfl
@[simp] theorem pass_resp : (s.pass r).resp = .pass r s.free := rfl
@[simp] theorem pass_sessAnswer : (s.pass r).sessAnswer = s.sessAnswer := rfl
@[simp] theorem pass_inputs : (s.pass r).inputs = s.inputs := rfl
@[simp] theorem pass_wire : (s.pass r).wire = s.wire := rfl
@[simp] theorem pass_trace : (s.pass r).trace = s.trace := rfl
@[simp] theorem pass_free : (s.pass r).free = s.free + 1 := rfl
@[simp] theorem pass_reg (a : Nat) : (s.pass r).reg a = s.reg a := rfl

@[simp] theorem fail_sess : (s.fail c).sess = s.sess := rfl
@[simp] theorem fail_dev : (s.fail c).dev = s.dev := rfl
@[simp] theorem fail_flight : (s.fail c).flight = none := rfl
@[simp] theorem fail_ok : (s.fail c).resp.ok = false := rfl
@[simp] theorem fail_resp : (s.fail c).resp = .unspecified false s.free := rfl
@[simp] theorem fail_sessAnswer : (s.fail c).sessAnswer = s.sessAnswer := rfl
@[simp] theorem fail_inputs : (s.fail c).inputs = s.inputs := rfl
@[simp] theorem fail_wire : (s.fail c).wire = s.wire := rfl
@[simp] theorem fail_trace : (s.fail c).trace = s.trace := rfl
@[simp] theorem fail_free : (s.fail c).free = s.free + 1 := rfl
@[simp] theorem fail_reg (a : Nat) : (s.fail c).reg a = s.reg a := rfl

@[simp] theorem pass_ok (n : Nat) : (Response.pass r n).ok = true := rfl
@[simp] theorem unspecified_ok (b : Bool) (n : Nat) : (Response.unspecified b n).ok = b := rfl

@[simp] theorem applyMove_dev_sess (a : Fin 19) (b : Byte) : (s.applyMove (.dev a b)).sess = s.sess := rfl
@[simp] theorem applyMove_dev_dev (a : Fin 19) (b : Byte) : (s.applyMove (.dev a b)).dev = s.dev.write a.val b := rfl
@[simp] theorem applyMove_init_sess : (s.applyMove .init).sess = true := rfl
@[simp] theorem applyMove_init_dev : (s.applyMove .init).dev = s.dev := rfl
@[simp] theorem applyMove_deinit_sess : (s.applyMove .deinit).sess = false := rfl
@[simp] theorem applyMove_deinit_dev : (s.applyMove .deinit).dev = s.dev := rfl

variable (m : EnvMove)

@[simp] theorem applyMove_flight : (s.applyMove m).flight = s.flight := by cases m <;> rfl
@[simp] theorem applyMove_resp : (s.applyMove m).resp = s.resp := by cases m <;> rfl
@[simp] theorem applyMove_sessAnswer : (s.applyMove m).sessAnswer = s.sessAnswer := by cases m <;> rfl
@[simp] theorem applyMove_inputs : (s.applyMove m).inputs = s.inputs := by cases m <;> rfl
@[simp] theorem applyMove_wire : (s.applyMove m).wire = s.wire := by cases m <;> rfl
@[simp] theorem applyMove_trace : (s.applyMove m).trace = s.trace := by cases m <;> rfl
@[simp] theorem applyMove_free : (s.applyMove m).free = s.free := by cases m <;> rfl

@[simp] theorem resetWith_dev (d : Memory) : (State.resetWith d).dev = d := rfl
@[simp] theorem resetWith_flight (d : Memory) : (State.resetWith d).flight = none := rfl

end fields

/-- Moves of other agents touch only the session and the registers. -/
theorem applyMoves_eq (ms : List EnvMove) (s : State) :
    s.applyMoves ms = { s with sess := (s.applyMoves ms).sess, dev := (s.applyMoves ms).dev } := by
  induction ms generalizing s with
  | nil => rfl
  | cons m ms ih =>
    have h : s.applyMoves (m :: ms) = (s.applyMove m).applyMoves ms := rfl
    rw [h, ih]
    cases m <;> rfl

end Sys2Proof.Machine
end

