-- ==== Sys2Proof/Laws/Transport.lean ====
section
/-! SUPPORT. What one transport call does when the device does not move inside it (20 R64 to R75), and what the wire gives. -/

namespace Sys2Proof.Machine

/-! ### A device that does not move inside the call -/

theorem movesAt_still {a : Answer} (h : a.during = []) (i : Nat) : movesAt a i = [] := by simp [movesAt, h]

@[simp] theorem deviceMoves_nil (m : Memory) : m.deviceMoves [] = m := rfl

theorem transferIn_still {a : Answer} (h : a.during = []) (start n i : Nat) (m : Memory) :
    m.transferIn a start n i = (m, (List.range' i n).map fun j => m.read (start + j)) := by
  induction n generalizing i with
  | zero => simp [Memory.transferIn]
  | succ n ih => simp [Memory.transferIn, movesAt_still h, ih, List.range'_succ]

/-- The bytes of a still read: register `start + i` at place `i`. -/
def regBytes (m : Memory) (start n : Nat) : List Byte := (List.range' 0 n).map fun j => m.read (start + j)

theorem transferOut_pass {a : Answer} (h : a.during = []) (start : Nat) (bs : List Byte) (i : Nat) (m : Memory)
    (hr : start + i + bs.length ≤ 0x13) : m.transferOut a true start bs i = m.writeBlock (start + i) bs := by
  induction bs generalizing i m with
  | nil => rfl
  | cons b bs ih =>
    simp only [List.length_cons] at hr
    have hlt : start + i ≤ Config.addrMax := by simp [Config.addrMax]; omega
    simp [Memory.transferOut, movesAt_still h, hlt, Memory.writeBlock, ih (i + 1) _ (by omega), Nat.add_assoc]

/-- After a failed write each register it addressed holds its old byte or the byte being written, and no other changes. -/
theorem transferOut_fail {a : Answer} (h : a.during = []) (ok : Bool) (start : Nat) (bs : List Byte) (i : Nat) (m : Memory)
    (x : Nat) : (m.transferOut a ok start bs i).read x = m.read x ∨
      ∃ hx : start + i ≤ x ∧ x < start + i + bs.length,
        (m.transferOut a ok start bs i).read x = bs[x - (start + i)]'(by omega) := by
  induction bs generalizing i m with
  | nil => left; rfl
  | cons b bs ih =>
    simp only [Memory.transferOut, movesAt_still h, deviceMoves_nil, List.length_cons]
    generalize hm : (if ((ok || a.landed.getD i false) && decide (start + i ≤ Config.addrMax)) = true
      then m.write (start + i) b else m) = m2
    have h2 : m2.read x = m.read x ∨ (x = start + i ∧ m2.read x = b) := by
      subst hm
      split
      · rw [Memory.read_write]
        split
        · right; exact ⟨‹_›, rfl⟩
        · left; rfl
      · left; rfl
    rcases ih (i + 1) m2 with h1 | ⟨hx, h1⟩
    · rw [h1]
      rcases h2 with h2 | ⟨rfl, h2⟩
      · left; exact h2
      · right; exact ⟨by omega, by simp [h2]⟩
    · right
      refine ⟨by omega, ?_⟩
      rw [h1]
      have : x - (start + i) = (x - (start + (i + 1))) + 1 := by omega
      simp [this]

/-- A transfer of the bytes `bs` keeps the canonical form. -/
theorem wf_deviceMoves {m : Memory} (l : List (Fin 19 × Byte)) (h : m.wf = true) : (m.deviceMoves l).wf = true := by
  induction l generalizing m with
  | nil => exact h
  | cons e l ih => exact ih (Memory.wf_write e.2 h (by have := e.1.isLt; simp [Config.addrMax]; omega))

theorem wf_transferIn {a : Answer} (start n i : Nat) {m : Memory} (h : m.wf = true) :
    (m.transferIn a start n i).1.wf = true := by
  induction n generalizing i m with
  | zero => exact h
  | succ n ih => exact ih (i + 1) (wf_deviceMoves _ h)

theorem wf_transferOut {a : Answer} (ok : Bool) (start : Nat) (bs : List Byte) (i : Nat) {m : Memory} (h : m.wf = true) :
    (m.transferOut a ok start bs i).wf = true := by
  induction bs generalizing i m with
  | nil => exact h
  | cons b bs ih =>
    simp only [Memory.transferOut]
    apply ih
    split
    · next hc => exact Memory.wf_write b (wf_deviceMoves _ h) (by simp at hc; exact hc.2)
    · exact wf_deviceMoves _ h

/-! ### The primitives -/

section primitives
variable {s : State} {a : Answer} {start n : Nat} {bytes : List Byte}

theorem memRead_pass (hs : s.sess = true) (hr : start + n ≤ 0x13) (ha : GoodAnswer a) :
    s.memRead a start n = ({ s with trace := readCall start n :: s.trace }, some (regBytes s.dev start n)) := by
  simp [State.memRead, State.callSucceeds, inRange, Config.addrMax, hs, hr, ha.1, transferIn_still ha.2, regBytes]

theorem memRead_fail (ha : a.ok = false) :
    s.memRead a start n = ({ s with trace := readCall start n :: s.trace }, none) := by
  simp [State.memRead, State.callSucceeds, ha]

theorem memRead_noSession (hs : s.sess = false) :
    s.memRead a start n = ({ s with trace := readCall start n :: s.trace }, none) := by
  simp [State.memRead, State.callSucceeds, hs]

theorem memWrite_pass (hs : s.sess = true) (hr : start + bytes.length ≤ 0x13) (ha : GoodAnswer a) :
    s.memWrite a start bytes =
      ({ s with trace := writeCall start bytes :: s.trace, dev := s.dev.writeBlock start bytes }, true) := by
  have h1 : (s.sess && inRange start bytes.length && a.ok) = true := by simp [inRange, Config.addrMax, hs, hr, ha.1]
  simp only [State.memWrite, State.callSucceeds, h1]
  rw [transferOut_pass ha.2 start bytes 0 s.dev (by omega)]
  rfl

theorem memWrite_fail (ha : a.ok = false) :
    s.memWrite a start bytes =
      ({ s with trace := writeCall start bytes :: s.trace, dev := s.dev.transferOut a false start bytes 0 }, false) := by
  simp [State.memWrite, State.callSucceeds, ha]

theorem memWrite_noSession (hs : s.sess = false) :
    s.memWrite a start bytes =
      ({ s with trace := writeCall start bytes :: s.trace, dev := s.dev.transferOut a false start bytes 0 }, false) := by
  simp [State.memWrite, State.callSucceeds, hs]

end primitives

/-! ### What the wire gives -/

/-- Everything a draw from the wire can do: it takes events, lets the other agents move (session and registers only), and either
pauses or brings an answer. -/
theorem drawFrom_eq (w : List WireEvent) (s : State) :
    (∃ s', drawFrom w s = .paused s' ∧
      s' = { s with sess := s'.sess, dev := s'.dev, wire := s'.wire }) ∨
    (∃ s' a, drawFrom w s = .answered s' a ∧
      s' = { s with sess := s'.sess, dev := s'.dev, wire := s'.wire, free := s'.free }) := by
  induction w generalizing s with
  | nil =>
    right
    refine ⟨_, _, rfl, ?_⟩
    rw [applyMoves_eq]
  | cons e w ih =>
    cases e with
    | pause => left; exact ⟨_, rfl, rfl⟩
    | answer a => right; exact ⟨_, a, rfl, rfl⟩
    | move m =>
      rcases ih (s.applyMove m) with ⟨s', h, h'⟩ | ⟨s', a, h, h'⟩
      · left; refine ⟨s', h, ?_⟩; rw [h']; cases m <;> rfl
      · right; refine ⟨s', a, h, ?_⟩; rw [h']; cases m <;> rfl

theorem wf_applyMove {s : State} (m : EnvMove) (h : s.dev.wf = true) : (s.applyMove m).dev.wf = true := by
  cases m with
  | dev a b => exact Memory.wf_write b h (by have := a.isLt; simp [Config.addrMax]; omega)
  | init => exact h
  | deinit => exact h

theorem wf_applyMoves (ms : List EnvMove) {s : State} (h : s.dev.wf = true) : (s.applyMoves ms).dev.wf = true := by
  induction ms generalizing s with
  | nil => exact h
  | cons m ms ih => exact ih (wf_applyMove m h)

theorem wf_drawFrom (w : List WireEvent) {s : State} (h : s.dev.wf = true) :
    (∀ s', drawFrom w s = .paused s' → s'.dev.wf = true) ∧
    (∀ s' a, drawFrom w s = .answered s' a → s'.dev.wf = true) := by
  induction w generalizing s with
  | nil =>
    refine ⟨fun s' h' => (by simp [drawFrom] at h'), fun s' a h' => ?_⟩
    simp only [drawFrom, Drawn.answered.injEq] at h'
    rw [← h'.1]
    exact wf_applyMoves _ h
  | cons e w ih =>
    cases e with
    | pause =>
      refine ⟨fun s' h' => ?_, fun s' a h' => (by simp [drawFrom] at h')⟩
      simp only [drawFrom, Drawn.paused.injEq] at h'
      rw [← h']; exact h
    | answer a =>
      refine ⟨fun s' h' => (by simp [drawFrom] at h'), fun s' a h' => ?_⟩
      simp only [drawFrom, Drawn.answered.injEq] at h'
      rw [← h'.1]; exact h
    | move m => exact ih (wf_applyMove m h)

theorem drawFrom_answer {s : State} {a : Answer} {w : List WireEvent} (h : s.wire = .answer a :: w) :
    drawFrom s.wire s = .answered { s with wire := w } a := by rw [h]; rfl

/-- Registers after several puts: what was last put there, else what they held. -/
theorem read_deviceMoves (m : Memory) (ms : List (Fin 19 × Byte)) (y : Nat) :
    (m.deviceMoves ms).read y = (lastPut ms y).getD (m.read y) := by
  induction ms generalizing m with
  | nil => rfl
  | cons e ms ih =>
    have h : m.deviceMoves (e :: ms) = (m.write e.1.val e.2).deviceMoves ms := rfl
    rw [h, ih, Memory.read_write, lastPut]
    cases lastPut ms y with
    | some b => rfl
    | none => by_cases hy : y = e.1.val <;> simp [hy]

/-- The bytes put by two lists of moves in a row. -/
theorem lastPut_append (ms ms' : List (Fin 19 × Byte)) (y : Nat) :
    lastPut (ms ++ ms') y = (lastPut ms' y).orElse fun _ => lastPut ms y := by
  induction ms with
  | nil => cases h : lastPut ms' y <;> simp [h, lastPut]
  | cons e ms ih => simp only [List.cons_append, lastPut, ih]; cases lastPut ms' y <;> rfl

/-- A draw from a wire on which other agents put bytes in registers before the answer. -/
theorem drawFrom_registerMoves (ms : List (Fin 19 × Byte)) (a : Answer) (w : List WireEvent) (s : State) :
    drawFrom (registerMoves ms ++ .answer a :: w) s = .answered { s with dev := s.dev.deviceMoves ms, wire := w } a := by
  induction ms generalizing s with
  | nil => rfl
  | cons e ms ih => exact ih (s.applyMove (.dev e.1 e.2))

end Sys2Proof.Machine
end

