-- ==== Sys2Proof/Laws/Operations.lean ====
section
/-! SUPPORT. What the shared shape of every operation can do: its checks, its steps on a device that does not move of itself, and
what it keeps on any wire. -/

namespace Sys2Proof.Machine

/-! ### Checks -/

theorem firstFailed_none {l : List (Bool × FailCause)} : firstFailed l = none ↔ ∀ e ∈ l, e.1 = true := by
  induction l with
  | nil => simp [firstFailed]
  | cons e l ih => obtain ⟨b, c⟩ := e; cases b <;> simp [firstFailed, ih]

section
variable {i : Instr} {checks : List (Bool × FailCause)} {steps : List OpStep}
  {fin : List Byte → Except FailCause Results} {s t : State}

/-- An operation whose checks pass runs its steps. -/
theorem operation_start (hf : s.flight = none) (hc : ∀ e ∈ checks, e.1 = true) :
    operation i checks steps fin s = .next (runSteps i fin steps 0 [] s) := by
  simp [operation, hf, firstFailed_none.mpr hc]

/-- An operation with a check that does not pass fails at step 0. -/
theorem operation_refused (hf : s.flight = none) (hc : ∃ e ∈ checks, e.1 = false) :
    ∃ c, operation i checks steps fin s = .next (s.fail c) := by
  have : firstFailed checks ≠ none := by
    rw [ne_eq, firstFailed_none]
    obtain ⟨e, he, hb⟩ := hc
    intro h
    simp [h e he] at hb
  obtain ⟨c, hc⟩ := Option.ne_none_iff_exists'.mp this
  exact ⟨c, by simp [operation, hf, hc]⟩

/-- An operation in flight is carried on from its step index. -/
theorem operation_resume {f : Flight} (hf : s.flight = some f) (hi : f.instr = i) :
    operation i checks steps fin s =
      .next (runSteps i fin (steps.drop f.idx) f.idx f.latched { s with flight := none }) := by
  simp [operation, hf, hi]

theorem operation_busy {f : Flight} (hf : s.flight = some f) (hi : f.instr ≠ i) :
    operation i checks steps fin s = .refused .commandInFlight := by
  simp [operation, hf, hi]

/-- Everything a new operation can do: fail at step 0, or run its steps. -/
theorem operation_cases (hf : s.flight = none) (h : operation i checks steps fin s = .next t) :
    (∃ c, t = s.fail c) ∨ ((∀ e ∈ checks, e.1 = true) ∧ t = runSteps i fin steps 0 [] s) := by
  by_cases hc : ∀ e ∈ checks, e.1 = true
  · right
    rw [operation_start hf hc] at h
    exact ⟨hc, (Host.Outcome.next.inj h).symm⟩
  · left
    obtain ⟨c, h'⟩ := operation_refused (i := i) (steps := steps) (fin := fin) hf (checks := checks)
      (by push Not at hc; obtain ⟨e, he, hb⟩ := hc; exact ⟨e, he, by simpa using hb⟩)
    rw [h'] at h
    exact ⟨c, (Host.Outcome.next.inj h).symm⟩

end

/-! ### Steps one by one -/

section
variable {i : Instr} {fin : List Byte → Except FailCause Results} {rest : List OpStep} {k : Nat} {l : List Byte}
  {s : State} {a : Answer} {w : List WireEvent} {start n : Nat} {f : List Byte → List Byte}

@[simp] theorem runSteps_nil : runSteps i fin [] k l s = s.respond (fin l) := rfl

variable {st : OpStep} {s1 s2 : State} {l2 : List Byte}

theorem runSteps_paused (hd : drawFrom s.wire s = .paused s1) :
    runSteps i fin (st :: rest) k l s = { s1 with flight := some { instr := i, idx := k, latched := l } } := by
  rw [runSteps, hd]

theorem runSteps_failed (hd : drawFrom s.wire s = .answered s1 a) (hc : st.call a l s1 = (s2, none)) :
    runSteps i fin (st :: rest) k l s = s2.fail .transport := by
  rw [runSteps, hd]; simp only [hc]

theorem runSteps_next (hd : drawFrom s.wire s = .answered s1 a) (hc : st.call a l s1 = (s2, some l2)) :
    runSteps i fin (st :: rest) k l s = runSteps i fin rest (k + 1) l2 s2 := by
  rw [runSteps, hd]; simp only [hc]

theorem runSteps_read_pass (hw : s.wire = .answer a :: w) (ha : GoodAnswer a) (hs : s.sess = true)
    (hr : start + n ≤ 0x13) :
    runSteps i fin (.read start n :: rest) k l s =
      runSteps i fin rest (k + 1) (regBytes s.dev start n)
        { s with wire := w, trace := readCall start n :: s.trace } := by
  rw [runSteps, drawFrom_answer hw]
  simp only [OpStep.call]
  rw [memRead_pass (s := { s with wire := w }) hs hr ha]

theorem runSteps_read_fail (hw : s.wire = .answer a :: w) (ha : a.ok = false) :
    runSteps i fin (.read start n :: rest) k l s =
      State.fail { s with wire := w, trace := readCall start n :: s.trace } .transport := by
  rw [runSteps, drawFrom_answer hw]
  simp only [OpStep.call]
  rw [memRead_fail ha]

theorem runSteps_write_pass (hw : s.wire = .answer a :: w) (ha : GoodAnswer a) (hs : s.sess = true)
    (hr : start + (f l).length ≤ 0x13) :
    runSteps i fin (.write start f :: rest) k l s =
      runSteps i fin rest (k + 1) l
        { s with wire := w, trace := writeCall start (f l) :: s.trace, dev := s.dev.writeBlock start (f l) } := by
  rw [runSteps, drawFrom_answer hw]
  simp only [OpStep.call]
  rw [memWrite_pass (s := { s with wire := w }) hs hr ha]
  simp

theorem runSteps_write_fail (hw : s.wire = .answer a :: w) (ha : a.ok = false) :
    runSteps i fin (.write start f :: rest) k l s =
      State.fail { s with
        wire := w
        trace := writeCall start (f l) :: s.trace
        dev := s.dev.transferOut a false start (f l) 0 } .transport := by
  rw [runSteps, drawFrom_answer hw]
  simp only [OpStep.call]
  rw [memWrite_fail ha]
  simp

end

/-! ### A pass, with other agents' changes of registers before each call -/

/-- A wire on which other agents make the register moves `mss[j]` and then call `j` is answered by `as[j]`. -/
def windowWire : List (List (Fin 19 × Byte)) → List Answer → List WireEvent
  | ms :: mss, a :: as => registerMoves ms ++ .answer a :: windowWire mss as
  | _, _ => []

/-- What the steps leave when every call passes and other agents make the register moves `mss[j]` before call `j`: the registers,
the bytes last read, the trace. -/
def passRun : List OpStep → List (List (Fin 19 × Byte)) → List Byte → Memory → List Call → Memory × List Byte × List Call
  | .read start n :: rest, ms :: mss, _, m, tr =>
    passRun rest mss (regBytes (m.deviceMoves ms) start n) (m.deviceMoves ms) (readCall start n :: tr)
  | .write start f :: rest, ms :: mss, l, m, tr =>
    passRun rest mss l ((m.deviceMoves ms).writeBlock start (f l)) (writeCall start (f l) :: tr)
  | _, _, l, m, tr => (m, l, tr)

/-- A step stays inside the register file. -/
def OpStep.InRange : OpStep → Prop
  | .read start n => start + n ≤ 0x13
  | .write start f => ∀ l, start + (f l).length ≤ 0x13

/-- The steps of an operation whose calls are all answered ok: the one lemma for every pass, with the window before each call open
to other agents (70 R314) or, with `mss` of empty lists, on plain memory. -/
theorem runSteps_pass {i : Instr} {fin : List Byte → Except FailCause Results} {steps : List OpStep} {k : Nat} {l : List Byte}
    {s : State} {mss : List (List (Fin 19 × Byte))} {as : List Answer} {w : List WireEvent}
    (hw : s.wire = windowWire mss as ++ w) (hm : mss.length = steps.length) (hl : as.length = steps.length)
    (ha : ∀ a ∈ as, GoodAnswer a) (hs : s.sess = true) (hr : ∀ st ∈ steps, st.InRange) :
    runSteps i fin steps k l s =
      State.respond
        { s with
          wire := w
          dev := (passRun steps mss l s.dev s.trace).1
          trace := (passRun steps mss l s.dev s.trace).2.2 }
        (fin (passRun steps mss l s.dev s.trace).2.1) := by
  induction steps generalizing k l s mss as with
  | nil =>
    obtain rfl := List.eq_nil_of_length_eq_zero hm
    simp only [windowWire, List.nil_append] at hw
    subst hw
    rfl
  | cons st rest ih =>
    obtain ⟨ms, mss, rfl⟩ := List.exists_cons_of_length_eq_add_one hm
    obtain ⟨a, as, rfl⟩ := List.exists_cons_of_length_eq_add_one hl
    have hd : drawFrom s.wire s =
        .answered { s with dev := s.dev.deviceMoves ms, wire := windowWire mss as ++ w } a := by
      rw [hw, windowWire, List.append_assoc, List.cons_append, drawFrom_registerMoves]
    have hg := ha a (by simp)
    have hst := hr st (by simp)
    have ha' : ∀ b ∈ as, GoodAnswer b := fun b hb => ha b (by simp [hb])
    have hr' : ∀ st ∈ rest, st.InRange := fun b hb => hr b (by simp [hb])
    cases st with
    | read start n =>
      rw [runSteps_next (l := l) hd (by simp only [OpStep.call]; rw [memRead_pass (by exact hs) hst hg]),
        ih rfl (by simpa using hm) (by simpa using hl) ha' (by exact hs) hr']
      rfl
    | write start f =>
      rw [runSteps_next (l := l) hd (by simp only [OpStep.call]; rw [memWrite_pass (by exact hs) (hst l) hg]; rfl),
        ih rfl (by simpa using hm) (by simpa using hl) ha' (by exact hs) hr']
      rfl

/-- On plain memory no window is used. -/
theorem windowWire_still (as : List Answer) : windowWire (List.replicate as.length []) as = as.map .answer := by
  induction as with
  | nil => rfl
  | cons a as ih => simp [List.replicate_succ, windowWire, ih, registerMoves]

/-- `runSteps_pass` on plain memory. -/
theorem runSteps_answered {i : Instr} {fin : List Byte → Except FailCause Results} {steps : List OpStep} {k : Nat}
    {l : List Byte} {s : State} {w : List WireEvent} (hA : Answered s steps.length w) (hs : s.sess = true)
    (hr : ∀ st ∈ steps, st.InRange) :
    runSteps i fin steps k l s =
      State.respond
        { s with
          wire := w
          dev := (passRun steps (List.replicate steps.length []) l s.dev s.trace).1
          trace := (passRun steps (List.replicate steps.length []) l s.dev s.trace).2.2 }
        (fin (passRun steps (List.replicate steps.length []) l s.dev s.trace).2.1) := by
  obtain ⟨as, hl, ha, hw⟩ := hA
  exact runSteps_pass (by rw [hw, ← windowWire_still, hl]) (by simp) hl ha hs hr

/-! ### Everything the steps can do on a still wire -/

/-- The ways the steps of an operation can go when the wire only answers and the device does not move of itself: each call
passes, or the first that fails ends the operation (60 R285), a failed write leaving each register old or new (20 R75). -/
inductive StillRun (fin : List Byte → Except FailCause Results) : List OpStep → List Byte → State → State → Prop where
  | done (l : List Byte) (s : State) : StillRun fin [] l s (s.respond (fin l))
  | readFail (start n : Nat) (rest : List OpStep) (l : List Byte) (s : State) (w : List WireEvent) :
      StillRun fin (.read start n :: rest) l s
        (State.fail { s with wire := w, trace := readCall start n :: s.trace } .transport)
  | readPass (start n : Nat) (rest : List OpStep) (l : List Byte) (s : State) (w : List WireEvent) (t : State) :
      StillRun fin rest (regBytes s.dev start n) { s with wire := w, trace := readCall start n :: s.trace } t →
      StillRun fin (.read start n :: rest) l s t
  | writeFail (start : Nat) (f : List Byte → List Byte) (rest : List OpStep) (l : List Byte) (s : State)
      (w : List WireEvent) (d : Memory)
      (hd : ∀ x, d.read x = s.dev.read x ∨
        ∃ hx : start ≤ x ∧ x < start + (f l).length, d.read x = (f l)[x - start]'(by omega)) :
      StillRun fin (.write start f :: rest) l s
        (State.fail { s with wire := w, trace := writeCall start (f l) :: s.trace, dev := d } .transport)
  | writePass (start : Nat) (f : List Byte → List Byte) (rest : List OpStep) (l : List Byte) (s : State)
      (w : List WireEvent) (t : State) :
      StillRun fin rest l
        { s with wire := w, trace := writeCall start (f l) :: s.trace, dev := s.dev.writeBlock start (f l) } t →
      StillRun fin (.write start f :: rest) l s t

theorem stillRun {i : Instr} {fin : List Byte → Except FailCause Results} {steps : List OpStep} {k : Nat} {l : List Byte}
    {s : State} {as : List Answer} {w : List WireEvent} (hw : s.wire = as.map .answer ++ w)
    (hl : steps.length ≤ as.length) (ha : ∀ a ∈ as, a.during = []) (hs : s.sess = true)
    (hr : ∀ st ∈ steps, st.InRange) : StillRun fin steps l s (runSteps i fin steps k l s) := by
  induction steps generalizing k l s as with
  | nil => exact .done l s
  | cons st rest ih =>
    cases as with
    | nil => simp at hl
    | cons a as =>
      simp only [List.map_cons, List.cons_append] at hw
      have hd : a.during = [] := ha a (by simp)
      have hl' : rest.length ≤ as.length := by simpa using hl
      have ha' : ∀ b ∈ as, b.during = [] := fun b hb => ha b (by simp [hb])
      have hr' : ∀ st ∈ rest, st.InRange := fun b hb => hr b (by simp [hb])
      have hst := hr st (by simp)
      cases st with
      | read start n =>
        cases hok : a.ok with
        | false => rw [runSteps_read_fail hw hok]; exact .readFail ..
        | true =>
          rw [runSteps_read_pass hw ⟨hok, hd⟩ hs hst]
          exact .readPass _ _ _ _ _ _ _ (ih rfl hl' ha' hs hr')
      | write start f =>
        cases hok : a.ok with
        | false =>
          rw [runSteps_write_fail hw hok]
          refine .writeFail _ _ _ _ _ _ _ (fun x => ?_)
          simpa using transferOut_fail hd false start (f l) 0 s.dev x
        | true =>
          rw [runSteps_write_pass hw ⟨hok, hd⟩ hs (hst l)]
          exact .writePass _ _ _ _ _ _ _ (ih rfl hl' ha' hs hr')

/-! ### On any wire -/

theorem respond_flight (s : State) (r : Except FailCause Results) : (s.respond r).flight = none := by
  cases r <;> rfl

theorem respond_dev (s : State) (r : Except FailCause Results) : (s.respond r).dev = s.dev := by
  cases r <;> rfl

theorem respond_sess (s : State) (r : Except FailCause Results) : (s.respond r).sess = s.sess := by
  cases r <;> rfl

theorem respond_trace (s : State) (r : Except FailCause Results) : (s.respond r).trace = s.trace := by
  cases r <;> rfl

theorem respond_inputs (s : State) (r : Except FailCause Results) : (s.respond r).inputs = s.inputs := by
  cases r <;> rfl

/-- A call touches the registers and the trace only. -/
theorem call_eq (st : OpStep) (a : Answer) (l : List Byte) (s : State) :
    (st.call a l s).1 = { s with dev := (st.call a l s).1.dev, trace := (st.call a l s).1.trace } := by
  cases st with
  | read start n => simp only [OpStep.call, State.memRead]; split <;> rfl
  | write start f => rfl

theorem wf_call (st : OpStep) (a : Answer) (l : List Byte) {s : State} (h : s.dev.wf = true) :
    (st.call a l s).1.dev.wf = true := by
  cases st with
  | read start n =>
    simp only [OpStep.call, State.memRead]
    split
    · exact wf_transferIn start n 0 h
    · exact h
  | write start f => exact wf_transferOut _ start (f l) 0 h

theorem wf_runSteps {i : Instr} {fin : List Byte → Except FailCause Results} (steps : List OpStep) (k : Nat)
    (l : List Byte) {s : State} (h : s.dev.wf = true) : (runSteps i fin steps k l s).dev.wf = true := by
  induction steps generalizing k l s with
  | nil => rw [runSteps_nil, respond_dev]; exact h
  | cons st rest ih =>
    have hd := wf_drawFrom s.wire h
    cases hdr : drawFrom s.wire s with
    | paused s1 => rw [runSteps_paused hdr]; exact hd.1 s1 hdr
    | answered s1 a =>
      have h1 := wf_call st a l (hd.2 s1 a hdr)
      rcases hc : st.call a l s1 with ⟨s2, _ | l2⟩
      · rw [runSteps_failed hdr hc]; rw [hc] at h1; exact h1
      · rw [runSteps_next hdr hc]; rw [hc] at h1; exact ih (k + 1) l2 h1

/-- After its steps an operation is over, or it is in flight at one of its own steps not yet done. -/
theorem runSteps_flight {i : Instr} {fin : List Byte → Except FailCause Results} (steps : List OpStep) (k : Nat)
    (l : List Byte) (s : State) (f : Flight) (h : (runSteps i fin steps k l s).flight = some f) :
    f.instr = i ∧ k ≤ f.idx ∧ f.idx < k + steps.length := by
  induction steps generalizing k l s with
  | nil => rw [runSteps_nil, respond_flight] at h; simp at h
  | cons st rest ih =>
    cases hdr : drawFrom s.wire s with
    | paused s1 =>
      rw [runSteps_paused hdr] at h
      have := (Option.some.inj h).symm
      subst this
      exact ⟨rfl, Nat.le_refl _, by simp⟩
    | answered s1 a =>
      rcases hc : st.call a l s1 with ⟨s2, _ | l2⟩
      · rw [runSteps_failed hdr hc] at h; simp at h
      · rw [runSteps_next hdr hc] at h
        have := ih (k + 1) l2 s2 h
        rw [List.length_cons]
        exact ⟨this.1, by omega, by omega⟩

end Sys2Proof.Machine
end

