-- ==== Sys2Proof/Laws/Forms.lean ====
section
/-! SUPPORT. Every meaning is one operation: checks, transport steps, results. What is common to the 28 of them, said once. -/

namespace Sys2Proof.Machine

/-- A transport step without its data: whether it writes, its address, its byte count. -/
def stepShape : OpStep → Bool × Nat × Nat
  | .read a n => (false, a, n)
  | .write a f => (true, a, (f []).length)

/-- `i` runs as the operation with these checks, steps and results. -/
structure HasForm (i : Instr) (checks : State → List (Bool × FailCause)) (steps : List OpStep)
    (fin : List Byte → Except FailCause Results) : Prop where
  exec_eq : ∀ s, exec i s = operation i (checks s) steps fin s
  inRange : ∀ st ∈ steps, st.InRange
  length_le : steps.length ≤ 6
  checks_sess : ∀ s s' : State, s'.sess = s.sess → checks s' = checks s
  handle_checked : ∀ h, handleBit i = some h → ∀ s, (∃ c, (h, c) ∈ checks s) ∧ ∃ c, (s.sess, c) ∈ checks s
  transport : ∀ s, firstFailed (checks s) = none → steps ≠ [] → s.sess = true ∧ handleBit i = some true
  table : ∀ s, firstFailed (checks s) = none → steps.map stepShape = callTable i
  table_length : steps.length ≤ (callTable i).length
  width : ∀ a f, .write a f ∈ steps → ∀ l, (f l).length = (f []).length

theorem alarm1Variant_tag_ofTag {t : BitVec 5} {v : Alarm1Variant} (h : Alarm1Variant.ofTag t = some v) : t = v.tag := by
  unfold Alarm1Variant.ofTag at h
  split_ifs at h <;> simp at h <;> subst h <;> assumption

theorem alarm2Variant_tag_ofTag {t : BitVec 4} {v : Alarm2Variant} (h : Alarm2Variant.ofTag t = some v) : t = v.tag := by
  unfold Alarm2Variant.ofTag at h
  split_ifs at h <;> simp at h <;> subst h <;> assumption

theorem alarmSetSteps_one {sel1 : BitVec 5} {v : Alarm1Variant} (h : Alarm1Variant.ofTag sel1 = some v) (sel2 : BitVec 4)
    (tv : TimeValue) : alarmSetSteps true sel1 sel2 tv = alarmSet1Steps v tv := by simp [alarmSetSteps, h]

theorem alarmSetSteps_two {sel2 : BitVec 4} {v : Alarm2Variant} (h : Alarm2Variant.ofTag sel2 = some v) (sel1 : BitVec 5)
    (tv : TimeValue) : alarmSetSteps false sel1 sel2 tv = alarmSet2Steps v tv := by simp [alarmSetSteps, h]

theorem alarmSetSteps_none (s1v : Bool) {sel1 : BitVec 5} {sel2 : BitVec 4} (h : selectorLegal s1v sel1 sel2 = false)
    (tv : TimeValue) : alarmSetSteps s1v sel1 sel2 tv = [] := by
  cases s1v <;> simp_all [selectorLegal, alarmSetSteps]

theorem selectorLegal_cases {s1v : Bool} {sel1 : BitVec 5} {sel2 : BitVec 4} (h : selectorLegal s1v sel1 sel2 = true) :
    (s1v = true ∧ ∃ v, Alarm1Variant.ofTag sel1 = some v) ∨ (s1v = false ∧ ∃ v, Alarm2Variant.ofTag sel2 = some v) := by
  cases s1v <;> simpa [selectorLegal, Option.isSome_iff_exists] using h

theorem alarmSet_form (hv vv s1v : Bool) (sel1 : BitVec 5) (s2v : Bool) (sel2 : BitVec 4) (tv : TimeValue) :
    ∃ checks steps fin, HasForm (.alarmSet hv vv s1v sel1 s2v sel2 tv) checks steps fin := by
  refine ⟨fun s => [(hv, .precondHandle), (s.sess, .precondSession), (s1v != s2v, .precondSelector),
     (selectorLegal s1v sel1 sel2, .precondSelector),
     (vv || selectorNeedsNoValue s1v sel1 sel2, .precondTarget)], alarmSetSteps s1v sel1 sel2 tv, fun _ => .ok {}, ?_⟩
  have checked : ∀ s : State, ∀ h : firstFailed [(hv, FailCause.precondHandle), (s.sess, .precondSession),
      (s1v != s2v, .precondSelector), (selectorLegal s1v sel1 sel2, .precondSelector),
      (vv || selectorNeedsNoValue s1v sel1 sel2, .precondTarget)] = none,
      hv = true ∧ s.sess = true ∧ selectorLegal s1v sel1 sel2 = true := by
    intro s h
    rw [firstFailed_none] at h
    simp only [List.mem_cons, List.not_mem_nil, or_false, forall_eq_or_imp, forall_eq] at h
    exact ⟨h.1, h.2.1, h.2.2.2.1⟩
  have legal : alarmSetSteps s1v sel1 sel2 tv = [] ∨
      (s1v = true ∧ ∃ v, Alarm1Variant.ofTag sel1 = some v ∧ alarmSetSteps s1v sel1 sel2 tv = alarmSet1Steps v tv) ∨
      (s1v = false ∧ ∃ v, Alarm2Variant.ofTag sel2 = some v ∧ alarmSetSteps s1v sel1 sel2 tv = alarmSet2Steps v tv) := by
    cases h : selectorLegal s1v sel1 sel2 with
    | false => exact .inl (alarmSetSteps_none s1v h tv)
    | true =>
      obtain ⟨rfl, v, hv⟩ | ⟨rfl, v, hv⟩ := selectorLegal_cases h
      · exact .inr (.inl ⟨rfl, v, hv, alarmSetSteps_one hv sel2 tv⟩)
      · exact .inr (.inr ⟨rfl, v, hv, alarmSetSteps_two hv sel1 tv⟩)
  constructor
  · exact fun _ => rfl
  · rcases legal with h | ⟨rfl, v, -, h⟩ | ⟨rfl, v, -, h⟩ <;> rw [h]
    · simp
    · cases v <;> simp [alarmSet1Steps, hoursRead, hasHours1, OpStep.InRange, Config.hoursAddr, Config.a1Base,
        Config.ctrlAddr, Config.statAddr, Alarm1Regs.toBytes]
    · cases v <;> simp [alarmSet2Steps, hoursRead, hasHours2, OpStep.InRange, Config.hoursAddr, Config.a2Base,
        Config.ctrlAddr, Config.statAddr, Alarm2Regs.toBytes]
  · rcases legal with h | ⟨rfl, v, -, h⟩ | ⟨rfl, v, -, h⟩ <;> rw [h]
    · simp
    · cases v <;> simp [alarmSet1Steps, hoursRead, hasHours1]
    · cases v <;> simp [alarmSet2Steps, hoursRead, hasHours2]
  · exact fun _ _ h => by simp [h]
  · intro h hh s
    simp only [handleBit, Option.some.injEq] at hh
    exact ⟨⟨.precondHandle, by simp [hh]⟩, ⟨.precondSession, by simp⟩⟩
  · intro s h _
    obtain ⟨h1, h2, -⟩ := checked s h
    exact ⟨h2, by simp [handleBit, h1]⟩
  · intro s h
    obtain ⟨-, -, h3⟩ := checked s h
    obtain ⟨rfl, v, hv⟩ | ⟨rfl, v, hv⟩ := selectorLegal_cases h3
    · rw [alarmSetSteps_one hv, alarm1Variant_tag_ofTag hv]
      cases v <;> rfl
    · rw [alarmSetSteps_two hv, alarm2Variant_tag_ofTag hv]
      cases v <;> rfl
  · rcases legal with h | ⟨rfl, v, hv, h⟩ | ⟨rfl, v, hv, h⟩ <;> rw [h]
    · simp
    · rw [alarm1Variant_tag_ofTag hv]; cases v <;> exact Nat.le_refl _
    · rw [alarm2Variant_tag_ofTag hv]; cases v <;> exact Nat.le_refl _
  · rcases legal with h | ⟨rfl, v, -, h⟩ | ⟨rfl, v, -, h⟩ <;> rw [h]
    · simp
    · cases v <;> simp [alarmSet1Steps, hoursRead, hasHours1] <;> rintro a f (⟨-, rfl⟩ | ⟨-, rfl⟩ | ⟨-, rfl⟩) <;> simp [Alarm1Regs.toBytes]
    · cases v <;> simp [alarmSet2Steps, hoursRead, hasHours2] <;> rintro a f (⟨-, rfl⟩ | ⟨-, rfl⟩ | ⟨-, rfl⟩) <;> simp [Alarm2Regs.toBytes]

theorem rmw_form {i : Instr} {hv : Bool} {addr : Nat} {f : Byte → Byte} (he : ∀ s, exec i s = rmw i hv addr f s)
    (ha : addr ≤ 0x12) (hh : handleBit i = some hv) (ht : callTable i = [(false, addr, 1), (true, addr, 1)]) :
    ∃ checks steps fin, HasForm i checks steps fin := by
  refine ⟨_, _, _, he, ?_, ?_, fun _ _ h => by simp only [h], ?_, ?_, fun s _ => ht.symm, by simp [ht], ?_⟩
  · simp [OpStep.InRange]; omega
  · simp
  · simp +contextual [hh]
  · simp +contextual [hh, firstFailed_none]
  · simp

theorem rd_form {i : Instr} {hv ov : Bool} {start n : Nat} {g : List Byte → Results}
    (he : ∀ s, exec i s = rd i hv ov start n g s) (ha : start + n ≤ 0x13) (hh : handleBit i = some hv)
    (ht : callTable i = [(false, start, n)]) : ∃ checks steps fin, HasForm i checks steps fin := by
  refine ⟨_, _, _, he, ?_, ?_, fun _ _ h => by simp only [h], ?_, ?_, fun s _ => ht.symm, by simp [ht], ?_⟩
  · simpa [OpStep.InRange] using ha
  · simp
  · simp +contextual [hh, exists_or]
  · simp +contextual [hh, firstFailed_none]
  · simp

/-- Every meaning has a form. -/
theorem exec_form (i : Instr) : ∃ checks steps fin, HasForm i checks steps fin := by
  cases i
  case alarmSet => exact alarmSet_form ..
  case bcdDec =>
    refine ⟨fun _ => _, _, _, fun s => rfl, ?_, ?_, ?_, ?_, ?_, ?_, ?_, ?_⟩ <;> simp [handleBit, callTable]
  case bcdEnc | timeDec | timeEnc | a1Dec | a1Enc | a2Dec | a2Enc =>
    refine ⟨fun _ => [], _, _, fun s => rfl, ?_, ?_, ?_, ?_, ?_, ?_, ?_, ?_⟩ <;> simp [handleBit, callTable]
  case alarmGet hv ov s1v s2v tv =>
    refine ⟨_, _, _, fun s => rfl, ?_, ?_, fun _ _ h => by simp only [h], ?_, ?_, fun _ _ => ?_, ?_, ?_⟩ <;> cases s1v
    any_goals rfl
    all_goals simp +contextual [OpStep.InRange, handleBit, firstFailed_none, Config.a1Base, Config.a2Base, Config.a1Len,
      Config.a2Len, exists_or]
  case timeSet hv vv tv use24 =>
    refine ⟨_, _, _, fun s => rfl, ?_, ?_, fun _ _ h => by simp only [h], ?_, ?_, fun _ _ => rfl, Nat.le_refl _, ?_⟩
    · simp [OpStep.InRange, Config.statAddr, Config.timeBase, TimeRegs.toBytes]
    · simp
    · simp +contextual [handleBit, exists_or]
    · simp +contextual [handleBit, firstFailed_none]
    · simp; rintro a f (⟨-, rfl⟩ | ⟨-, rfl⟩) <;> simp
  case timeGet | modeGet | osfGet | tempGet => exact rd_form (fun _ => rfl) (by decide) rfl rfl
  all_goals exact rmw_form (fun _ => rfl) (by decide) rfl rfl

/-! ### The accessors bit by bit -/

theorem sqwEnByte_bits (freq : BitVec 2) (bb : Bool) (r : Byte) (k : Nat) (hk : k < 8) : (sqwEnByte freq bb r).getLsbD k =
    if k = 6 then bb else if k = 4 then freq.getLsbD 1 else if k = 3 then freq.getLsbD 0
    else if k = 2 then Config.pSqwEnBit2 else r.getLsbD k := by
  simp only [sqwEnByte]
  generalize Config.pSqwEnBit2 = p
  interval_cases k <;> cases bb <;> cases p <;> simp

theorem sqwDisByte_bits (r : Byte) (k : Nat) (hk : k < 8) :
    (sqwDisByte r).getLsbD k = if k = 2 then !Config.pSqwEnBit2 else r.getLsbD k := by
  simp only [sqwDisByte]
  generalize Config.pSqwEnBit2 = p
  interval_cases k <;> cases p <;> simp

/-- Every modifying accessor with a present handle is an `rmw` whose byte function keeps the bits outside its own and writes its
own whatever it read (43 R240, R242 to R255). -/
theorem accessor_rmw {i : Instr} {addr : Nat} {bits : List Nat} (hh : handleBit i = some true)
    (hb : accessorBits i = some (addr, bits)) :
    addr ≤ 0x12 ∧ ∃ f : Byte → Byte, (∀ s, exec i s = rmw i true addr f s) ∧
      (∀ r k, k < 8 → k ∉ bits → (f r).getLsbD k = r.getLsbD k) ∧
      (∀ r r' k, k < 8 → k ∈ bits → (f r).getLsbD k = (f r').getLsbD k) := by
  cases i <;> simp only [accessorBits, handleBit, Option.some.injEq, Prod.mk.injEq, reduceCtorEq] at hb hh
  case sqwEn =>
    obtain ⟨rfl, rfl⟩ := hb
    subst hh
    refine ⟨by decide, _, fun s => rfl, fun r k hk hm => ?_, fun r r' k hk hm => ?_⟩
    · simp only [List.mem_cons, List.not_mem_nil, or_false, not_or] at hm
      rw [sqwEnByte_bits _ _ _ _ hk]
      simp [hm]
    · rw [sqwEnByte_bits _ _ _ _ hk, sqwEnByte_bits _ _ _ _ hk]
      simp only [List.mem_cons, List.not_mem_nil, or_false] at hm
      rcases hm with rfl | rfl | rfl | rfl <;> simp
  case sqwDis =>
    obtain ⟨rfl, rfl⟩ := hb
    subst hh
    refine ⟨by decide, _, fun s => rfl, fun r k hk hm => ?_, fun r r' k hk hm => ?_⟩
    · rw [sqwDisByte_bits _ _ hk, if_neg (by simpa using hm)]
    · obtain rfl := List.mem_singleton.mp hm
      rw [sqwDisByte_bits _ _ hk, sqwDisByte_bits _ _ hk]
      rfl
  all_goals
    obtain ⟨rfl, rfl⟩ := hb
    subst hh
    refine ⟨by decide, _, fun s => rfl, fun r k hk hm => ?_, fun r r' k hk hm => ?_⟩
    · simp only [List.mem_singleton] at hm
      interval_cases k <;> simp_all [oscEnByte, oscDisByte, en32kEnByte, en32kDisByte, a1ieEnByte, a1ieDisByte, a2ieEnByte,
        a2ieDisByte, a1fClrByte, a2fClrByte, osfClrByte]
    · obtain rfl := List.mem_singleton.mp hm
      simp [oscEnByte, oscDisByte, en32kEnByte, en32kDisByte, a1ieEnByte, a1ieDisByte, a2ieEnByte, a2ieDisByte, a1fClrByte,
        a2fClrByte, osfClrByte]

end Sys2Proof.Machine
end

