-- ==== Sys2Proof/Laws/PerInstr.lean ====
section
/-! SUPPORT. Per instruction: the operation code of the command that stands for it (30 R118). -/

namespace Sys2Proof.Laws.OpCode

/-- The code that 30 R118 gives the operation. -/
def code : Instr → Byte
  | .bcdDec _ _ => 0x01
  | .bcdEnc _ => 0x02
  | .timeDec _ => 0x10
  | .timeEnc _ _ => 0x11
  | .timeGet _ _ => 0x12
  | .timeSet _ _ _ _ => 0x13
  | .modeGet _ _ => 0x14
  | .a1Dec _ _ => 0x20
  | .a1Enc _ _ _ => 0x21
  | .a2Dec _ _ => 0x22
  | .a2Enc _ _ _ => 0x23
  | .alarmGet _ _ _ _ _ => 0x24
  | .alarmSet _ _ _ _ _ _ _ => 0x25
  | .oscEn _ => 0x30
  | .oscDis _ => 0x31
  | .en32kEn _ => 0x32
  | .en32kDis _ => 0x33
  | .sqwEn _ _ _ => 0x34
  | .sqwDis _ => 0x35
  | .a1ieEn _ => 0x36
  | .a1ieDis _ => 0x37
  | .a2ieEn _ => 0x38
  | .a2ieDis _ => 0x39
  | .a1fClr _ => 0x3A
  | .a2fClr _ => 0x3B
  | .osfGet _ _ => 0x3C
  | .osfClr _ => 0x3D
  | .tempGet _ _ => 0x3E

/-- The command that stands for the operation carries its code, and a decoder that reads the code alone finds its row. -/
def Statement (i : Instr) : Prop :=
  (encode i).op = code i ∧ ∃ row, opTable.find? (fun row => row.1 == (encode i).op) = some row ∧ row.1 = code i

theorem bcdDec (arg8 : Byte) (tw : BitVec 3) : Statement (.bcdDec arg8 tw) :=
  ⟨rfl, _, rfl, rfl⟩
theorem bcdEnc (arg8 : Byte) : Statement (.bcdEnc arg8) :=
  ⟨rfl, _, rfl, rfl⟩
theorem timeDec (blk : TimeRegs) : Statement (.timeDec blk) :=
  ⟨rfl, _, rfl, rfl⟩
theorem timeEnc (tv : TimeValue) (use24 : Bool) : Statement (.timeEnc tv use24) :=
  ⟨rfl, _, rfl, rfl⟩
theorem timeGet (hv : Bool) (ov : Bool) : Statement (.timeGet hv ov) :=
  ⟨rfl, _, rfl, rfl⟩
theorem timeSet (hv : Bool) (vv : Bool) (tv : TimeValue) (use24 : Bool) : Statement (.timeSet hv vv tv use24) :=
  ⟨rfl, _, rfl, rfl⟩
theorem modeGet (hv : Bool) (ov : Bool) : Statement (.modeGet hv ov) :=
  ⟨rfl, _, rfl, rfl⟩
theorem a1Dec (blk : Alarm1Regs) (tv : TimeValue) : Statement (.a1Dec blk tv) :=
  ⟨rfl, _, rfl, rfl⟩
theorem a1Enc (sel1 : BitVec 5) (tv : TimeValue) (mode12 : Bool) : Statement (.a1Enc sel1 tv mode12) :=
  ⟨rfl, _, rfl, rfl⟩
theorem a2Dec (blk : Alarm2Regs) (tv : TimeValue) : Statement (.a2Dec blk tv) :=
  ⟨rfl, _, rfl, rfl⟩
theorem a2Enc (sel2 : BitVec 4) (tv : TimeValue) (mode12 : Bool) : Statement (.a2Enc sel2 tv mode12) :=
  ⟨rfl, _, rfl, rfl⟩
theorem alarmGet (hv : Bool) (ov : Bool) (s1v : Bool) (s2v : Bool) (tv : TimeValue) :
    Statement (.alarmGet hv ov s1v s2v tv) :=
  ⟨rfl, _, rfl, rfl⟩
theorem alarmSet (hv : Bool) (vv : Bool) (s1v : Bool) (sel1 : BitVec 5) (s2v : Bool) (sel2 : BitVec 4) (tv : TimeValue) :
    Statement (.alarmSet hv vv s1v sel1 s2v sel2 tv) :=
  ⟨rfl, _, rfl, rfl⟩
theorem oscEn (hv : Bool) : Statement (.oscEn hv) :=
  ⟨rfl, _, rfl, rfl⟩
theorem oscDis (hv : Bool) : Statement (.oscDis hv) :=
  ⟨rfl, _, rfl, rfl⟩
theorem en32kEn (hv : Bool) : Statement (.en32kEn hv) :=
  ⟨rfl, _, rfl, rfl⟩
theorem en32kDis (hv : Bool) : Statement (.en32kDis hv) :=
  ⟨rfl, _, rfl, rfl⟩
theorem sqwEn (hv : Bool) (freq : BitVec 2) (bb : Bool) : Statement (.sqwEn hv freq bb) :=
  ⟨rfl, _, rfl, rfl⟩
theorem sqwDis (hv : Bool) : Statement (.sqwDis hv) :=
  ⟨rfl, _, rfl, rfl⟩
theorem a1ieEn (hv : Bool) : Statement (.a1ieEn hv) :=
  ⟨rfl, _, rfl, rfl⟩
theorem a1ieDis (hv : Bool) : Statement (.a1ieDis hv) :=
  ⟨rfl, _, rfl, rfl⟩
theorem a2ieEn (hv : Bool) : Statement (.a2ieEn hv) :=
  ⟨rfl, _, rfl, rfl⟩
theorem a2ieDis (hv : Bool) : Statement (.a2ieDis hv) :=
  ⟨rfl, _, rfl, rfl⟩
theorem a1fClr (hv : Bool) : Statement (.a1fClr hv) :=
  ⟨rfl, _, rfl, rfl⟩
theorem a2fClr (hv : Bool) : Statement (.a2fClr hv) :=
  ⟨rfl, _, rfl, rfl⟩
theorem osfGet (hv : Bool) (ov : Bool) : Statement (.osfGet hv ov) :=
  ⟨rfl, _, rfl, rfl⟩
theorem osfClr (hv : Bool) : Statement (.osfClr hv) :=
  ⟨rfl, _, rfl, rfl⟩
theorem tempGet (hv : Bool) (ov : Bool) : Statement (.tempGet hv ov) :=
  ⟨rfl, _, rfl, rfl⟩

end Sys2Proof.Laws.OpCode
end

