-- ==== Sys2Proof/Tests/Slice0.lean ====
section
/-! SUPPORT. Tests: ill-formed operands, words of the spec's encodings, the vectors of 95 (their ids stand in the comments), and
for every statement with hypotheses a witness that meets them. -/

namespace Sys2Proof.Machine.Tests

/-! ### Small states -/

/-- The transport answers ok, the device does not move. -/
def good : Answer := { ok := true, landed := [], during := [] }

/-- The transport answers fail, the device does not move. -/
def bad : Answer := { ok := false, landed := [true, false], during := [] }

/-- Session initialised, these registers, and then these answers. -/
def ready (d : Memory) (as : List Answer) : State :=
  { State.resetWith d with sess := true, wire := as.map .answer }

/-- Just this pending input, no session. -/
def pending (x : Input) : State := { State.reset with inputs := [x] }

/-- What `f` sees of the next state, none at a fault or refusal. -/
def after {α : Type} (o : Host.Outcome State Fault Refusal) (f : State → α) : Option α :=
  match o with
  | .next t => some (f t)
  | .fault _ => none
  | .refused _ => none

/-- The time of 95, `{45, 30, 14, 3, 15, 6, 24, 0, 0}`. -/
def tvS8 : TimeValue := ⟨45, 30, 14, 3, 15, 6, 24, false, false⟩

/-- The operand `{9, 9, 9, 9, 9, 9, 9, 0, 0}` of 95. -/
def tv0 : TimeValue := ⟨9, 9, 9, 9, 9, 9, 9, false, false⟩

/-- The TimeValue of the alarm tables of 95. -/
def tvAl : TimeValue := ⟨45, 30, 11, 3, 15, 6, 24, false, true⟩

/-! ### Well-formedness: each check refuses an ill-formed operand -/

theorem test_wf_tens_width :
    Instr.wf (.bcdDec 0x12 0) = false ∧ Instr.wf (.bcdDec 0x12 5) = false ∧ Instr.wf (.bcdDec 0x12 7) = false ∧
    Instr.wf (.bcdDec 0x12 1) = true ∧ Instr.wf (.bcdDec 0x12 4) = true := by decide

theorem test_wf_sel1 :
    Instr.wf (.a1Enc 0x01 tv0 false) = false ∧ Instr.wf (.a1Enc 0x18 tv0 false) = false ∧
    Instr.wf (.a1Enc 0x1F tv0 false) = false ∧ Instr.wf (.a1Enc 0x10 tv0 false) = true := by decide

theorem test_wf_sel2 :
    Instr.wf (.a2Enc 0x1 tv0 false) = false ∧ Instr.wf (.a2Enc 0xF tv0 false) = false ∧
    Instr.wf (.a2Enc 0x8 tv0 false) = true := by decide

theorem test_wf_alarm_set :
    Instr.wf (.alarmSet true true true 0x02 false 0x1 tv0) = false ∧
    Instr.wf (.alarmSet true true false 0x02 true 0x1 tv0) = false ∧
    Instr.wf (.alarmSet true true true 0x0F false 0x1 tv0) = true := by decide

/-! ### Decoding: words written out from 30 R118 and the encoding column of 95 -/

-- P1 of 95, rows 2 and 1.
theorem test_decode_bcd :
    decode { op := 0x01, arg8 := 0x59, tw := 4 } = .ok (.bcdDec 0x59 4) ∧
    decode { op := 0x02, arg8 := 0x3B } = .ok (.bcdEnc 59) := by decide

-- T-D1 of 95, P4 row 1, P2 row 2, P4 row 2.
theorem test_decode_time :
    decode { op := 0x10, blkIn := 0x24061503143045 } = .ok (.timeDec ⟨0x45, 0x30, 0x14, 0x03, 0x15, 0x06, 0x24⟩) ∧
    decode { op := 0x11, tvIn := 0x018060F030E1E2D, use24 := true } = .ok (.timeEnc tvS8 true) ∧
    decode { op := 0x12, hv := true, ov := true } = .ok (.timeGet true true) ∧
    decode { op := 0x13, hv := true, vv := true, tvIn := 0x218060F030B0000 }
      = .ok (.timeSet true true ⟨0, 0, 11, 3, 15, 6, 24, false, true⟩ false) ∧
    decode { op := 0x14, hv := true, ov := true } = .ok (.modeGet true true) := by decide

-- P3 rows 1 and 2, A1-15, A1-16, A2-9, A2-10 of 95.
theorem test_decode_alarm :
    decode { op := 0x20, blkIn := 0x80080085 } = .ok (.a1Dec ⟨0x85, 0x00, 0x08, 0x80⟩ ⟨0, 0, 0, 0, 0, 0, 0, false, false⟩) ∧
    decode { op := 0x21, sel1 := 0x08, tvIn := 0x080055 } = .ok (.a1Enc 0x08 ⟨85, 0, 8, 0, 0, 0, 0, false, false⟩ false) ∧
    decode { op := 0x22, blkIn := 0x420730, tvIn := 0x309090909090909 }
      = .ok (.a2Dec ⟨0x30, 0x07, 0x42⟩ ⟨9, 9, 9, 9, 9, 9, 9, true, true⟩) ∧
    decode { op := 0x23, sel2 := 0x8, tvIn := 0x02071E00, mode12 := true }
      = .ok (.a2Enc 0x8 ⟨0, 30, 7, 2, 0, 0, 0, false, false⟩ true) ∧
    decode { op := 0x24, hv := true, ov := true, s1v := true, tvIn := 0x309090909090909 }
      = .ok (.alarmGet true true true false ⟨9, 9, 9, 9, 9, 9, 9, true, true⟩) ∧
    decode { op := 0x25, hv := true, vv := true, s1v := true, sel1 := 0x08, tvIn := 0x000000000080000 }
      = .ok (.alarmSet true true true 0x08 false 0 ⟨0, 0, 8, 0, 0, 0, 0, false, false⟩) := by decide

theorem test_decode_accessors :
    decode { op := 0x30, hv := true } = .ok (.oscEn true) ∧ decode { op := 0x31, hv := true } = .ok (.oscDis true) ∧
    decode { op := 0x32, hv := true } = .ok (.en32kEn true) ∧ decode { op := 0x33, hv := true } = .ok (.en32kDis true) ∧
    decode { op := 0x34, hv := true, freq := 2, bb := true } = .ok (.sqwEn true 2 true) ∧
    decode { op := 0x35, hv := true } = .ok (.sqwDis true) ∧ decode { op := 0x36, hv := true } = .ok (.a1ieEn true) ∧
    decode { op := 0x37, hv := true } = .ok (.a1ieDis true) ∧ decode { op := 0x38, hv := true } = .ok (.a2ieEn true) ∧
    decode { op := 0x39, hv := true } = .ok (.a2ieDis true) ∧ decode { op := 0x3A, hv := true } = .ok (.a1fClr true) ∧
    decode { op := 0x3B, hv := true } = .ok (.a2fClr true) ∧
    decode { op := 0x3C, hv := true, ov := true } = .ok (.osfGet true true) ∧
    decode { op := 0x3D, hv := true } = .ok (.osfClr true) ∧
    decode { op := 0x3E, hv := true, ov := true } = .ok (.tempGet true true) := by decide

-- 95 section 2.10.
theorem test_decode_reserved :
    ([0x00, 0x03, 0x15, 0x26, 0x3F, 0xFF].map fun op => decode { op := op, hv := true }) =
      [.error (.reservedOp 0x00), .error (.reservedOp 0x03), .error (.reservedOp 0x15), .error (.reservedOp 0x26),
       .error (.reservedOp 0x3F), .error (.reservedOp 0xFF)] := by decide

/-- The opcode table's own bits: the code alone, every operand port 0. -/
theorem test_table_word :
    decodeTableWord 8 0x3E = some (.tempGet false false) ∧ decodeTableWord 8 0x01 = some (.bcdDec 0 0) ∧
    decodeTableWord 8 0xFF = none := by decide

/-- A command with every port in use. -/
def wideCommand : Command :=
  { op := 0x25, hv := true, vv := true, sel1 := 0x11, s2v := true, sel2 := 0x9, tvIn := 0x200000000000001,
    blkIn := 0x80000000000001, arg8 := 0x81, tw := 5, mode12 := true, freq := 2, bb := true }

/-- The linear layout keeps a command whole (log entry 1). -/
theorem test_linear_layout : Command.ofWord wideCommand.toWord = wideCommand := by decide

/-! ### One step -/

-- P1 row 1, as the first command after reset.
theorem test_step_first_command :
    after (step (State.reset.withFetchWord 152 (Command.toWord { op := 0x02, arg8 := 0x3B })))
      (fun t => (t.resp.ok, t.resp.res8, t.inputs)) = some (true, 0x59, []) := by decide

-- P6 rows 1, 4 and 2.
theorem test_step_inputs :
    after (step (pending (.command { op := 0x12, hv := true, ov := true }))) (fun t => (t.resp.ok, t.trace)) = some (false, []) ∧
    after (step (pending (.command { op := 0x00 }))) (fun t => (t.resp.ok, t.trace)) = some (false, []) ∧
    after (step (pending (.init true))) (fun t => (t.sess, t.sessAnswer)) = some (true, true) := by decide

/-! ### The vectors of 95 -/

-- B-D9, B-D24.
theorem test_bcdDec :
    after (exec (.bcdDec 0xD9 3) .reset) (fun t => (t.resp.ok, t.resp.res8)) = some (true, 59) ∧
    after (exec (.bcdDec 0x9A 4) .reset) (fun t => (t.resp.ok, t.resp.res8)) = some (true, 0) := by decide
-- The failures of 95 section 2.1.
theorem test_bcdDec_width : after (exec (.bcdDec 0x12 5) .reset) (fun t => t.resp.ok) = some false := by decide

-- B-E13, B-E14.
theorem test_bcdEnc :
    after (exec (.bcdEnc 99) .reset) (fun t => (t.resp.ok, t.resp.res8)) = some (true, 0x99) ∧
    after (exec (.bcdEnc 100) .reset) (fun t => (t.resp.ok, t.resp.res8)) = some (true, 0x00) := by decide

-- T-D7 and T-D2.
theorem test_timeDec :
    timeDec ⟨0xD9, 0x80, 0x63, 0xFF, 0xF1, 0x92, 0xA5⟩ = ⟨59, 0, 3, 255, 31, 12, 0, true, true⟩ ∧
    timeDec ⟨0x00, 0x00, 0x71, 0x07, 0x31, 0x12, 0x99⟩ = ⟨0, 0, 11, 7, 31, 12, 99, true, true⟩ := by decide
-- T-D1, on the ports.
theorem test_timeDec_ports :
    after (exec (.timeDec ⟨0x45, 0x30, 0x14, 0x03, 0x15, 0x06, 0x24⟩) .reset) (fun t => (t.resp.ok, t.resp.tvOut))
      = some (true, 0x018060F030E1E2D) := by decide

-- T-E9, T-E10.
theorem test_timeEnc :
    timeEnc ⟨100, 255, 45, 200, 99, 25, 100, false, false⟩ true = ⟨0x00, 0x00, 0x45, 0xC8, 0x99, 0x25, 0x00⟩ ∧
    timeEnc ⟨85, 0, 23, 0, 0, 0, 0, false, false⟩ false = ⟨0x85, 0x00, 0x63, 0x00, 0x00, 0x00, 0x00⟩ := by decide
-- T-E1 as the number of 95's packing reminder, and a short block that leaves the bits above it alone (30 R113).
theorem test_block_port :
    blkOutPort (timeEnc tvS8 true).toBytes 0 = 0x24061503143045 ∧
    blkOutPort [0x30, 0x11, 0x80] 0xFEDCBA98765432 = 0xFEDCBA98801130 := by decide

/-- The registers of 95 program P2 after its row 1, the time block only. -/
def devTime : Memory := [(0, 0x45), (1, 0x30), (2, 0x14), (3, 0x03), (4, 0x15), (5, 0x06), (6, 0x24)]

-- T-T1.
theorem test_timeGet :
    after (exec (.timeGet true true) (ready devTime [good])) (fun t => (t.resp.ok, t.resp.tvOut, t.dev, t.trace))
      = some (true, 0x018060F030E1E2D, devTime, [.readMulti 0 7]) := by decide

-- T-T2.
theorem test_timeSet :
    after (exec (.timeSet true true tvS8 true) (ready [(0x0F, 0x88)] [good, good, good]))
      (fun t => (t.resp.ok, t.dev, t.trace)) =
    some (true, devTime ++ [(0x0F, 0x08)],
      [.writeMulti 0 [0x45, 0x30, 0x14, 0x03, 0x15, 0x06, 0x24], .writeSingle 0x0F 0x08, .readSingle 0x0F]) := by decide
-- T-T9.
theorem test_timeSet_third_call_fails :
    after (exec (.timeSet true true tvS8 true) (ready [(0x0F, 0x88)] [good, good, bad]))
      (fun t => (t.resp.ok, t.reg 0x0F)) = some (false, 0x08) := by decide

-- T-T3, T-T4.
theorem test_modeGet :
    after (exec (.modeGet true true) (ready [(2, 0x71)] [good])) (fun t => (t.resp.ok, t.resp.flagOut)) = some (true, true) ∧
    after (exec (.modeGet true true) (ready [(2, 0x14)] [good])) (fun t => (t.resp.ok, t.resp.flagOut))
      = some (true, false) := by decide

-- A1-18, A1-21.
theorem test_a1Dec :
    after (exec (.a1Dec ⟨0x00, 0x00, 0x08, 0x45⟩ tv0) .reset) (fun t => (t.resp.ok, t.resp.var1, t.resp.tvOut))
      = some (true, 0x10, TimeValue.toPort ⟨0, 0, 8, 5, 9, 9, 9, false, false⟩) ∧
    after (exec (.a1Dec ⟨0x00, 0x00, 0x00, 0xC0⟩ tv0) .reset) (fun t => t.resp.ok) = some false := by decide
-- A1-2, A1-3, A1-5, A1-7, A1-9.
theorem test_a1Dec_variants :
    a1Dec ⟨0x45, 0x30, 0x71, 0x15⟩ tv0 = .ok (.secondsMinutesHoursDayOfMonth, ⟨45, 30, 11, 9, 15, 9, 9, true, true⟩) ∧
    a1Dec ⟨0x45, 0x30, 0x11, 0x80⟩ tv0 = .ok (.secondsMinutesHours, ⟨45, 30, 11, 9, 9, 9, 9, false, false⟩) ∧
    a1Dec ⟨0x45, 0x30, 0x80, 0x80⟩ tv0 = .ok (.secondsMinutes, ⟨45, 30, 9, 9, 9, 9, 9, false, false⟩) ∧
    a1Dec ⟨0x45, 0x80, 0x80, 0x80⟩ tv0 = .ok (.secondsOnly, ⟨45, 9, 9, 9, 9, 9, 9, false, false⟩) ∧
    a1Dec ⟨0x80, 0x80, 0x80, 0x80⟩ tv0 = .ok (.oncePerSecond, tv0) := by decide

-- A1-12, A1-15.
theorem test_a1Enc :
    a1Enc .secondsMinutesHoursDayOfWeek tvAl true = ⟨0x45, 0x30, 0x71, 0x43⟩ ∧
    a1Enc .secondsMinutesHours ⟨85, 0, 8, 0, 0, 0, 0, false, false⟩ false = ⟨0x85, 0x00, 0x08, 0x80⟩ := by decide
-- A1-11, A1-14.
theorem test_a1Enc_tags :
    after (exec (.a1Enc 0x10 tvAl false) .reset) (fun t => t.resp.ok) = some true ∧
    after (exec (.a1Enc 0x01 tvAl false) .reset) (fun t => t.resp.ok) = some false := by decide

-- A2-10, A2-13.
theorem test_a2Dec :
    after (exec (.a2Dec ⟨0x30, 0x07, 0x42⟩ ⟨9, 9, 9, 9, 9, 9, 9, true, true⟩) .reset)
      (fun t => (t.resp.ok, t.resp.var2, t.resp.tvOut))
      = some (true, 0x8, TimeValue.toPort ⟨9, 30, 7, 2, 9, 9, 9, false, false⟩) ∧
    after (exec (.a2Dec ⟨0x00, 0x00, 0xC0⟩ tv0) .reset) (fun t => t.resp.ok) = some false := by decide
-- A2-2, A2-3, A2-5, A2-6.
theorem test_a2Dec_variants :
    a2Dec ⟨0x30, 0x71, 0x15⟩ tv0 = .ok (.minutesHoursDayOfMonth, ⟨9, 30, 11, 9, 15, 9, 9, true, true⟩) ∧
    a2Dec ⟨0x30, 0x11, 0x80⟩ tv0 = .ok (.minutesHours, ⟨9, 30, 11, 9, 9, 9, 9, false, false⟩) ∧
    a2Dec ⟨0x30, 0x80, 0x80⟩ tv0 = .ok (.minutesOnly, ⟨9, 30, 9, 9, 9, 9, 9, false, false⟩) ∧
    a2Dec ⟨0x80, 0x80, 0x80⟩ tv0 = .ok (.oncePerMinute, tv0) := by decide

-- A2-8, A2-11.
theorem test_a2Enc :
    a2Enc .minutesHoursDayOfWeek tvAl true = ⟨0x30, 0x71, 0x43⟩ ∧
    after (exec (.a2Enc 0x8 tvAl true) .reset) (fun t => t.resp.ok) = some true ∧
    after (exec (.a2Enc 0x1 tvAl true) .reset) (fun t => t.resp.ok) = some false := by decide

-- A-T9, A-T10.
theorem test_alarmGet :
    after (exec (.alarmGet true true true false ⟨9, 9, 9, 9, 9, 9, 9, true, true⟩) (ready [(9, 0x08), (10, 0x80)] [good]))
      (fun t => (t.resp.ok, t.resp.var1, t.resp.tvOut)) = some (true, 0x08, 0x009090909080000) ∧
    after (exec (.alarmGet true true false true ⟨9, 9, 9, 9, 9, 9, 9, false, true⟩)
      (ready [(11, 0x30), (12, 0x47), (13, 0x42)] [good])) (fun t => (t.resp.ok, t.resp.var2, t.resp.tvOut))
      = some (true, 0x8, TimeValue.toPort ⟨9, 30, 7, 2, 9, 9, 9, true, false⟩) := by decide
-- A-T11.
theorem test_alarmGet_fingerprint :
    after (exec (.alarmGet true true true false tv0) (ready [(7, 0x80)] [good])) (fun t => (t.resp.ok, t.trace))
      = some (false, [.readMulti 7 4]) := by decide

-- A-T1.
theorem test_alarmSet :
    after (exec (.alarmSet true true true 0x08 false 0 ⟨0, 0, 8, 0, 0, 0, 0, false, false⟩)
      (ready [(2, 0x14), (0x0E, 0x1A), (0x0F, 0x8B)] (List.replicate 6 good))) (fun t => (t.resp.ok, t.dev, t.trace)) =
    some (true, [(2, 0x14), (9, 0x08), (10, 0x80), (0x0E, 0x1D), (0x0F, 0x8A)],
      [.writeSingle 0x0F 0x8A, .readSingle 0x0F, .writeSingle 0x0E 0x1D, .readSingle 0x0E,
       .writeMulti 0x07 [0x00, 0x00, 0x08, 0x80], .readSingle 0x02]) := by decide
-- A-T3.
theorem test_alarmSet_two :
    after (exec (.alarmSet true true false 0 true 0x8 ⟨0, 30, 7, 2, 0, 0, 0, false, false⟩)
      (ready [(2, 0x71), (0x0E, 0x1D), (0x0F, 0x0A)] (List.replicate 6 good))) (fun t => (t.resp.ok, t.dev)) =
    some (true, [(2, 0x71), (11, 0x30), (12, 0x47), (13, 0x42), (0x0E, 0x1E), (0x0F, 0x08)]) := by decide

/-- One read-modify-write on register `a`, every call answered ok: `ok` and the register after. -/
def rmwTest (i : Instr) (a : Nat) (before : Byte) : Option (Bool × Byte) :=
  after (exec i (ready [(a, before)] [good, good])) (fun t => (t.resp.ok, t.reg a))

-- C-1.
theorem test_oscEn : rmwTest (.oscEn true) 0x0E 0x9C = some (true, 0x1C) := by decide
-- C-2.
theorem test_oscDis : rmwTest (.oscDis true) 0x0E 0x1C = some (true, 0x9C) := by decide
-- C-3.
theorem test_en32kEn : rmwTest (.en32kEn true) 0x0F 0x83 = some (true, 0x8B) := by decide
-- C-4.
theorem test_en32kDis : rmwTest (.en32kDis true) 0x0F 0x88 = some (true, 0x80) := by decide
-- C-5, C-6.
theorem test_sqwEn : rmwTest (.sqwEn true 2 true) 0x0E 0x1F = some (true, 0x53) ∧
    rmwTest (.sqwEn true 0 false) 0x0E 0xFF = some (true, 0xA3) := by decide
-- C-8.
theorem test_sqwDis : rmwTest (.sqwDis true) 0x0E 0x53 = some (true, 0x57) := by decide
-- C-9.
theorem test_a1ieEn : rmwTest (.a1ieEn true) 0x0E 0x04 = some (true, 0x05) := by decide
-- C-10.
theorem test_a1ieDis : rmwTest (.a1ieDis true) 0x0E 0x07 = some (true, 0x06) := by decide
-- C-11.
theorem test_a2ieEn : rmwTest (.a2ieEn true) 0x0E 0x04 = some (true, 0x06) := by decide
-- C-12.
theorem test_a2ieDis : rmwTest (.a2ieDis true) 0x0E 0x07 = some (true, 0x05) := by decide
-- C-13.
theorem test_a1fClr : rmwTest (.a1fClr true) 0x0F 0x8B = some (true, 0x8A) := by decide
-- C-14.
theorem test_a2fClr : rmwTest (.a2fClr true) 0x0F 0x8B = some (true, 0x89) := by decide
-- C-21.
theorem test_osfClr : rmwTest (.osfClr true) 0x0F 0x88 = some (true, 0x08) := by decide
-- C-23.
theorem test_oscEn_write_fails :
    (after (exec (.oscEn true) (ready [(0x0E, 0x9C)] [good, bad])) (fun t => (t.resp.ok, t.reg 0x0E)))
      ∈ [some (false, 0x9C), some (false, 0x1C)] := by decide
-- C-19, C-20.
theorem test_osfGet :
    after (exec (.osfGet true true) (ready [(0x0F, 0x88)] [good])) (fun t => (t.resp.ok, t.resp.flagOut)) = some (true, true) ∧
    after (exec (.osfGet true true) (ready [(0x0F, 0x08)] [good])) (fun t => (t.resp.ok, t.resp.flagOut))
      = some (true, false) := by decide
-- C-16, C-18.
theorem test_tempGet :
    after (exec (.tempGet true true) (ready [(0x11, 0xFF), (0x12, 0xC0)] [good])) (fun t => (t.resp.ok, t.resp.res8, t.resp.frac))
      = some (true, 0xFF, 3) ∧
    after (exec (.tempGet true true) (ready [(0x11, 0x7F), (0x12, 0xBF)] [good])) (fun t => (t.resp.ok, t.resp.res8, t.resp.frac))
      = some (true, 0x7F, 2) := by decide
-- The values C-16 to C-18 give, in quarter degrees: -0.25, -128.00, +127.50.
theorem test_temperature :
    tempQuarters 0xFF 3 = -1 ∧ tempQuarters 0x80 0 = -512 ∧ tempQuarters 0x7F 2 = 510 := by decide

-- P5: another caller's write between the two calls of A1IE_EN is lost, the register ends at A's byte.
theorem test_lost_update :
    after (exec (.a1ieEn true) { ready [(0x0E, 0x04)] [] with
      wire := [.answer good, .move (.dev 0x0E 0x84), .answer good] }) (fun t => (t.resp.ok, t.reg 0x0E))
      = some (true, 0x05) := by decide

/-! ### Witnesses: states and operands that meet the hypotheses of each statement -/

/-- A state with an operation in flight: A1IE_EN after its read. -/
def inFlight : State :=
  { ready [(0x0E, 0x04)] [good] with flight := some { instr := .a1ieEn true, idx := 1, latched := [0x04] } }

theorem goodAnswer_good : GoodAnswer good := ⟨rfl, rfl⟩
theorem badAnswer_bad : BadAnswer bad := ⟨rfl, rfl⟩

theorem answered_ready (d : Memory) (n : Nat) : Answered (ready d (List.replicate n good)) n [] :=
  ⟨List.replicate n good, by simp, fun a ha => by simp [(List.mem_replicate.mp ha).2, goodAnswer_good], by simp [ready]⟩

theorem still_ready (d : Memory) : StillWire (ready d [good, good, good, good, good, bad]) :=
  ⟨[good, good, good, good, good, bad], [], by decide, by decide, by simp [ready]⟩

theorem ready_ready (d : Memory) (as : List Answer) : Ready (ready d as) := ⟨rfl, rfl⟩

theorem wit_ReservedCodesRefused :
    (∀ op ∈ [(0x00 : Byte), 0x03, 0x3F, 0xFF], ∃ (s : State) (c : Command), s.flight = none ∧ s.inputs = .command c :: [] ∧
      c.op = op ∧ decode c = .error (.reservedOp op)) ∧
    (∀ op ∈ [(0x01 : Byte), 0x3E], ∃ (s : State) (c : Command), s.flight = none ∧ s.inputs = .command c :: [] ∧
      c.op = op ∧ c.op.toNat ∈ [0x01, 0x3E]) :=
  ⟨fun op h => ⟨pending (.command { op := op }), { op := op }, rfl, rfl, rfl, by revert op; decide⟩,
   fun op h => ⟨pending (.command { op := op }), { op := op }, rfl, rfl, rfl, by revert op; decide⟩⟩

theorem wit_ReservedOperandsRefused :
    State.reset.flight = none ∧ Instr.wf (.bcdDec 0 0) = false ∧ Instr.wf (.bcdDec 0 5) = false ∧
    Instr.wf (.a1Enc 0x01 tv0 true) = false ∧ Instr.wf (.a2Enc 0xF tv0 true) = false ∧
    Instr.wf (.alarmSet true true true 0x1F false 0 tv0) = false ∧
    Instr.wf (.alarmSet true true false 0 true 0x9 tv0) = false := by decide

theorem wit_StepRunsDecodedCommand :
    ((pending (.command { op := 0x30, hv := true })).flight = none ∧
      (pending (.command { op := 0x30, hv := true })).inputs = .command { op := 0x30, hv := true } :: [] ∧
      decode { op := 0x30, hv := true } = .ok (.oscEn true)) ∧
    inFlight.flight = some { instr := .a1ieEn true, idx := 1, latched := [0x04] } ∧
    (State.reset.flight = none ∧ State.reset.inputs = []) := by decide

theorem wit_SecondCommandRefused :
    ∃ f, inFlight.flight = some f ∧ f.instr ≠ .oscEn true := ⟨_, rfl, by decide⟩

/-- The operation A1IE_EN paused between its two calls. -/
def pausedWire : State := { ready [(0x0E, 0x04)] [] with wire := [.answer good, .pause, .answer good] }

theorem wit_PausedOperationResumes :
    ∃ t u, pausedWire.flight = none ∧ .pause ∉ [WireEvent.answer good] ∧
      pausedWire.wire = [.answer good] ++ .pause :: [.answer good] ∧
      exec (.a1ieEn true) pausedWire = .next t ∧ t.flight ≠ none ∧
      exec (.a1ieEn true) { pausedWire with wire := [.answer good] ++ [.answer good] } = .next u ∧ u.reg 0x0E = 0x05 :=
  ⟨_, _, rfl, by decide, rfl, rfl, by decide, rfl, by decide⟩

theorem wit_InitRule :
    ((pending (.init true)).flight = none ∧ (pending (.init true)).inputs = .init true :: [] ∧
      (pending (.init true)).sess = false) ∧
    (let s := { pending (.init true) with sess := true }; s.flight = none ∧ s.inputs = .init true :: [] ∧ s.sess = true) := by
  decide

theorem wit_DeinitRule :
    ((pending (.deinit true)).flight = none ∧ (pending (.deinit true)).inputs = .deinit true :: [] ∧
      (pending (.deinit true)).sess = false) ∧
    (let s := { pending (.deinit true) with sess := true }; s.flight = none ∧ s.inputs = .deinit true :: [] ∧ s.sess = true) := by
  decide

theorem wit_ResetLeavesDevice :
    (pending .reset).flight = none ∧ (pending .reset).inputs = .reset :: [] := by decide

theorem wit_ReadPrimitiveContract :
    good.during = [] ∧ bad.during = [] ∧ (ready [] []).sess = true ∧ 0x00 + 0x13 ≤ 0x13 ∧ 0x12 + 1 ≤ 0x13 ∧
    good.ok = true ∧ ¬ 0x13 + 1 ≤ 0x13 ∧ bad.ok = false := by decide

theorem wit_WritePrimitiveContract :
    good.during = [] ∧ ((ready [] []).memWrite good 0x12 [0x01]).2 = true ∧
    ((ready [] []).memWrite good 0x13 [0x01]).2 = false ∧ 0 < [(0x01 : Byte)].length := by decide

theorem wit_BcdDecRule :
    State.reset.flight = none ∧ ¬ (1 ≤ (0 : BitVec 3).toNat ∧ (0 : BitVec 3).toNat ≤ 4) ∧
    ¬ (1 ≤ (5 : BitVec 3).toNat ∧ (5 : BitVec 3).toNat ≤ 4) ∧ (1 ≤ (1 : BitVec 3).toNat ∧ (4 : BitVec 3).toNat ≤ 4) ∧
    (0x09 : Byte).toNat < 10 ∧ 10 ≤ (0x0A : Byte).toNat := by decide

theorem wit_BcdEncRule :
    State.reset.flight = none ∧ (100 : Byte).toNat > 99 ∧ (99 : Byte).toNat ≤ 99 := by decide

theorem wit_BcdPairLaws :
    (99 : Byte).toNat ≤ 99 ∧ (79 : Byte).toNat ≤ 79 ∧ (39 : Byte).toNat ≤ 39 ∧ (19 : Byte).toNat ≤ 19 ∧
    99 < (100 : Byte).toNat ∧ 99 < (0x9A : Byte).toNat / 16 * 10 + (0x9A : Byte).toNat % 16 := by decide

theorem wit_TimeDecRule : State.reset.flight = none ∧ (∃ c : Command, c.op = 0x10) := ⟨rfl, ⟨{ op := 0x10 }, rfl⟩⟩

theorem wit_TimeEncRule : State.reset.flight = none ∧ (∃ c : Command, c.op = 0x11) := ⟨rfl, ⟨{ op := 0x11 }, rfl⟩⟩

/-- The largest TimeValues that survive the time block. -/
theorem wit_TimeRoundTrip :
    TimeFits ⟨79, 79, 39, 255, 39, 19, 99, false, false⟩ true ∧ TimeFits ⟨79, 79, 19, 255, 39, 19, 99, false, true⟩ false ∧
    TimeFits tvS8 true := by
  simp [TimeFits, tvS8]

/-- The hypotheses of `RmwShape`, each clause met. -/
theorem wit_RmwShape (addr : Nat) (b : Byte) :
    (State.reset.flight = none ∧ State.reset.sess = false) ∧
    (let s := ready [(addr, b)] [bad]; s.flight = none ∧ s.sess = true ∧ BadAnswer bad ∧ s.wire = .answer bad :: []) ∧
    (let s := ready [(addr, b)] [good, bad]; s.flight = none ∧ s.sess = true ∧ GoodAnswer good ∧ BadAnswer bad ∧
      s.wire = .answer good :: .answer bad :: []) ∧
    (let s := ready [(addr, b)] [good, good]; s.flight = none ∧ s.sess = true ∧ Answered s 2 []) :=
  ⟨⟨rfl, rfl⟩, ⟨rfl, rfl, badAnswer_bad, rfl⟩, ⟨rfl, rfl, goodAnswer_good, badAnswer_bad, rfl⟩,
   ⟨rfl, rfl, answered_ready _ 2⟩⟩

/-- The hypotheses of `RdShape`, each clause met. -/
theorem wit_RdShape (d : Memory) :
    (State.reset.flight = none ∧ State.reset.sess = false) ∧
    (let s := ready d [bad]; s.flight = none ∧ s.sess = true ∧ BadAnswer bad ∧ s.wire = .answer bad :: []) ∧
    (let s := ready d [good]; s.flight = none ∧ s.sess = true ∧ Answered s 1 []) :=
  ⟨⟨rfl, rfl⟩, ⟨rfl, rfl, badAnswer_bad, rfl⟩, ⟨rfl, rfl, answered_ready _ 1⟩⟩

theorem wit_TimeGetRule : (∃ c : Command, c.op = 0x12) ∧ Answered (ready devTime [good]) 1 [] ∧
    BadAnswer bad ∧ (ready devTime [bad]).wire = .answer bad :: [] :=
  ⟨⟨{ op := 0x12 }, rfl⟩, answered_ready _ 1, badAnswer_bad, rfl⟩

theorem wit_ModeGetRule : (∃ c : Command, c.op = 0x14) ∧ Answered (ready [(2, 0x71)] [good]) 1 [] ∧
    BadAnswer bad ∧ (ready [(2, 0x71)] [bad]).wire = .answer bad :: [] :=
  ⟨⟨{ op := 0x14 }, rfl⟩, answered_ready _ 1, badAnswer_bad, rfl⟩

theorem wit_TimeSetRule : (∃ c : Command, c.op = 0x13) ∧ State.reset.flight = none ∧ State.reset.sess = false ∧
    (let s := ready [(0x0F, 0x88)] [good, good, good]; s.flight = none ∧ s.sess = true ∧ Answered s 3 []) :=
  ⟨⟨{ op := 0x13 }, rfl⟩, rfl, rfl, ⟨rfl, rfl, answered_ready _ 3⟩⟩

theorem wit_TimeSetFailureLeftovers :
    (Ready (ready [(0x0F, 0x88)] [bad]) ∧ BadAnswer bad ∧ (ready [(0x0F, 0x88)] [bad]).wire = .answer bad :: []) ∧
    (Ready (ready [(0x0F, 0x88)] [good, bad]) ∧ GoodAnswer good ∧ BadAnswer bad ∧
      (ready [(0x0F, 0x88)] [good, bad]).wire = .answer good :: .answer bad :: []) ∧
    (Ready (ready [(0x0F, 0x88)] [good, good, bad]) ∧
      (ready [(0x0F, 0x88)] [good, good, bad]).wire = .answer good :: .answer good :: .answer bad :: []) :=
  ⟨⟨ready_ready _ _, badAnswer_bad, rfl⟩, ⟨ready_ready _ _, goodAnswer_good, badAnswer_bad, rfl⟩, ⟨ready_ready _ _, rfl⟩⟩

theorem wit_TimeSetThenGet : (let s := ready [(0x0F, 0x88)] (List.replicate 5 good);
    Ready s ∧ Answered s 5 []) ∧ TimeFits tvS8 true ∧ TimeFits ⟨0, 0, 11, 3, 15, 6, 24, false, true⟩ false :=
  ⟨⟨ready_ready _ _, answered_ready _ 5⟩, by simp [TimeFits, tvS8], by simp [TimeFits]⟩

theorem wit_Alarm1EncRule : (∃ c : Command, c.op = 0x21) ∧ State.reset.flight = none ∧
    (0x01 : BitVec 5).toNat ∉ [0x00, 0x08, 0x0C, 0x0E, 0x0F, 0x10] ∧
    (0x1F : BitVec 5).toNat ∉ [0x00, 0x08, 0x0C, 0x0E, 0x0F, 0x10] := ⟨⟨{ op := 0x21 }, rfl⟩, rfl, by decide, by decide⟩

theorem wit_Alarm2EncRule : (∃ c : Command, c.op = 0x23) ∧ State.reset.flight = none ∧
    (0x1 : BitVec 4).toNat ∉ [0x0, 0x4, 0x6, 0x7, 0x8] ∧ (0xF : BitVec 4).toNat ∉ [0x0, 0x4, 0x6, 0x7, 0x8] :=
  ⟨⟨{ op := 0x23 }, rfl⟩, rfl, by decide, by decide⟩

/-- A block of each kind: fingerprints 0x09 and 0x18 are no variant, 0x10 and 0x0F are. -/
theorem wit_Alarm1DecRule : (∃ c : Command, c.op = 0x20) ∧ State.reset.flight = none ∧
    fp1 ⟨0x85, 0x00, 0x08, 0x80⟩ = 0x09 ∧ fp1 ⟨0x00, 0x00, 0x00, 0xC0⟩ = 0x18 ∧
    fp1 ⟨0x00, 0x00, 0x08, 0x45⟩ = 0x10 ∧ fp1 ⟨0xFF, 0xBF, 0x80, 0x80⟩ = 0x0F :=
  ⟨⟨{ op := 0x20 }, rfl⟩, rfl, by decide, by decide, by decide, by decide⟩

/-- A block of each kind: fingerprints 0x1 and 0xC are no variant, 0x8 and 0x7 are. -/
theorem wit_Alarm2DecRule : (∃ c : Command, c.op = 0x22) ∧ State.reset.flight = none ∧
    fp2 ⟨0x80, 0x00, 0x00⟩ = 0x1 ∧ fp2 ⟨0x00, 0x00, 0xC0⟩ = 0xC ∧ fp2 ⟨0x30, 0x07, 0x42⟩ = 0x8 ∧
    fp2 ⟨0x80, 0x80, 0x80⟩ = 0x7 :=
  ⟨⟨{ op := 0x22 }, rfl⟩, rfl, by decide, by decide, by decide, by decide⟩

/-- The largest TimeValues that survive an alarm block. -/
theorem wit_AlarmRoundTrip :
    AlarmFits ⟨79, 79, 39, 39, 39, 0, 0, false, false⟩ false ∧ AlarmFits ⟨79, 79, 19, 39, 39, 0, 0, false, true⟩ true ∧
    AlarmFits tvAl true := by
  simp [AlarmFits, tvAl]

/-- The largest used fields, and fields the variant does not use that fit no block. -/
theorem wit_TagIsFingerprint :
    Used1Fit .secondsMinutesHoursDayOfMonth ⟨79, 79, 39, 255, 39, 255, 255, false, false⟩ false ∧
    Used1Fit .secondsMinutesHoursDayOfWeek ⟨79, 79, 19, 39, 255, 255, 255, false, true⟩ true ∧
    Used1Fit .secondsOnly ⟨79, 255, 255, 255, 255, 255, 255, false, false⟩ true ∧
    Used2Fit .minutesHoursDayOfWeek ⟨255, 79, 39, 39, 255, 255, 255, false, false⟩ false ∧
    Used2Fit .oncePerMinute ⟨255, 255, 255, 255, 255, 255, 255, false, false⟩ true := by
  simp [Used1Fit, Used2Fit, Alarm1Variant.tag, Alarm2Variant.tag]

theorem wit_AlarmSetPreconditions : (∃ c : Command, c.op = 0x25) ∧ (ready [] []).flight = none ∧
    State.reset.sess = false ∧ (0x02 : BitVec 5).toNat ∉ [0x00, 0x08, 0x0C, 0x0E, 0x0F, 0x10] ∧
    (0x9 : BitVec 4).toNat ∉ [0x0, 0x4, 0x6, 0x7, 0x8] ∧ (0x0E : BitVec 5).toNat ≠ 0x0F ∧ (0x6 : BitVec 4).toNat ≠ 0x7 :=
  ⟨⟨{ op := 0x25 }, rfl⟩, rfl, rfl, by decide, by decide, by decide, by decide⟩

/-- A-T1 and A-T2 of 95: a variant with hours and a value, and the one without either. -/
theorem wit_AlarmSet1Rule :
    (let s := ready [(2, 0x14)] (List.replicate 6 good); Ready s ∧ Answered s ([Call.readSingle 0x02].length + 5) [] ∧
      Alarm1Variant.tag .secondsMinutesHours ∈ [0x00#5, 0x08#5, 0x10#5]) ∧
    (let s := ready [] (List.replicate 5 good); Ready s ∧ Answered s (([] : List Call).length + 5) [] ∧
      Alarm1Variant.tag .oncePerSecond ∉ [0x00#5, 0x08#5, 0x10#5]) :=
  ⟨⟨ready_ready _ _, answered_ready _ 6, by decide⟩, ⟨ready_ready _ _, answered_ready _ 5, by decide⟩⟩

theorem wit_AlarmSet2Rule :
    (let s := ready [(2, 0x71)] (List.replicate 6 good); Ready s ∧ Answered s ([Call.readSingle 0x02].length + 5) [] ∧
      Alarm2Variant.tag .minutesHoursDayOfWeek ∈ [0x0#4, 0x4#4, 0x8#4]) ∧
    (let s := ready [] (List.replicate 5 good); Ready s ∧ Answered s (([] : List Call).length + 5) [] ∧
      Alarm2Variant.tag .oncePerMinute ∉ [0x0#4, 0x4#4, 0x8#4]) :=
  ⟨⟨ready_ready _ _, answered_ready _ 6, by decide⟩, ⟨ready_ready _ _, answered_ready _ 5, by decide⟩⟩

/-- A-T8 of 95 for each alarm: the last call fails. -/
theorem wit_AlarmSetFailureLeftovers :
    ∃ s t t' : State, s.flight = none ∧ StillWire s ∧ Alarm1Variant.ofTag 0x08 = some .secondsMinutesHours ∧
      Alarm2Variant.ofTag 0x4 = some .minutesHours ∧
      exec (.alarmSet true true true 0x08 false 0 tvAl) s = .next t ∧ t.resp.ok = false ∧ t.reg 0x0E ≠ s.reg 0x0E ∧
      t.reg 0x0F ≠ s.reg 0x0F ∧
      exec (.alarmSet true true false 0 true 0x4 tvAl) s = .next t' ∧ t'.resp.ok = false ∧ t'.reg 0x0E ≠ s.reg 0x0E :=
  ⟨ready [(2, 0x14), (0x0E, 0x18), (0x0F, 0x8B)] [good, good, good, good, good, bad], _, _, rfl, still_ready _, rfl, rfl, rfl,
   by decide, by decide, by decide, rfl, by decide, by decide⟩

theorem wit_AlarmGetRule : (∃ c : Command, c.op = 0x24) ∧ State.reset.flight = none ∧ State.reset.sess = false ∧
    BadAnswer bad ∧ (ready [] [bad]).wire = .answer bad :: [] ∧ Answered (ready [] [good]) 1 [] ∧
    a1Dec (ready [(7, 0x80)] [good]).alarm1Regs tv0 = .error .fingerprint ∧
    a1Dec (ready [(9, 0x08), (10, 0x80)] [good]).alarm1Regs tv0
      = .ok (.secondsMinutesHours, ⟨0, 0, 8, 9, 9, 9, 9, false, false⟩) ∧
    a2Dec (ready [(11, 0x80)] [good]).alarm2Regs tv0 = .error .fingerprint ∧
    a2Dec (ready [(11, 0x30), (12, 0x07), (13, 0x42)] [good]).alarm2Regs tv0
      = .ok (.minutesHoursDayOfWeek, ⟨9, 30, 7, 2, 9, 9, 9, false, false⟩) :=
  ⟨⟨{ op := 0x24 }, rfl⟩, rfl, rfl, badAnswer_bad, rfl, answered_ready _ 1, by decide, by decide, by decide, by decide⟩

theorem wit_AlarmSetThenGet : (let s := ready [(2, 0x14)] (List.replicate 7 good);
    Ready s ∧ AlarmFits ⟨0, 0, 8, 0, 0, 0, 0, false, false⟩ ((s.reg 0x02).getLsbD 6) ∧ Answered s (6 + 1) []) ∧
    (callTable (.alarmSet true true true (Alarm1Variant.tag .secondsMinutesHours) false 0 tv0)).length = 6 :=
  ⟨⟨ready_ready _ _, by unfold AlarmFits; decide, answered_ready _ 7⟩, by decide⟩

/-- Each alarm with a value (7 calls with the get) and without one (6 calls). -/
theorem wit_EitherAlarmSetThenGet :
    (let s := ready [(2, 0x14)] (List.replicate 7 good); Ready s ∧ Answered s (6 + 1) [] ∧
      Used1Fit .secondsMinutesHours ⟨0, 0, 39, 255, 255, 255, 255, false, false⟩ ((s.reg 0x02).getLsbD 6) ∧
      Used2Fit .minutesHours ⟨255, 30, 39, 255, 255, 255, 255, false, false⟩ ((s.reg 0x02).getLsbD 6)) ∧
    (callTable (.alarmSet true true true (Alarm1Variant.tag .secondsMinutesHours) false 0 tv0)).length = 6 ∧
    (callTable (.alarmSet true true false 0 true (Alarm2Variant.tag .minutesHours) tv0)).length = 6 ∧
    (let s := ready [] (List.replicate 6 good); Ready s ∧ Answered s (5 + 1) [] ∧
      Used1Fit .oncePerSecond tv0 ((s.reg 0x02).getLsbD 6) ∧ Used2Fit .oncePerMinute tv0 ((s.reg 0x02).getLsbD 6)) ∧
    (callTable (.alarmSet true false true (Alarm1Variant.tag .oncePerSecond) false 0 tv0)).length = 5 ∧
    (callTable (.alarmSet true false false 0 true (Alarm2Variant.tag .oncePerMinute) tv0)).length = 5 :=
  ⟨⟨ready_ready _ _, answered_ready _ 7, by unfold Used1Fit; decide, by unfold Used2Fit; decide⟩, by decide, by decide,
   ⟨ready_ready _ _, answered_ready _ 6, by unfold Used1Fit; decide, by unfold Used2Fit; decide⟩, by decide, by decide⟩

theorem wit_OscillatorAccessors : (∃ c : Command, c.op = 0x30) ∧ (∃ c : Command, c.op = 0x31) ∧
    Answered (ready [(0x0E, 0x9C)] [good, good]) 2 [] := ⟨⟨{ op := 0x30 }, rfl⟩, ⟨{ op := 0x31 }, rfl⟩, answered_ready _ 2⟩

theorem wit_Output32kAccessors : (∃ c : Command, c.op = 0x32) ∧ (∃ c : Command, c.op = 0x33) ∧
    Answered (ready [(0x0F, 0x83)] [good, good]) 2 [] := ⟨⟨{ op := 0x32 }, rfl⟩, ⟨{ op := 0x33 }, rfl⟩, answered_ready _ 2⟩

theorem wit_SquareWaveAccessors : (∃ c : Command, c.op = 0x34) ∧ (∃ c : Command, c.op = 0x35) ∧
    Answered (ready [(0x0E, 0x1F)] [good, good]) 2 [] := ⟨⟨{ op := 0x34 }, rfl⟩, ⟨{ op := 0x35 }, rfl⟩, answered_ready _ 2⟩

theorem wit_AlarmEnableAccessors : (∃ c : Command, c.op = 0x36) ∧ (∃ c : Command, c.op = 0x37) ∧
    (∃ c : Command, c.op = 0x38) ∧ (∃ c : Command, c.op = 0x39) ∧ Answered (ready [(0x0E, 0x07)] [good, good]) 2 [] :=
  ⟨⟨{ op := 0x36 }, rfl⟩, ⟨{ op := 0x37 }, rfl⟩, ⟨{ op := 0x38 }, rfl⟩, ⟨{ op := 0x39 }, rfl⟩, answered_ready _ 2⟩

theorem wit_FlagClearAccessors : (∃ c : Command, c.op = 0x3A) ∧ (∃ c : Command, c.op = 0x3B) ∧
    (∃ c : Command, c.op = 0x3D) ∧ Answered (ready [(0x0F, 0x8B)] [good, good]) 2 [] :=
  ⟨⟨{ op := 0x3A }, rfl⟩, ⟨{ op := 0x3B }, rfl⟩, ⟨{ op := 0x3D }, rfl⟩, answered_ready _ 2⟩

theorem wit_OsfGetRule : (∃ c : Command, c.op = 0x3C) ∧ Answered (ready [(0x0F, 0x88)] [good]) 1 [] :=
  ⟨⟨{ op := 0x3C }, rfl⟩, answered_ready _ 1⟩

theorem wit_TempGetRule : (∃ c : Command, c.op = 0x3E) ∧ Answered (ready [(0x11, 0xFF), (0x12, 0xC0)] [good]) 1 [] :=
  ⟨⟨{ op := 0x3E }, rfl⟩, answered_ready _ 1⟩

theorem wit_AccessorLaws :
    (let s := ready [(0x0E, 0x5A), (0x0F, 0x8B)] (List.replicate 4 good); Ready s ∧ Answered s 4 []) ∧
    (handleBit (.sqwEn true 3 true) = some true ∧ accessorBits (.sqwEn true 3 true) ≠ none) ∧
    (handleBit (.oscDis true) = some true ∧ accessorBits (.oscDis true) = some (0x0E, [7]) ∧
      accessorBits (.sqwEn true 3 true) = some (0x0E, [6, 4, 3, 2]) ∧ ∀ k ∈ [7], k ∉ [6, 4, 3, 2]) :=
  ⟨⟨ready_ready _ _, answered_ready _ 4⟩, by decide, by decide⟩

/-- A wire on which other agents change three registers, the control byte twice, between the first two answers. -/
def staleWire (rest : List WireEvent) : State :=
  { ready [(0x0E, 0x9C), (0x0F, 0x88)] [] with
    wire := .answer good :: (registerMoves [(0x0E, 0x9D), (0x0F, 0x89), (0x10, 0x55), (0x0E, 0x9F)] ++ .answer good :: rest) }

theorem wit_StaleLatchedByte :
    (Ready (staleWire []) ∧ GoodAnswer good ∧ (staleWire []).wire = .answer good ::
      (registerMoves [(0x0E, 0x9D), (0x0F, 0x89), (0x10, 0x55), (0x0E, 0x9F)] ++ .answer good :: [])) ∧
    (Ready (staleWire [.answer good]) ∧ (staleWire [.answer good]).wire = .answer good ::
      (registerMoves [(0x0E, 0x9D), (0x0F, 0x89), (0x10, 0x55), (0x0E, 0x9F)] ++ .answer good :: .answer good :: [])) :=
  ⟨⟨⟨rfl, rfl⟩, goodAnswer_good, rfl⟩, ⟨⟨rfl, rfl⟩, rfl⟩⟩

-- 70 R314: OSC_EN overwrites what was put in the control byte, and leaves what was put in the other two.
theorem test_stale_byte :
    after (exec (.oscEn true) (staleWire [])) (fun t => (t.resp.ok, t.reg 0x0E, t.reg 0x0F, t.reg 0x10))
      = some (true, 0x1C, 0x89, 0x55) := by decide

/-- Both windows of an ALARM_SET that reads the hours, and of one that does not. -/
theorem wit_StaleByteInAlarmSet :
    (∀ a ∈ [good, good, good] ++ [good, good, good], GoodAnswer a) ∧ [good, good, good].length = 1 + 2 ∧
    [good, good].length = 0 + 2 ∧ Alarm1Variant.tag .secondsMinutesHours ∈ [0x00#5, 0x08#5, 0x10#5] ∧
    Alarm2Variant.tag .oncePerMinute ∉ [0x0#4, 0x4#4, 0x8#4] ∧
    ∀ before : List Answer, ∃ s : State, Ready s ∧ s.wire = before.map .answer ++ (registerMoves [(0x0E, 0x9D)] ++
      .answer good :: .answer good :: (registerMoves [(0x0F, 0x89)] ++ .answer good :: [])) :=
  ⟨by simp [goodAnswer_good], rfl, rfl, by decide, by decide, fun before => ⟨{ ready [] [] with
    wire := before.map .answer ++ (registerMoves [(0x0E, 0x9D)] ++ .answer good :: .answer good ::
      (registerMoves [(0x0F, 0x89)] ++ .answer good :: [])) }, ⟨rfl, rfl⟩, rfl⟩⟩

theorem wit_DeinitInsideOperation :
    let s := { ready [(0x0E, 0x9C)] [] with wire := [.answer good, .move .deinit, .answer good] }
    Ready s ∧ GoodAnswer good ∧ good.during = [] ∧ s.wire = .answer good :: .move .deinit :: .answer good :: [] :=
  ⟨⟨rfl, rfl⟩, goodAnswer_good, rfl, rfl⟩

theorem wit_HandleAndSessionChecked :
    (ready [] []).flight = none ∧ handleBit (.tempGet false true) = some false ∧
    State.reset.flight = none ∧ handleBit (.oscEn true) = some true ∧ State.reset.sess = false := by decide

/-- A still wire on which OSF_CLR passes and changes the status byte: the hypotheses of the whole-machine rules. -/
theorem wit_stillRun : ∃ s t : State, s.flight = none ∧ StillWire s ∧ exec (.osfClr true) s = .next t ∧ t.resp.ok = true ∧
    (s.reg 0x0F).getLsbD 7 = true ∧ (t.reg 0x0F).getLsbD 7 = false ∧ (t.reg 0x0F).getLsbD 1 = true :=
  ⟨ready [(0x0F, 0x8B)] [good, good, good, good, good, bad], _, rfl, still_ready _, rfl, by decide, by decide, by decide,
   by decide⟩

theorem wit_CallsFollowTable : ∃ s t : State, s.flight = none ∧ StillWire s ∧
    exec (.alarmSet true true true 0x0F false 0 tv0) s = .next t ∧ t.resp.ok = true :=
  ⟨ready [] [good, good, good, good, good, bad], _, rfl, still_ready _, rfl, by decide⟩

theorem wit_SessionNeverWritten : ∃ s t : State, s.flight = none ∧ StillWire s ∧ exec (.oscDis true) s = .next t :=
  ⟨ready [] [good, good, good, good, good, bad], _, rfl, still_ready _, rfl⟩

theorem wit_TemperatureNeverWritten : ∃ s t : State, s.flight = none ∧ StillWire s ∧
    exec (.timeSet true true tvS8 true) s = .next t ∧ (0x10 ≤ 0x10 ∧ 0x10 ≤ 0x12) :=
  ⟨ready [] [good, good, good, good, good, bad], _, rfl, still_ready _, rfl, by decide⟩

theorem wit_FlagsOnlyCleared : ∃ s t : State, s.flight = none ∧ StillWire s ∧ exec (.a1fClr true) s = .next t ∧
    (t.reg 0x0F).getLsbD 7 = true ∧ (t.reg 0x0F).getLsbD 1 = true ∧ (t.reg 0x0F).getLsbD 0 = false :=
  ⟨ready [(0x0F, 0x8B)] [good, good, good, good, good, bad], _, rfl, still_ready _, rfl, by decide, by decide, by decide⟩

theorem wit_UnnamedBitsKept : ∃ s t : State, s.flight = none ∧ StillWire s ∧ exec (.sqwEn true 3 true) s = .next t ∧
    (s.reg 0x0E).getLsbD 5 = true :=
  ⟨ready [(0x0E, 0x20), (0x0F, 0x54)] [good, good, good, good, good, bad], _, rfl, still_ready _, rfl, by decide⟩

theorem wit_OperationsForgetThePast : ∃ s t t' : State, s.flight = none ∧ exec (.modeGet true true) s = .next t ∧
    exec (.modeGet true true) { s with resp := Response.reset, sessAnswer := true, inputs := [.reset], trace := [.readSingle 0] }
      = .next t' ∧ t.flight = none :=
  ⟨ready [(2, 0x71)] [good], _, _, rfl, rfl, rfl, by decide⟩

theorem wit_ResetMeetsInvariant : Memory.wf [(0x00, 0x45), (0x12, 0x40)] = true := by decide

theorem inFlight_inv : inFlight.Inv :=
  ⟨by decide, fun f h => (by cases h; rfl), fun f h => (by cases h; decide)⟩

theorem wit_StepKeepsInvariant : ∃ t, inFlight.Inv ∧ step inFlight = .next t ∧ t.reg 0x0E = 0x05 :=
  ⟨_, inFlight_inv, rfl, by decide⟩

theorem wit_CanonicalDevicesEqual : inFlight.Inv ∧ (ready [(0x0E, 0x04)] []).Inv ∧
    (∀ a, inFlight.reg a = (ready [(0x0E, 0x04)] []).reg a) :=
  ⟨inFlight_inv, ⟨by decide, (fun _ h => nomatch h), (fun _ h => nomatch h)⟩, fun _ => rfl⟩

end Sys2Proof.Machine.Tests
end

section
/-! PROOFS. The invariant: what every step keeps (10 R33, R54, 20 R73), that it holds after reset, and that the canonical form
of the register file is unique. -/

namespace Sys2Proof.Machine

/-! ### Which meaning a step runs -/

/-- An operation in flight is carried on before any input is taken. -/
theorem step_of_flight {s : State} {f : Flight} (hf : s.flight = some f) : step s = exec f.instr s := by
  simp only [step, hf]

/-- With nothing in flight and no input the block waits. -/
theorem step_of_no_input {s : State} (hf : s.flight = none) (hi : s.inputs = []) : step s = .next s := by
  simp only [step, hf, hi, State.idle]

section
variable {s : State} {rest : List Input}

theorem step_of_command {c : Command} (hf : s.flight = none) (hi : s.inputs = .command c :: rest) :
    (∃ i, step s = exec i { s with inputs := rest }) ∨
      ∃ r, step s = .next (State.rejectCommand { s with inputs := rest } r) := by
  simp only [step, hf, hi]
  cases decode c with
  | ok i => exact .inl ⟨i, rfl⟩
  | error r => exact .inr ⟨r, rfl⟩

theorem step_of_init {b : Bool} (hf : s.flight = none) (hi : s.inputs = .init b :: rest) :
    step s = .next (State.initSession { s with inputs := rest } b) := by simp only [step, hf, hi]

theorem step_of_deinit {b : Bool} (hf : s.flight = none) (hi : s.inputs = .deinit b :: rest) :
    step s = .next (State.deinitSession { s with inputs := rest } b) := by simp only [step, hf, hi]

theorem step_of_reset (hf : s.flight = none) (hi : s.inputs = .reset :: rest) :
    step s = .next (State.resetBlock { s with inputs := rest }) := by simp only [step, hf, hi]

theorem step_of_move {m : EnvMove} (hf : s.flight = none) (hi : s.inputs = .move m :: rest) :
    step s = .next (State.applyMove { s with inputs := rest } m) := by simp only [step, hf, hi]

end

/-! ### The invariant through one operation -/

/-- With nothing in flight the invariant is the canonical form of the register file alone. -/
theorem inv_of_flight_none {s : State} (hd : s.dev.wf = true) (hf : s.flight = none) : s.Inv where
  devCanonical := hd
  flightHandle f h := by simp [hf] at h
  flightIndex f h := by simp [hf] at h

/-- The steps of an operation from step `k` on keep the invariant: they end the operation, or leave it at one of its steps. -/
theorem inv_runSteps {i : Instr} {checks : State → List (Bool × FailCause)} {steps : List OpStep}
    {fin : List Byte → Except FailCause Results} (form : HasForm i checks steps fin) (k : Nat) (l : List Byte) {s : State}
    (hd : s.dev.wf = true) (hh : steps ≠ [] → handleBit i = some true) :
    (runSteps i fin (steps.drop k) k l s).Inv := by
  have inOwn : ∀ f, (runSteps i fin (steps.drop k) k l s).flight = some f → f.instr = i ∧ f.idx < steps.length := by
    intro f h
    obtain ⟨hi, hlo, hhi⟩ := runSteps_flight _ k l s f h
    rw [List.length_drop] at hhi
    exact ⟨hi, by omega⟩
  refine ⟨wf_runSteps _ k l hd, fun f h => ?_, fun f h => ?_⟩ <;> obtain ⟨rfl, hidx⟩ := inOwn f h
  · exact hh (List.ne_nil_of_length_pos (by omega))
  · exact Nat.lt_of_lt_of_le hidx form.table_length

/-- Every meaning keeps the invariant, whether it starts or carries on its operation. -/
theorem inv_exec {i : Instr} {s t : State} (hs : s.Inv) (h : exec i s = .next t) : t.Inv := by
  obtain ⟨checks, steps, fin, form⟩ := exec_form i
  rw [form.exec_eq] at h
  cases hf : s.flight with
  | none =>
    obtain ⟨c, rfl⟩ | ⟨hc, rfl⟩ := operation_cases hf h
    · exact inv_of_flight_none hs.devCanonical rfl
    · exact inv_runSteps form 0 [] hs.devCanonical fun hne => (form.transport s (firstFailed_none.mpr hc) hne).2
  | some f =>
    by_cases hi : f.instr = i
    · rw [operation_resume hf hi] at h
      obtain rfl := Host.Outcome.next.inj h
      exact inv_runSteps form f.idx f.latched hs.devCanonical fun _ => hi ▸ hs.flightHandle f hf
    · rw [operation_busy hf hi] at h
      cases h

/-- Settles O56: a step runs a meaning, which keeps the invariant (`inv_exec`), or takes an input that puts nothing in flight. -/
theorem stepKeepsInvariant : Obligations.StepKeepsInvariant := by
  intro s t hs h
  cases hf : s.flight with
  | some f => exact inv_exec hs (step_of_flight hf ▸ h)
  | none =>
    have hd := hs.devCanonical
    cases hi : s.inputs with
    | nil =>
      obtain rfl := Host.Outcome.next.inj ((step_of_no_input hf hi).symm.trans h)
      exact hs
    | cons x rest =>
      cases x with
      | command c =>
        obtain ⟨i, he⟩ | ⟨r, he⟩ := step_of_command hf hi <;> rw [he] at h
        · exact inv_exec (s := { s with inputs := rest }) (inv_of_flight_none hd hf) h
        · obtain rfl := Host.Outcome.next.inj h
          cases r
          exact inv_of_flight_none hd rfl
      | init b =>
        obtain rfl := Host.Outcome.next.inj ((step_of_init hf hi).symm.trans h)
        exact inv_of_flight_none hd hf
      | deinit b =>
        obtain rfl := Host.Outcome.next.inj ((step_of_deinit hf hi).symm.trans h)
        exact inv_of_flight_none hd hf
      | reset =>
        obtain rfl := Host.Outcome.next.inj ((step_of_reset hf hi).symm.trans h)
        exact inv_of_flight_none hd rfl
      | move m =>
        obtain rfl := Host.Outcome.next.inj ((step_of_move hf hi).symm.trans h)
        exact inv_of_flight_none (wf_applyMove m hd) ((applyMove_flight _ m).trans hf)

/-! ### Reset -/

/-- Settles O55: after reset nothing is in flight, and the device is as it was. -/
theorem resetMeetsInvariant : Obligations.ResetMeetsInvariant :=
  have reset_inv (d : Memory) (hd : d.wf = true) : (State.resetWith d).Inv := inv_of_flight_none hd (resetWith_flight d)
  ⟨reset_inv, reset_inv [] rfl⟩

/-- Settles O12: `State.resetWith` by its fields, and a pending reset as the step that takes it (`step_of_reset`). -/
theorem resetLeavesDevice : Obligations.ResetLeavesDevice := by
  refine ⟨fun d => ⟨rfl, rfl, rfl⟩, fun s rest hf hi => ⟨_, step_of_reset hf hi, ?_⟩⟩
  simp only [State.resetBlock, hf]

/-! ### The canonical form is unique -/

/-- A canonical list reads as unlisted below its first entry only, so a list that reads alike starts no later. -/
theorem Memory.head_le_of_read_eq {lo lo' a b : Nat} {v w : Byte} {m n : Memory}
    (hm : Memory.wfFrom lo ((a, v) :: m) = true) (hn : Memory.wfFrom lo' ((b, w) :: n) = true)
    (h : ∀ x, Memory.read ((a, v) :: m) x = Memory.read ((b, w) :: n) x) : b ≤ a := by
  obtain ⟨-, -, hv, -⟩ := Memory.wfFrom_cons.mp hm
  obtain ⟨-, hb, hw, hn'⟩ := Memory.wfFrom_cons.mp hn
  by_contra hlt
  have hread := h a
  rw [Memory.read_below (Memory.wfFrom_cons.mpr ⟨Nat.le_refl b, hb, hw, hn'⟩) (by omega)] at hread
  exact hv (by simpa [Memory.read] using hread)

/-- A canonical register file that reads as unlisted everywhere lists nothing. -/
theorem Memory.eq_nil_of_read_unlisted {lo : Nat} {m : Memory} (hm : Memory.wfFrom lo m = true)
    (h : ∀ x, m.read x = Memory.unlisted) : m = [] := by
  cases m with
  | nil => rfl
  | cons e m =>
    obtain ⟨-, -, hv, -⟩ := Memory.wfFrom_cons.mp hm
    exact absurd (by simpa [Memory.read] using h e.1) hv

/-- Canonical register files that read alike are the same list. -/
theorem Memory.eq_of_read_eq {lo lo' : Nat} {m n : Memory} (hm : Memory.wfFrom lo m = true)
    (hn : Memory.wfFrom lo' n = true) (h : ∀ x, m.read x = n.read x) : m = n := by
  induction m generalizing lo lo' n with
  | nil => exact (Memory.eq_nil_of_read_unlisted hn fun x => (h x).symm).symm
  | cons e m ih =>
    obtain ⟨a, v⟩ := e
    cases n with
    | nil => exact Memory.eq_nil_of_read_unlisted hm h
    | cons e' n =>
      obtain ⟨b, w⟩ := e'
      obtain rfl : a = b :=
        Nat.le_antisymm (Memory.head_le_of_read_eq hn hm fun x => (h x).symm) (Memory.head_le_of_read_eq hm hn h)
      obtain ⟨-, -, -, hm'⟩ := Memory.wfFrom_cons.mp hm
      obtain ⟨-, -, -, hn'⟩ := Memory.wfFrom_cons.mp hn
      obtain rfl : v = w := by simpa [Memory.read] using h a
      have tails : ∀ x, Memory.read m x = Memory.read n x := by
        intro x
        by_cases hx : x = a
        · rw [Memory.read_below hm' (by omega), Memory.read_below hn' (by omega)]
        · simpa [Memory.read, hx] using h x
      rw [ih hm' hn' tails]

/-- Settles O57, by the uniqueness of the canonical form (`Memory.eq_of_read_eq`). -/
theorem canonicalDevicesEqual : Obligations.CanonicalDevicesEqual :=
  fun _ _ hs ht h => Memory.eq_of_read_eq hs.devCanonical ht.devCanonical h

end Sys2Proof.Machine
end

section
/-! PROOFS. What an operation depends on: it runs the same through a pause (10 R54), and it reads no response port, no pending
input and no earlier call (10 R30, 60 R289). -/

namespace Sys2Proof.Machine

section
variable {i : Instr} {fin : List Byte → Except FailCause Results} {st : OpStep} {rest : List OpStep} {k : Nat} {l : List Byte}

/-! ### A pause -/

/-- A draw looks at the wire it is given, not at the one in the state. -/
theorem drawFrom_with_wire (w x : List WireEvent) (s : State) : drawFrom w { s with wire := x } = drawFrom w s := by
  induction w generalizing s with
  | nil => rfl
  | cons e w ih =>
    cases e with
    | pause => rfl
    | answer a => rfl
    | move m =>
      have h : State.applyMove { s with wire := x } m = { s.applyMove m with wire := x } := by cases m <;> rfl
      simp only [drawFrom, h, ih]

/-- What a call does to the registers, and the bytes it latches, depend on the session and the registers alone; besides the
registers it changes only the trace. -/
theorem call_effect (st : OpStep) (a : Answer) (l : List Byte) (s : State) : ∃ d r c, ∀ s' : State, s'.sess = s.sess →
    s'.dev = s.dev → st.call a l s' = ({ s' with dev := d, trace := c :: s'.trace }, r) := by
  cases st with
  | read start n =>
    cases ok : s.sess && inRange start n && a.ok with
    | false =>
      refine ⟨s.dev, none, readCall start n, fun s' hs hd => ?_⟩
      simp only [OpStep.call, State.memRead, State.callSucceeds, hs, hd, ok, Bool.false_eq_true, if_false]
    | true =>
      refine ⟨(s.dev.transferIn a start n 0).1, some (s.dev.transferIn a start n 0).2, readCall start n, fun s' hs hd => ?_⟩
      simp only [OpStep.call, State.memRead, State.callSucceeds, hs, hd, ok, if_true]
  | write start f =>
    refine ⟨(s.memWrite a start (f l)).1.dev, if (s.memWrite a start (f l)).2 then some l else none, writeCall start (f l), ?_⟩
    rintro ⟨_, _, _, _, _, _, _, _, _⟩ rfl rfl
    rfl

/-- The steps from a state depend on it through what the next draw gives. -/
theorem runSteps_of_draw_eq {s s' : State} (h : drawFrom s.wire s = drawFrom s'.wire s') :
    runSteps i fin (st :: rest) k l s = runSteps i fin (st :: rest) k l s' := by
  rw [runSteps, runSteps, h]

/-- A draw up to the first pause of the wire: either the pause comes before an answer, and the draw without it goes on from the
state the pause leaves, or an answer comes first, and both draws give it in the same state up to the rest of the wire. -/
theorem drawFrom_before_pause {w1 : List WireEvent} (w2 : List WireEvent) (hp : .pause ∉ w1) (s : State) :
    (∃ s1 : State, drawFrom (w1 ++ .pause :: w2) s = .paused { s1 with wire := w2 } ∧ s1.flight = s.flight ∧
      drawFrom (w1 ++ w2) s = drawFrom w2 s1) ∨
    (∃ (s1 : State) (a : Answer) (w : List WireEvent),
      drawFrom (w1 ++ .pause :: w2) s = .answered { s1 with wire := w ++ .pause :: w2 } a ∧
      s1.flight = s.flight ∧ .pause ∉ w ∧ drawFrom (w1 ++ w2) s = .answered { s1 with wire := w ++ w2 } a) := by
  induction w1 generalizing s with
  | nil => exact .inl ⟨s, rfl, rfl, rfl⟩
  | cons e w1 ih =>
    rw [List.mem_cons, not_or] at hp
    cases e with
    | pause => exact absurd rfl hp.1
    | answer a => exact .inr ⟨s, a, w1, rfl, rfl, hp.2, rfl⟩
    | move m => exact applyMove_flight s m ▸ ih hp.2 (s.applyMove m)

/-- Steps that stop at the first pause of the wire leave in flight all that the rest of them needs: carried on from there, they
end as on the wire without the pause. -/
theorem runSteps_resume {steps : List OpStep} {s : State} {w1 w2 : List WireEvent} {f : Flight} (hs : s.flight = none)
    (hp : .pause ∉ w1) (hw : s.wire = w1 ++ .pause :: w2) (hf : (runSteps i fin steps k l s).flight = some f) :
    runSteps i fin (steps.drop (f.idx - k)) f.idx f.latched { runSteps i fin steps k l s with flight := none } =
      runSteps i fin steps k l { s with wire := w1 ++ w2 } := by
  induction steps generalizing k l s w1 with
  | nil => rw [runSteps_nil, respond_flight] at hf; cases hf
  | cons st rest ih =>
    obtain ⟨s1, hd, hs1, hd'⟩ | ⟨s1, a, w, hd, hs1, hw', hd'⟩ := drawFrom_before_pause w2 hp s <;>
      rw [hs] at hs1 <;> rw [← hw] at hd <;> rw [← drawFrom_with_wire _ (w1 ++ w2)] at hd'
    · rw [runSteps_paused hd] at hf ⊢
      obtain rfl := Option.some.inj hf
      rw [Nat.sub_self, List.drop_zero]
      refine runSteps_of_draw_eq (Eq.trans ?_ hd'.symm)
      rw [← hs1]
      exact drawFrom_with_wire w2 w2 s1
    · obtain ⟨d, r, c, hc⟩ := call_effect st a l s1
      have hc := fun x => hc { s1 with wire := x } rfl rfl
      cases r with
      | none =>
        rw [runSteps_failed hd (hc _)] at hf
        cases hf
      | some l2 =>
        rw [runSteps_next hd (hc _)] at hf ⊢
        obtain ⟨-, hlo, -⟩ := runSteps_flight _ _ _ _ _ hf
        rw [runSteps_next hd' (hc _), show f.idx - k = (f.idx - (k + 1)) + 1 by omega, List.drop_succ_cons]
        exact ih (by exact hs1) hw' rfl hf

/-- Settles O9: the step after the pause carries the operation on from its index and latched bytes (`runSteps_resume`). -/
theorem pausedOperationResumes : Obligations.PausedOperationResumes := by
  intro i s t u w1 w2 hs hp hw ht hflight hu
  obtain ⟨checks, steps, fin, form⟩ := exec_form i
  rw [form.exec_eq] at ht hu
  obtain ⟨c, rfl⟩ | ⟨hc, rfl⟩ := operation_cases hs ht
  · exact absurd rfl hflight
  · obtain ⟨f, hf⟩ := Option.ne_none_iff_exists'.mp hflight
    obtain ⟨hi, -, -⟩ := runSteps_flight _ _ _ _ _ hf
    rw [form.checks_sess s { s with wire := w1 ++ w2 } rfl,
      operation_start (s := { s with wire := w1 ++ w2 }) hs hc] at hu
    rw [step_of_flight hf, hi, form.exec_eq, operation_resume hf hi, ← hu]
    exact congrArg Host.Outcome.next (runSteps_resume hs hp hw hf)

/-! ### The past -/

/-- Two states with the same present: the session, the registers, the wire, the operation in flight and the counter of free values.
The response ports, the session answer, the pending inputs and the trace may differ. -/
structure SamePresent (s s' : State) : Prop where
  sess : s'.sess = s.sess
  dev : s'.dev = s.dev
  wire : s'.wire = s.wire
  flight : s'.flight = s.flight
  free : s'.free = s.free

section
variable {s s' : State}

theorem samePresent_applyMove (h : SamePresent s s') (m : EnvMove) : SamePresent (s.applyMove m) (s'.applyMove m) := by
  obtain ⟨hs, hd, hw, hf, hn⟩ := h
  cases m with
  | dev a b => exact ⟨hs, congrArg (Memory.write · a.val b) hd, hw, hf, hn⟩
  | init => exact ⟨rfl, hd, hw, hf, hn⟩
  | deinit => exact ⟨rfl, hd, hw, hf, hn⟩

theorem samePresent_applyMoves (h : SamePresent s s') (ms : List EnvMove) :
    SamePresent (s.applyMoves ms) (s'.applyMoves ms) := by
  induction ms generalizing s s' with
  | nil => exact h
  | cons m ms ih => exact ih (samePresent_applyMove h m)

/-- From states with the same present the wire gives the same pause or the same answer. -/
theorem samePresent_drawFrom (h : SamePresent s s') (w : List WireEvent) :
    (∃ u u', drawFrom w s = .paused u ∧ drawFrom w s' = .paused u' ∧ SamePresent u u') ∨
    (∃ u u' a, drawFrom w s = .answered u a ∧ drawFrom w s' = .answered u' a ∧ SamePresent u u') := by
  induction w generalizing s s' with
  | nil =>
    refine .inr ⟨_, _, _, rfl, by rw [drawFrom, h.free], samePresent_applyMoves ?_ _⟩
    exact ⟨h.sess, h.dev, rfl, h.flight, rfl⟩
  | cons e w ih =>
    cases e with
    | pause => exact .inl ⟨_, _, rfl, rfl, h.sess, h.dev, rfl, h.flight, h.free⟩
    | answer a => exact .inr ⟨_, _, a, rfl, rfl, h.sess, h.dev, rfl, h.flight, h.free⟩
    | move m => exact ih (samePresent_applyMove h m)

/-- Two ends of one operation: the same present, and the same response if the operation is over. -/
def SameEnd (t t' : State) : Prop := SamePresent t t' ∧ (t.flight = none → t'.resp = t.resp)

theorem sameEnd_fail (h : SamePresent s s') (c : FailCause) : SameEnd (s.fail c) (s'.fail c) :=
  ⟨⟨h.sess, h.dev, h.wire, rfl, congrArg (· + 1) h.free⟩, fun _ => congrArg (Response.unspecified false) h.free⟩

theorem sameEnd_respond (h : SamePresent s s') (r : Except FailCause Results) : SameEnd (s.respond r) (s'.respond r) := by
  cases r with
  | ok r =>
    exact ⟨⟨h.sess, h.dev, h.wire, rfl, congrArg (· + 1) h.free⟩, fun _ => congrArg (Response.pass r) h.free⟩
  | error c => exact sameEnd_fail h c

theorem sameEnd_runSteps (h : SamePresent s s') (steps : List OpStep) (k : Nat) (l : List Byte) :
    SameEnd (runSteps i fin steps k l s) (runSteps i fin steps k l s') := by
  induction steps generalizing k l s s' with
  | nil => exact sameEnd_respond h (fin l)
  | cons st rest ih =>
    obtain ⟨u, u', hu, hu', hsame⟩ | ⟨u, u', a, hu, hu', hsame⟩ := samePresent_drawFrom h s.wire <;>
      rw [← h.wire] at hu'
    · rw [runSteps_paused hu, runSteps_paused hu']
      exact ⟨⟨hsame.sess, hsame.dev, hsame.wire, rfl, hsame.free⟩, fun hf => nomatch hf⟩
    · obtain ⟨d, r, c, hc⟩ := call_effect st a l u
      have same : SamePresent { u with dev := d, trace := c :: u.trace } { u' with dev := d, trace := c :: u'.trace } :=
        ⟨hsame.sess, rfl, hsame.wire, hsame.flight, hsame.free⟩
      cases r with
      | none =>
        rw [runSteps_failed hu (hc u rfl rfl), runSteps_failed hu' (hc u' hsame.sess hsame.dev)]
        exact sameEnd_fail same _
      | some l2 =>
        rw [runSteps_next hu (hc u rfl rfl), runSteps_next hu' (hc u' hsame.sess hsame.dev)]
        exact ih same (k + 1) l2

theorem sameEnd_operation {checks : List (Bool × FailCause)} {steps : List OpStep} {t t' : State} (h : SamePresent s s')
    (hf : s.flight = none) (ht : operation i checks steps fin s = .next t)
    (ht' : operation i checks steps fin s' = .next t') : SameEnd t t' := by
  simp only [operation, hf, h.flight.trans hf] at ht ht'
  cases hc : firstFailed checks <;> simp only [hc] at ht ht' <;> obtain rfl := Host.Outcome.next.inj ht <;>
    obtain rfl := Host.Outcome.next.inj ht'
  · exact sameEnd_runSteps h steps 0 []
  · exact sameEnd_fail h _

end

/-- Settles O54: the two runs start with the same present, and every part of an operation keeps that. -/
theorem operationsForgetThePast : Obligations.OperationsForgetThePast := by
  intro i s t t' r b x y hs ht ht'
  obtain ⟨checks, steps, fin, form⟩ := exec_form i
  have start : SamePresent s { s with resp := r, sessAnswer := b, inputs := x, trace := y } := ⟨rfl, rfl, rfl, rfl, rfl⟩
  rw [form.exec_eq] at ht ht'
  rw [form.checks_sess s _ start.sess] at ht'
  obtain ⟨⟨hsess, hdev, hwire, hflight, -⟩, hresp⟩ := sameEnd_operation start hs ht ht'
  exact ⟨hsess, hdev, hwire, hflight, hresp⟩

end

end Sys2Proof.Machine
end

section
/-! PROOFS. What no operation does to the device while no other agent moves: the session bit, the registers from 0x10 up, the
flags and the unnamed bits (10 R31, R43 to R47). -/

namespace Sys2Proof.Machine

/-! ### The bytes an operation writes back -/

/-- What an operation may do to register `x` outside the time and alarm blocks (10 R43 to R47). -/
structure LawfulChange (x : Nat) (old new : Byte) : Prop where
  control : x = 0x0E → new.getLsbD 5 = old.getLsbD 5
  flags : x = 0x0F → ∀ k ∈ [7, 1, 0], new.getLsbD k = true → old.getLsbD k = true
  unnamed : x = 0x0F → ∀ k ∈ [6, 5, 4, 2], new.getLsbD k = old.getLsbD k
  readOnly : 0x10 ≤ x → new = old

theorem LawfulChange.refl (x : Nat) (b : Byte) : LawfulChange x b b :=
  ⟨fun _ => rfl, fun _ _ _ h => h, fun _ _ _ => rfl, fun _ => rfl⟩

theorem LawfulChange.of_eq {x : Nat} {a b : Byte} (h : b = a) : LawfulChange x a b := h ▸ .refl x b

theorem LawfulChange.trans {x : Nat} {a b c : Byte} (h : LawfulChange x a b) (h' : LawfulChange x b c) :
    LawfulChange x a c where
  control hx := (h'.control hx).trans (h.control hx)
  flags hx k hk hc := h.flags hx k hk (h'.flags hx k hk hc)
  unnamed hx k hk := (h'.unnamed hx k hk).trans (h.unnamed hx k hk)
  readOnly hx := (h'.readOnly hx).trans (h.readOnly hx)

theorem lawfulChange_control {old new : Byte} (h : new.getLsbD 5 = old.getLsbD 5) : LawfulChange Config.ctrlAddr old new where
  control _ := h
  flags hx := by simp [Config.ctrlAddr] at hx
  unnamed hx := by simp [Config.ctrlAddr] at hx
  readOnly hx := by simp [Config.ctrlAddr] at hx

theorem lawfulChange_status {old new : Byte} (flags : ∀ k ∈ [7, 1, 0], new.getLsbD k = true → old.getLsbD k = true)
    (unnamed : ∀ k ∈ [6, 5, 4, 2], new.getLsbD k = old.getLsbD k) : LawfulChange Config.statAddr old new where
  control hx := by simp [Config.statAddr] at hx
  flags _ := flags
  unnamed _ := unnamed
  readOnly hx := by simp [Config.statAddr] at hx

/-- A status byte with bits cleared, none of them without a name. -/
theorem lawfulChange_status_and (r : Byte) {c : Byte} (hc : ∀ k ∈ [6, 5, 4, 2], c.getLsbD k = true) :
    LawfulChange Config.statAddr r (r &&& c) := by
  refine lawfulChange_status (fun k _ h => ?_) (fun k hk => ?_)
  · rw [BitVec.getLsbD_and, Bool.and_eq_true] at h
    exact h.1
  · rw [BitVec.getLsbD_and, hc k hk, Bool.and_true]

theorem lawfulChange_en32kEn (r : Byte) : LawfulChange Config.statAddr r (en32kEnByte r) :=
  lawfulChange_status (by simp [en32kEnByte]) (by simp [en32kEnByte])

/-! ### The steps of an operation -/

/-- Steps that write only inside the time and alarm blocks, or write back a lawful change of the control or the status byte read
just before. -/
inductive LawfulSteps : List OpStep → Prop where
  | nil : LawfulSteps []
  | read {start n : Nat} {rest : List OpStep} : start + n ≤ 0x13 → LawfulSteps rest → LawfulSteps (.read start n :: rest)
  | block {start : Nat} {f : List Byte → List Byte} {rest : List OpStep} :
      (∀ l, start + (f l).length ≤ 0x0E) → LawfulSteps rest → LawfulSteps (.write start f :: rest)
  | rmw {addr : Nat} {g : Byte → Byte} {rest : List OpStep} : addr ≤ 0x12 → (∀ r, LawfulChange addr r (g r)) →
      LawfulSteps rest → LawfulSteps (.read addr 1 :: .write addr (fun r => [g (r.getD 0 0)]) :: rest)

theorem LawfulSteps.inRange {steps : List OpStep} (h : LawfulSteps steps) : ∀ st ∈ steps, st.InRange := by
  induction h with
  | nil => simp
  | read hr _ ih => exact List.forall_mem_cons.mpr ⟨hr, ih⟩
  | block hr _ ih => exact List.forall_mem_cons.mpr ⟨fun l => (hr l).trans (by decide), ih⟩
  | rmw ha _ _ ih =>
    exact List.forall_mem_cons.mpr ⟨Nat.succ_le_succ ha, List.forall_mem_cons.mpr ⟨fun _ => Nat.succ_le_succ ha, ih⟩⟩

/-- Lawful steps change lawfully every register outside the time and alarm blocks, however their calls go. -/
theorem LawfulSteps.reg_change {fin : List Byte → Except FailCause Results} {steps : List OpStep} {l : List Byte} {s t : State}
    (h : LawfulSteps steps) (run : StillRun fin steps l s t) {x : Nat} (hx : 0x0E ≤ x) :
    LawfulChange x (s.reg x) (t.reg x) := by
  induction h generalizing l s with
  | nil =>
    cases run
    rw [State.reg, State.reg, respond_dev]
    exact .refl x _
  | read _ _ ih =>
    cases run with
    | readFail => exact .refl x _
    | readPass _ _ _ _ _ _ _ run => exact (ih run :)
  | @block start f _ hr _ ih =>
    have outside : ¬ (start ≤ x ∧ x < start + (f l).length) := by have := hr l; omega
    cases run with
    | writeFail _ _ _ _ _ _ d hd =>
      obtain kept | ⟨hin, -⟩ := hd x
      · exact .of_eq kept
      · exact absurd hin outside
    | writePass _ _ _ _ _ _ _ run =>
      have kept : (s.dev.writeBlock start (f l)).read x = s.reg x := by rw [Memory.read_writeBlock, dif_neg outside, State.reg]
      exact LawfulChange.trans (.of_eq kept) (ih run :)
  | @rmw addr g _ _ hg _ ih =>
    cases run with
    | readFail => exact .refl x _
    | readPass _ _ _ _ _ _ _ run =>
      have back (b : Byte) (hb : b = s.reg x ∨ x = addr ∧ b = g (s.reg addr)) : LawfulChange x (s.reg x) b := by
        obtain rfl | ⟨rfl, rfl⟩ := hb
        · exact .refl x _
        · exact hg (s.reg x)
      cases run with
      | writeFail _ _ _ _ _ _ d hd =>
        refine back (d.read x) ?_
        obtain kept | ⟨hin, written⟩ := hd x
        · exact .inl kept
        · obtain rfl : x = addr := by rw [List.length_singleton] at hin; omega
          simp only [Nat.sub_self, List.getElem_cons_zero] at written
          exact .inr ⟨rfl, written⟩
      | writePass _ _ _ _ _ _ _ run =>
        refine LawfulChange.trans (back (Memory.read (s.dev.write addr (g (s.reg addr))) x) ?_) (ih run :)
        rw [Memory.read_write]
        by_cases hxa : x = addr
        · exact .inr ⟨hxa, if_pos hxa⟩
        · exact .inl (if_neg hxa)

/-! ### Every meaning has lawful steps -/

/-- `i` runs as an operation with lawful steps, at most six, and only with the session initialised if it has any. -/
structure HasLawfulForm (i : Instr) (checks : State → List (Bool × FailCause)) (steps : List OpStep)
    (fin : List Byte → Except FailCause Results) : Prop where
  exec_eq : ∀ s, exec i s = operation i (checks s) steps fin s
  session : ∀ s, (∀ e ∈ checks s, e.1 = true) → steps = [] ∨ s.sess = true
  length_le : steps.length ≤ 6
  lawful : LawfulSteps steps

theorem pure_lawfulForm {i : Instr} {checks : State → List (Bool × FailCause)} {fin : List Byte → Except FailCause Results}
    (he : ∀ s, exec i s = operation i (checks s) [] fin s) : ∃ checks steps fin, HasLawfulForm i checks steps fin :=
  ⟨checks, [], fin, he, fun _ _ => .inl rfl, Nat.zero_le 6, .nil⟩

theorem rd_lawfulForm {i : Instr} {hv ov : Bool} {start n : Nat} {g : List Byte → Results}
    (he : ∀ s, exec i s = rd i hv ov start n g s) (hr : start + n ≤ 0x13) :
    ∃ checks steps fin, HasLawfulForm i checks steps fin :=
  ⟨_, _, _, he, fun _ hc => .inr (hc (_, .precondSession) (by simp)), by simp, .read hr .nil⟩

theorem rmw_lawfulForm {i : Instr} {hv : Bool} {addr : Nat} {f : Byte → Byte} (he : ∀ s, exec i s = rmw i hv addr f s)
    (ha : addr ≤ 0x12) (hf : ∀ r, LawfulChange addr r (f r)) : ∃ checks steps fin, HasLawfulForm i checks steps fin :=
  ⟨_, _, _, he, fun _ hc => .inr (hc (_, .precondSession) (by simp)), by simp, .rmw ha hf .nil⟩

/-- The steps of ALARM_SET with a variant: the hours register if the variant has hours, the alarm's block, then the control and
the status byte. -/
theorem alarmSteps_lawful (hasHours : Bool) {base : Nat} {f : List Byte → List Byte} {c g : Byte → Byte}
    (hf : ∀ l, base + (f l).length ≤ 0x0E) (hc : ∀ r, LawfulChange Config.ctrlAddr r (c r))
    (hg : ∀ r, LawfulChange Config.statAddr r (g r)) {steps : List OpStep}
    (h : steps = hoursRead hasHours ++ [.write base f, .read Config.ctrlAddr 1,
      .write Config.ctrlAddr (fun r => [c (r.getD 0 0)]), .read Config.statAddr 1,
      .write Config.statAddr (fun r => [g (r.getD 0 0)])]) : LawfulSteps steps ∧ steps.length ≤ 6 := by
  have tail := LawfulSteps.block hf (.rmw (by decide) hc (.rmw (by decide) hg .nil))
  subst h
  cases hasHours with
  | false => exact ⟨tail, by simp [hoursRead]⟩
  | true => exact ⟨.read (by decide) tail, by simp [hoursRead]⟩

theorem alarmSetSteps_lawful (s1v : Bool) (sel1 : BitVec 5) (sel2 : BitVec 4) (tv : TimeValue) :
    LawfulSteps (alarmSetSteps s1v sel1 sel2 tv) ∧ (alarmSetSteps s1v sel1 sel2 tv).length ≤ 6 := by
  cases h : selectorLegal s1v sel1 sel2 with
  | false => rw [alarmSetSteps_none s1v h]; exact ⟨.nil, Nat.zero_le 6⟩
  | true =>
    obtain ⟨rfl, v, hv⟩ | ⟨rfl, v, hv⟩ := selectorLegal_cases h
    · rw [alarmSetSteps_one hv]
      exact alarmSteps_lawful (hasHours1 v) (by simp [Alarm1Regs.toBytes, Config.a1Base])
        (fun r => lawfulChange_control (by simp [alarmSet1Control])) (fun r => lawfulChange_status_and r (by decide)) rfl
    · rw [alarmSetSteps_two hv]
      exact alarmSteps_lawful (hasHours2 v) (by simp [Alarm2Regs.toBytes, Config.a2Base])
        (fun r => lawfulChange_control (by simp [alarmSet2Control])) (fun r => lawfulChange_status_and r (by decide)) rfl

/-- Every meaning has lawful steps. -/
theorem exec_lawfulForm (i : Instr) : ∃ checks steps fin, HasLawfulForm i checks steps fin := by
  cases i
  case bcdDec => exact pure_lawfulForm (checks := fun _ => [_]) fun _ => rfl
  case bcdEnc | timeDec | timeEnc | a1Dec | a1Enc | a2Dec | a2Enc =>
    exact pure_lawfulForm (checks := fun _ => []) fun _ => rfl
  case timeGet | modeGet | osfGet | tempGet => exact rd_lawfulForm (fun _ => rfl) (by decide)
  case timeSet hv vv tv use24 =>
    refine ⟨_, _, _, fun _ => rfl, fun _ hc => .inr (hc (_, .precondSession) (by simp)), by simp, ?_⟩
    exact .rmw (by decide) (fun r => lawfulChange_status_and r (by decide))
      (.block (by simp [TimeRegs.toBytes, Config.timeBase]) .nil)
  case alarmGet hv ov s1v s2v tv =>
    refine ⟨_, _, _, fun _ => rfl, fun _ hc => .inr (hc (_, .precondSession) (by simp)), ?_, ?_⟩ <;> cases s1v
    · simp
    · simp
    · exact .read (by decide) .nil
    · exact .read (by decide) .nil
  case alarmSet hv vv s1v sel1 s2v sel2 tv =>
    obtain ⟨lawful, hlen⟩ := alarmSetSteps_lawful s1v sel1 sel2 tv
    exact ⟨_, _, _, fun _ => rfl, fun _ hc => .inr (hc (_, .precondSession) (by simp)), hlen, lawful⟩
  case a1fClr | a2fClr | osfClr | en32kDis =>
    exact rmw_lawfulForm (fun _ => rfl) (by decide) fun r => lawfulChange_status_and r (by decide)
  case en32kEn => exact rmw_lawfulForm (fun _ => rfl) (by decide) lawfulChange_en32kEn
  case sqwEn hv freq bb =>
    refine rmw_lawfulForm (fun _ => rfl) (by decide) fun r => lawfulChange_control ?_
    rw [sqwEnByte_bits _ _ _ _ (by decide)]
    rfl
  case sqwDis =>
    refine rmw_lawfulForm (fun _ => rfl) (by decide) fun r => lawfulChange_control ?_
    rw [sqwDisByte_bits _ _ (by decide)]
    rfl
  case oscEn | oscDis | a1ieEn | a1ieDis | a2ieEn | a2ieDis =>
    refine rmw_lawfulForm (fun _ => rfl) (by decide) fun r => lawfulChange_control ?_
    simp [oscEnByte, oscDisByte, a1ieEnByte, a1ieDisByte, a2ieEnByte, a2ieDisByte]

/-! ### One operation on a still wire -/

theorem StillRun.sess_eq {fin : List Byte → Except FailCause Results} {steps : List OpStep} {l : List Byte} {s t : State}
    (run : StillRun fin steps l s t) : t.sess = s.sess := by
  induction run with
  | done l s => exact respond_sess s _
  | readFail => rfl
  | readPass _ _ _ _ _ _ _ _ ih => exact ih
  | writeFail => rfl
  | writePass _ _ _ _ _ _ _ _ ih => exact ih

/-- An operation on a still wire fails at step 0, changing neither session nor device, or its lawful steps run. -/
theorem exec_still {i : Instr} {s t : State} (hs : s.flight = none) (hw : StillWire s) (h : exec i s = .next t) :
    (∃ c, t = s.fail c) ∨ ∃ steps fin, LawfulSteps steps ∧ StillRun fin steps [] s t := by
  obtain ⟨checks, steps, fin, form⟩ := exec_lawfulForm i
  rw [form.exec_eq] at h
  obtain hfail | ⟨hc, rfl⟩ := operation_cases hs h
  · exact .inl hfail
  · refine .inr ⟨steps, fin, form.lawful, ?_⟩
    obtain rfl | hsess := form.session s hc
    · exact .done [] s
    · obtain ⟨as, w, hlen, hduring, hwire⟩ := hw
      exact stillRun hwire (form.length_le.trans hlen) hduring hsess form.lawful.inRange

/-- With no other agent moving, an operation changes lawfully every register outside the time and alarm blocks. -/
theorem exec_reg_change {i : Instr} {s t : State} (hs : s.flight = none) (hw : StillWire s) (h : exec i s = .next t) {x : Nat}
    (hx : 0x0E ≤ x) : LawfulChange x (s.reg x) (t.reg x) := by
  obtain ⟨c, rfl⟩ | ⟨steps, fin, lawful, run⟩ := exec_still hs hw h
  · exact .refl x _
  · exact lawful.reg_change run hx

/-- Settles O50: a step-0 failure keeps the session, and so does every call. -/
theorem sessionNeverWritten : Obligations.SessionNeverWritten := by
  intro i s t hs hw h
  obtain ⟨c, rfl⟩ | ⟨steps, fin, -, run⟩ := exec_still hs hw h
  · rfl
  · exact run.sess_eq

/-- Settles O51: the registers from 0x10 up are outside every lawful change (`exec_reg_change`). -/
theorem temperatureNeverWritten : Obligations.TemperatureNeverWritten :=
  fun _ _ _ hs hw h _ ha => (exec_reg_change hs hw h (Nat.le_trans (by decide) ha)).readOnly ha

/-- Settles O52: a lawful change of the status byte only clears its flags (`exec_reg_change`). -/
theorem flagsOnlyCleared : Obligations.FlagsOnlyCleared :=
  fun _ _ _ hs hw h => (exec_reg_change hs hw h (by decide)).flags rfl

/-- Settles O53: a lawful change of the control or the status byte keeps the bits without a name (`exec_reg_change`). -/
theorem unnamedBitsKept : Obligations.UnnamedBitsKept :=
  fun _ _ _ hs hw h => ⟨(exec_reg_change hs hw h (by decide)).control rfl, (exec_reg_change hs hw h (by decide)).unnamed rfl⟩

end Sys2Proof.Machine
end

section
/-! PROOFS. The transport (20): the two session operations (R62, R63), the contracts of the read and the write primitives
(R64 to R69, R75, R84), and the calls of an operation, which follow the table of R70. -/

namespace Sys2Proof.Machine

/-! ### The session operations -/

section
variable (s : State) (b : Bool)

@[simp] theorem initSession_sess : (s.initSession b).sess = (s.sess || b) := by
  cases h : s.sess <;> simp [State.initSession, h]

@[simp] theorem initSession_sessAnswer : (s.initSession b).sessAnswer = (!s.sess && b) := rfl

@[simp] theorem deinitSession_sess : (s.deinitSession b).sess = (s.sess && !b) := by
  cases h : s.sess <;> simp [State.deinitSession, h]

@[simp] theorem deinitSession_sessAnswer : (s.deinitSession b).sessAnswer = (s.sess && b) := rfl

end

/-- Settles O10: the step takes the pending `init` (`step_of_init`), whose two results are those of `initSession`. -/
theorem initRule : Obligations.InitRule := by
  intro s b rest hf hi
  refine ⟨_, step_of_init hf hi, rfl, fun hs => ?_, fun hs => ?_⟩ <;> simp [hs]

/-- Settles O11: the step takes the pending `deinit` (`step_of_deinit`), whose two results are those of `deinitSession`. -/
theorem deinitRule : Obligations.DeinitRule := by
  intro s b rest hf hi
  refine ⟨_, step_of_deinit hf hi, rfl, fun hs => ?_, fun hs => ?_⟩ <;> simp [hs]

/-! ### The primitives -/

section
variable {s : State} {a : Answer} {start n : Nat} {bytes : List Byte}

/-- The range rule of 20 R69. -/
theorem inRange_iff : inRange start n = true ↔ start + n ≤ 0x13 := decide_eq_true_iff

/-- The three conditions of a call that succeeds (20 R69, R75, R84). -/
theorem callSucceeds_iff : s.callSucceeds a start n = true ↔ s.sess = true ∧ start + n ≤ 0x13 ∧ a.ok = true := by
  simp only [State.callSucceeds, Bool.and_eq_true, inRange_iff, and_assoc]

/-- A read that cannot succeed, for whichever of the three reasons, only puts the call out. -/
theorem memRead_none (h : ¬ s.callSucceeds a start n = true) :
    s.memRead a start n = ({ s with trace := readCall start n :: s.trace }, none) :=
  if_neg h

theorem memWrite_snd : (s.memWrite a start bytes).2 = s.callSucceeds a start bytes.length := rfl

/-- The bytes of a still read, indexed from 0. -/
theorem regBytes_dev (s : State) (start n : Nat) :
    regBytes s.dev start n = (List.range n).map fun i => s.reg (start + i) := by
  rw [List.range_eq_range']; rfl

/-- On a still device any write, passed or failed, leaves in each register its old byte or, if it addressed the register, the byte
being written. -/
theorem memWrite_reg (ha : a.during = []) (x : Nat) : (s.memWrite a start bytes).1.reg x = s.reg x ∨
    ∃ hx : start ≤ x ∧ x < start + bytes.length, (s.memWrite a start bytes).1.reg x = bytes[x - start]'(by omega) :=
  transferOut_fail ha (s.callSucceeds a start bytes.length) start bytes 0 s.dev x

end

/-- Settles O13: a read that can succeed is `memRead_pass`, every other one is `memRead_none`. -/
theorem readPrimitiveContract : Obligations.ReadPrimitiveContract := by
  intro s a start count hstill
  rw [← callSucceeds_iff]
  by_cases hc : s.callSucceeds a start count = true
  · obtain ⟨hsess, hrange, hok⟩ := callSucceeds_iff.mp hc
    rw [memRead_pass hsess hrange ⟨hok, hstill⟩]
    exact ⟨fun _ => congrArg some (regBytes_dev s start count), absurd hc, fun _ => rfl⟩
  · rw [memRead_none hc]
    exact ⟨fun h => absurd h hc, fun _ => rfl, fun _ => rfl⟩

/-- Settles O14: a write that passes writes the block (`memWrite_pass`), and whatever its outcome a write leaves each register old
or, inside its range, new (`memWrite_reg`). -/
theorem writePrimitiveContract : Obligations.WritePrimitiveContract := by
  intro s a start bytes hstill
  rw [memWrite_snd]
  refine ⟨callSucceeds_iff, fun hpass i hi => ?written, fun i hi => ?oldOrNew, fun x hx => ?outside⟩
  case written =>
    obtain ⟨hsess, hrange, hok⟩ := callSucceeds_iff.mp hpass
    rw [memWrite_pass hsess hrange ⟨hok, hstill⟩, State.reg, Memory.read_writeBlock, dif_pos (by omega)]
    simp
  case oldOrNew =>
    obtain old | ⟨hin, new⟩ := memWrite_reg (s := s) (start := start) (bytes := bytes) hstill (start + i)
    · exact .inl old
    · exact .inr (by simpa using new)
  case outside =>
    obtain old | ⟨hin, -⟩ := memWrite_reg (s := s) (start := start) (bytes := bytes) hstill x
    · exact old
    · exact absurd hin hx

/-! ### The calls of an operation -/

@[simp] theorem callShape_readCall (start n : Nat) : callShape (readCall start n) = (false, start, n) := by
  by_cases h : n = 1 <;> simp [readCall, callShape, h]

@[simp] theorem callShape_writeCall (start : Nat) (bs : List Byte) :
    callShape (writeCall start bs) = (true, start, bs.length) := by
  match bs with
  | [] | [_] | _ :: _ :: _ => rfl

theorem stepShape_read (start n : Nat) : stepShape (.read start n) = callShape (readCall start n) :=
  (callShape_readCall start n).symm

theorem stepShape_write {start : Nat} {f : List Byte → List Byte} (width : ∀ l, (f l).length = (f []).length)
    (l : List Byte) : stepShape (.write start f) = callShape (writeCall start (f l)) := by
  rw [callShape_writeCall, width l, stepShape]

/-- From `s` to `t` the block made calls whose shapes are the first ones of `shapes`, and all of them if `t` answers ok. -/
def MadeCalls (shapes : List (Bool × Nat × Nat)) (s t : State) : Prop :=
  ∃ made : List Call, t.trace = made.reverse ++ s.trace ∧ made.map callShape <+: shapes ∧
    (t.resp.ok = true → made.map callShape = shapes)

section
variable {shapes : List (Bool × Nat × Nat)} {s s' t : State}

/-- A failure before any call. -/
theorem madeCalls_fail (shapes : List (Bool × Nat × Nat)) (ht : t.trace = s.trace) (c : FailCause) :
    MadeCalls shapes s (t.fail c) :=
  ⟨[], ht, List.nil_prefix, nofun⟩

/-- One call, and then those of the rest. -/
theorem MadeCalls.cons {c : Call} (hs : s'.trace = c :: s.trace) (h : MadeCalls shapes s' t) :
    MadeCalls (callShape c :: shapes) s t := by
  obtain ⟨made, htrace, hprefix, hall⟩ := h
  refine ⟨c :: made, ?_, List.cons_prefix_cons.mpr ⟨rfl, hprefix⟩, fun hok => congrArg _ (hall hok)⟩
  rw [htrace, hs, List.reverse_cons, List.append_assoc, List.singleton_append]

end

/-- Steps on a still wire make the calls they stand for, in order, up to the first that fails. -/
theorem StillRun.madeCalls {fin : List Byte → Except FailCause Results} {steps : List OpStep} {l : List Byte} {s t : State}
    (run : StillRun fin steps l s t) (width : ∀ a f, .write a f ∈ steps → ∀ l, (f l).length = (f []).length) :
    MadeCalls (steps.map stepShape) s t := by
  induction run with
  | done l s => exact ⟨[], respond_trace s _, List.nil_prefix, fun _ => rfl⟩
  | readFail start n rest l s w =>
    rw [List.map_cons, stepShape_read]
    exact .cons (s' := { s with trace := readCall start n :: s.trace }) rfl (madeCalls_fail _ rfl _)
  | readPass start n rest l s w t _ ih =>
    rw [List.map_cons, stepShape_read]
    exact .cons rfl (ih fun a f hf => width a f (List.mem_cons_of_mem _ hf))
  | writeFail start f rest l s w d hd =>
    rw [List.map_cons, stepShape_write (width start f List.mem_cons_self) l]
    exact .cons (s' := { s with trace := writeCall start (f l) :: s.trace }) rfl (madeCalls_fail _ rfl _)
  | writePass start f rest l s w t _ ih =>
    rw [List.map_cons, stepShape_write (width start f List.mem_cons_self) l]
    exact .cons rfl (ih fun a f hf => width a f (List.mem_cons_of_mem _ hf))

/-- An operation on a still wire fails at step 0, or its checks pass and its own steps run. -/
theorem HasForm.exec_still {i : Instr} {checks : State → List (Bool × FailCause)} {steps : List OpStep}
    {fin : List Byte → Except FailCause Results} {s t : State} (form : HasForm i checks steps fin) (hs : s.flight = none)
    (hw : StillWire s) (h : exec i s = .next t) :
    (∃ c, t = s.fail c) ∨ (firstFailed (checks s) = none ∧ StillRun fin steps [] s t) := by
  rw [form.exec_eq] at h
  obtain hfail | ⟨hc, rfl⟩ := operation_cases hs h
  · exact .inl hfail
  · have hc := firstFailed_none.mpr hc
    refine .inr ⟨hc, ?_⟩
    obtain rfl | hne := eq_or_ne steps []
    · exact .done [] s
    · obtain ⟨as, w, hlen, hduring, hwire⟩ := hw
      exact stillRun hwire (form.length_le.trans hlen) hduring (form.transport s hc hne).1 form.inRange

/-- An operation on a still wire makes the calls of its row of the table. -/
theorem exec_madeCalls {i : Instr} {s t : State} (hs : s.flight = none) (hw : StillWire s) (h : exec i s = .next t) :
    MadeCalls (callTable i) s t := by
  obtain ⟨checks, steps, fin, form⟩ := exec_form i
  obtain ⟨c, rfl⟩ | ⟨hc, run⟩ := form.exec_still hs hw h
  · exact madeCalls_fail _ rfl c
  · exact form.table s hc ▸ run.madeCalls form.width

/-- The longest row of the table is that of ALARM_SET with hours: the hours register, the block, control and status. -/
theorem callTable_length_le (i : Instr) : (callTable i).length ≤ 6 := by
  cases i
  case alarmSet | alarmGet => simp only [callTable]; split_ifs <;> decide
  all_goals simp [callTable]

/-- Settles O49: the calls made are those of the operation's row (`exec_madeCalls`), and no row is longer than six. -/
theorem callsFollowTable : Obligations.CallsFollowTable := by
  intro i s t hs hw h
  obtain ⟨made, htrace, hprefix, hall⟩ := exec_madeCalls hs hw h
  refine ⟨made, htrace, hprefix, hall, ?_⟩
  calc made.length = (made.map callShape).length := (List.length_map _).symm
    _ ≤ (callTable i).length := hprefix.length_le
    _ ≤ 6 := callTable_length_le i

end Sys2Proof.Machine
end

section
/-! PROOFS. The encoding (30): a packed port gives each field back (R112, R113), the decoder inverts the encoder (R116, R117) and
knows exactly the codes of the table (R118, R119), and a reserved operand value fails the operation at once (R120). -/

namespace Sys2Proof

/-! ### Bytes packed in a number -/

theorem packBytes_lt (bytes : List Byte) : packBytes bytes < 2 ^ (8 * bytes.length) := by
  induction bytes with
  | nil => exact Nat.one_pos
  | cons b bs ih =>
    have := b.isLt
    rw [packBytes, List.length_cons, Nat.mul_succ, Nat.pow_add]
    omega

/-- Byte `k` of packed bytes is the `k`-th of them, whatever stands above the bytes. -/
theorem portByte_packBytes (bytes : List Byte) (above : Nat) {k : Nat} (hk : k < bytes.length) :
    portByte (packBytes bytes + 2 ^ (8 * bytes.length) * above) k = bytes[k] := by
  induction bytes generalizing k with
  | nil => exact absurd hk (Nat.not_lt_zero k)
  | cons b bs ih =>
    have split : packBytes (b :: bs) + 2 ^ (8 * (b :: bs).length) * above
        = b.toNat + 2 ^ 8 * (packBytes bs + 2 ^ (8 * bs.length) * above) := by
      rw [packBytes, List.length_cons, Nat.mul_succ, Nat.pow_add]
      ring
    rw [split]
    cases k with
    | zero => exact BitVec.eq_of_toNat_eq (by simp [portByte, Nat.mod_eq_of_lt b.isLt])
    | succ k =>
      have skip : ∀ n, portByte (b.toNat + 2 ^ 8 * n) (k + 1) = portByte n k := by
        intro n
        have low : (b.toNat + 2 ^ 8 * n) / 2 ^ 8 = n := by have := b.isLt; omega
        rw [portByte, Nat.mul_succ, Nat.add_comm (8 * k), Nat.pow_add, ← Nat.div_div_eq_div_mul, low, portByte]
      rw [skip, List.getElem_cons_succ]
      exact ih (Nat.lt_of_succ_lt_succ hk)

/-! ### A block on its port (30 R113) -/

theorem portByte_blockPort {bytes : List Byte} (hlen : bytes.length ≤ 7) {k : Nat} (hk : k < bytes.length) :
    portByte (blockPort bytes).toNat k = bytes[k] := by
  have fits : packBytes bytes < 2 ^ 56 :=
    (packBytes_lt bytes).trans_le (Nat.pow_le_pow_right Nat.two_pos (by omega))
  rw [blockPort, BitVec.toNat_ofNat, Nat.mod_eq_of_lt fits]
  exact portByte_packBytes bytes 0 hk

@[simp] theorem TimeRegs.ofPort_blockPort (blk : TimeRegs) : .ofPort (blockPort blk.toBytes) = blk := by
  simp [TimeRegs.ofPort, portByte_blockPort, TimeRegs.toBytes, TimeRegs.ofBytes]

@[simp] theorem Alarm1Regs.ofPort_blockPort (blk : Alarm1Regs) : .ofPort (blockPort blk.toBytes) = blk := by
  simp [Alarm1Regs.ofPort, portByte_blockPort, Alarm1Regs.toBytes, Alarm1Regs.ofBytes]

@[simp] theorem Alarm2Regs.ofPort_blockPort (blk : Alarm2Regs) : .ofPort (blockPort blk.toBytes) = blk := by
  simp [Alarm2Regs.ofPort, portByte_blockPort, Alarm2Regs.toBytes, Alarm2Regs.ofBytes]

/-! ### A TimeValue on its port (30 R112) -/

/-- The seven byte fields of a TimeValue, in the order of the port. -/
def TimeValue.bytes (tv : TimeValue) : List Byte :=
  [tv.seconds, tv.minutes, tv.hours, tv.dayOfWeek, tv.dayOfMonth, tv.month, tv.year]

/-- The port is the seven bytes with the two mode bits above them. -/
theorem TimeValue.toPort_toNat (tv : TimeValue) :
    tv.toPort.toNat = packBytes tv.bytes + 2 ^ (8 * tv.bytes.length) * (tv.is12HourFormat.toNat + 2 * tv.pm.toNat) := by
  have bytesFit := packBytes_lt tv.bytes
  have := tv.is12HourFormat.toNat_lt
  have := tv.pm.toNat_lt
  simp only [TimeValue.bytes, packBytes, List.length_cons, List.length_nil] at bytesFit ⊢
  rw [TimeValue.toPort, BitVec.toNat_ofNat, Nat.mod_eq_of_lt] <;> omega

theorem TimeValue.portByte_toPort (tv : TimeValue) {k : Nat} (hk : k < tv.bytes.length) :
    portByte tv.toPort.toNat k = tv.bytes[k] := by
  rw [tv.toPort_toNat]
  exact portByte_packBytes tv.bytes _ hk

/-- Above the seven bytes stand the two mode bits. -/
theorem TimeValue.toPort_div (tv : TimeValue) :
    tv.toPort.toNat / 2 ^ 56 = tv.is12HourFormat.toNat + 2 * tv.pm.toNat := by
  have bytesFit : packBytes tv.bytes < 2 ^ 56 := packBytes_lt tv.bytes
  rw [tv.toPort_toNat, show 8 * tv.bytes.length = 56 from rfl]
  omega

theorem TimeValue.portBit_toPort_56 (tv : TimeValue) : portBit tv.toPort.toNat 56 = tv.is12HourFormat := by
  rw [portBit, tv.toPort_div]
  cases tv.is12HourFormat <;> simp

theorem TimeValue.portBit_toPort_57 (tv : TimeValue) : portBit tv.toPort.toNat 57 = tv.pm := by
  rw [portBit, Nat.pow_succ, ← Nat.div_div_eq_div_mul, tv.toPort_div]
  cases tv.is12HourFormat <;> cases tv.pm <;> rfl

@[simp] theorem TimeValue.ofPort_toPort (tv : TimeValue) : .ofPort tv.toPort = tv := by
  simp [TimeValue.ofPort, portByte_toPort, portBit_toPort_56, portBit_toPort_57, TimeValue.bytes]

theorem extractLsb'_eq_portByte {w : Nat} (v : BitVec w) (k : Nat) : v.extractLsb' (8 * k) 8 = portByte v.toNat k := by
  rw [BitVec.extractLsb', Nat.shiftRight_eq_div_pow, portByte]

theorem getLsbD_eq_portBit {w : Nat} (v : BitVec w) (k : Nat) : v.getLsbD k = portBit v.toNat k :=
  Nat.testBit_eq_decide_div_mod_eq

/-- Settles O3: the port's slices are the fields that `ofPort` reads, and reading gives the TimeValue back (`ofPort_toPort`). -/
theorem timeValuePortLayout : Obligations.TimeValuePortLayout := by
  intro tv
  have byteField := extractLsb'_eq_portByte tv.toPort
  have bitField := getLsbD_eq_portBit tv.toPort
  have back := tv.ofPort_toPort
  exact ⟨(byteField 0).trans (congrArg TimeValue.seconds back), (byteField 1).trans (congrArg TimeValue.minutes back),
    (byteField 2).trans (congrArg TimeValue.hours back), (byteField 3).trans (congrArg TimeValue.dayOfWeek back),
    (byteField 4).trans (congrArg TimeValue.dayOfMonth back), (byteField 5).trans (congrArg TimeValue.month back),
    (byteField 6).trans (congrArg TimeValue.year back), (bitField 56).trans (congrArg TimeValue.is12HourFormat back),
    (bitField 57).trans (congrArg TimeValue.pm back)⟩

/-! ### The decoder -/

/-- Settles O1: the code of each operation finds its own row, and a packed operand comes back from its port. -/
theorem decodeOfEncode : Obligations.DecodeOfEncode := by
  intro i
  cases i
  case timeDec blk =>
    conv_rhs => rw [← blk.ofPort_blockPort]
    rfl
  case a1Dec blk tv | a2Dec blk tv =>
    conv_rhs => rw [← blk.ofPort_blockPort, ← tv.ofPort_toPort]
    rfl
  case timeEnc tv _ | timeSet _ _ tv _ | a1Enc _ tv _ | a2Enc _ tv _ | alarmGet _ _ _ _ tv | alarmSet _ _ _ _ _ _ tv =>
    conv_rhs => rw [← tv.ofPort_toPort]
    rfl
  all_goals rfl

/-- The codes the decoder finds a row for. -/
def tableCodes : List Byte := opTable.map Prod.fst

/-- They are the 28 codes of 30 R118. -/
theorem mem_tableCodes {op : Byte} : op ∈ tableCodes ↔
    op.toNat ∈ [0x01, 0x02, 0x10, 0x11, 0x12, 0x13, 0x14, 0x20, 0x21, 0x22, 0x23, 0x24, 0x25, 0x30, 0x31, 0x32, 0x33,
      0x34, 0x35, 0x36, 0x37, 0x38, 0x39, 0x3A, 0x3B, 0x3C, 0x3D, 0x3E] :=
  (List.mem_map_of_injective (l := tableCodes) BitVec.toNat_injective).symm

theorem decode_of_mem {c : Command} (h : c.op ∈ tableCodes) : ∃ i, decode c = .ok i := by
  obtain ⟨row, hrow, hcode⟩ := List.mem_map.mp h
  obtain ⟨found, hfound⟩ := Option.isSome_iff_exists.mp
    (List.find?_isSome (p := fun row => row.1 == c.op) |>.mpr ⟨row, hrow, beq_iff_eq.mpr hcode⟩)
  exact ⟨found.2 c, by rw [decode, hfound]⟩

theorem decode_of_not_mem {c : Command} (h : c.op ∉ tableCodes) : decode c = .error (.reservedOp c.op) := by
  have hnone : opTable.find? (fun row => row.1 == c.op) = none :=
    List.find?_eq_none.mpr fun row hrow hcode => h (beq_iff_eq.mp hcode ▸ List.mem_map_of_mem hrow)
  rw [decode, hnone]

/-- Settles O2: each code is one of the table's (`decode_of_mem`); the four commands are run through the decoder. -/
theorem specCommandsDecode : Obligations.SpecCommandsDecode := by
  refine ⟨fun w hw => ?codes, by decide, by decide, Machine.Tests.test_decode_time.1, by decide⟩
  have hlt : w < 2 ^ 8 := by revert w; decide
  have hop : (Command.ofWord (w % 2 ^ 8)).op.toNat = w := by
    rw [Command.ofWord, BitVec.toNat_ofNat, Nat.mod_mod, Nat.mod_eq_of_lt hlt]
  obtain ⟨i, hi⟩ := decode_of_mem (mem_tableCodes.mpr (hop.symm ▸ hw))
  exact ⟨i, by rw [decodeTableWord, hi]⟩

end Sys2Proof

namespace Sys2Proof.Machine

/-! ### Refusals -/

theorem onlyResponse_fail {s : State} (hf : s.flight = none) (c : FailCause) : OnlyResponse s (s.fail c) := by
  simp [OnlyResponse, State.fail, ← hf]

/-- A command the decoder refuses is answered with the fail outcome. -/
theorem step_of_reserved {s : State} {c : Command} {rest : List Input} {op : Byte} (hf : s.flight = none)
    (hi : s.inputs = .command c :: rest) (hd : decode c = .error (.reservedOp op)) :
    step s = .next (State.fail { s with inputs := rest } .reservedOp) := by
  simp only [step, hf, hi, hd, State.rejectCommand]

/-- Settles O4: the decoder knows exactly the table's codes, and a command it refuses fails (`step_of_reserved`). -/
theorem reservedCodesRefused : Obligations.ReservedCodesRefused := by
  intro s c rest hf hi
  refine ⟨fun hreserved => ?_, fun hcode => decode_of_mem (mem_tableCodes.mpr hcode)⟩
  have hd := decode_of_not_mem (mt mem_tableCodes.mp hreserved)
  exact ⟨hd, _, step_of_reserved hf hi hd, rfl, onlyResponse_fail (s := { s with inputs := rest }) hf _⟩

section
variable {i : Instr} {checks : List (Bool × FailCause)} {steps : List OpStep} {fin : List Byte → Except FailCause Results}
  {s : State}

/-- An operation with a check that does not pass fails at once. -/
theorem failsAtOnce_of_check (he : exec i s = operation i checks steps fin s) (hf : s.flight = none)
    (hc : ∃ e ∈ checks, e.1 = false) : FailsAtOnce i s := by
  obtain ⟨c, h⟩ := operation_refused (i := i) (steps := steps) (fin := fin) hf hc
  exact ⟨_, he.trans h, rfl, onlyResponse_fail hf c⟩

/-- An operation without checks and steps whose result is a failure fails at once. -/
theorem failsAtOnce_of_result {c : FailCause} (he : exec i s = operation i [] [] fin s) (hf : s.flight = none)
    (hr : fin [] = .error c) : FailsAtOnce i s := by
  have hrun : exec i s = .next (s.fail c) := by rw [he, operation_start hf (by simp), runSteps, hr, State.respond]
  exact ⟨_, hrun, rfl, onlyResponse_fail hf c⟩

end

/-- The legal tags of 30 R110 are those with a variant. -/
theorem sel1Legal_eq (sel1 : BitVec 5) : sel1Legal sel1 = (Alarm1Variant.ofTag sel1).isSome := by
  revert sel1; decide

/-- The legal tags of 30 R111 are those with a variant. -/
theorem sel2Legal_eq (sel2 : BitVec 4) : sel2Legal sel2 = (Alarm2Variant.ofTag sel2).isSome := by
  revert sel2; decide

theorem alarm1Variant_ofTag_none {sel1 : BitVec 5} (h : sel1Legal sel1 = false) : Alarm1Variant.ofTag sel1 = none := by
  simpa [sel1Legal_eq] using h

theorem alarm2Variant_ofTag_none {sel2 : BitVec 4} (h : sel2Legal sel2 = false) : Alarm2Variant.ofTag sel2 = none := by
  simpa [sel2Legal_eq] using h

/-- An ALARM_SET with a reserved tag does not have exactly one selector, or the tag of that selector is no variant. -/
theorem selectorCheck_of_not_wf {hv vv s1v s2v : Bool} {sel1 : BitVec 5} {sel2 : BitVec 4} {tv : TimeValue}
    (h : Instr.wf (.alarmSet hv vv s1v sel1 s2v sel2 tv) = false) :
    (s1v != s2v) = false ∨ selectorLegal s1v sel1 sel2 = false := by
  match s1v, s2v, h with
  | true, true, _ | false, false, _ => exact .inl rfl
  | true, false, h => exact .inr (by simpa [Instr.wf, selectorLegal, sel1Legal_eq] using h)
  | false, true, h => exact .inr (by simpa [Instr.wf, selectorLegal, sel2Legal_eq] using h)

/-- Settles O5: only four operations have reserved operand values, and each of them checks for them before any call. -/
theorem reservedOperandsRefused : Obligations.ReservedOperandsRefused := by
  intro i s hf hwf
  cases i
  case bcdDec arg8 tw => exact failsAtOnce_of_check rfl hf ⟨_, List.mem_singleton_self _, hwf⟩
  case a1Enc sel1 tv mode12 => exact failsAtOnce_of_result rfl hf (by rw [alarm1Variant_ofTag_none hwf])
  case a2Enc sel2 tv mode12 => exact failsAtOnce_of_result rfl hf (by rw [alarm2Variant_ofTag_none hwf])
  case alarmSet hv vv s1v sel1 s2v sel2 tv =>
    obtain hboth | htag := selectorCheck_of_not_wf hwf
    · exact failsAtOnce_of_check rfl hf ⟨(s1v != s2v, .precondSelector), by simp, hboth⟩
    · exact failsAtOnce_of_check rfl hf ⟨(selectorLegal s1v sel1 sel2, .precondSelector), by simp, htag⟩
  all_goals cases hwf

end Sys2Proof.Machine
end

section
/-! PROOFS. The BCD codec (40): the decoder and the encoder in arithmetic (R141 to R143), the laws of the pair (R142, R146), and
that an operation without a transport call answers with its result at once (R140). -/

namespace Sys2Proof

/-- A command whose code finds its row in the table decodes to that row's operation. -/
theorem decode_of_row {c : Command} {op : Byte} {row : Byte × (Command → Instr)} (hop : c.op = op)
    (hrow : opTable.find? (fun e => e.1 == op) = some row) : decode c = .ok (row.2 c) := by
  rw [decode, hop, hrow]

end Sys2Proof

namespace Sys2Proof.Machine

/-! ### Operations without a transport call -/

theorem onlyResponse_pass {s : State} (hf : s.flight = none) (r : Results) : OnlyResponse s (s.pass r) := by
  simp [OnlyResponse, State.pass, ← hf]

/-- An operation without steps whose checks pass and whose result is no failure answers with that result at once. -/
theorem exec_pass_of_result {i : Instr} {checks : List (Bool × FailCause)} {fin : List Byte → Except FailCause Results}
    {s : State} {r : Results} (he : exec i s = operation i checks [] fin s) (hf : s.flight = none)
    (hc : ∀ e ∈ checks, e.1 = true) (hr : fin [] = .ok r) : exec i s = .next (s.pass r) := by
  rw [he, operation_start hf hc, runSteps_nil, hr, State.respond]

theorem exec_bcdDec {s : State} (hf : s.flight = none) (b : Byte) {tw : BitVec 3} (hw : 1 ≤ tw.toNat ∧ tw.toNat ≤ 4) :
    exec (.bcdDec b tw) s = .next (s.pass { res8 := some (bcdDec b tw.toNat) }) :=
  exec_pass_of_result rfl hf (by simpa using hw) rfl

theorem exec_bcdEnc {s : State} (hf : s.flight = none) (d : Byte) :
    exec (.bcdEnc d) s = .next (s.pass { res8 := some (bcdEnc d) }) :=
  exec_pass_of_result rfl hf (List.forall_mem_nil _) rfl

/-! ### The decoder and the encoder in arithmetic -/

/-- The value that a byte assembles to at tens width `w`: `v` of 40 R141. -/
def assembled (b : Byte) (w : Nat) : Nat := b.toNat / 16 % 2 ^ w * 10 + b.toNat % 16

theorem bcdDec_of_lt_ten {b : Byte} (h : b.toNat < 10) (w : Nat) : bcdDec b w = b := if_pos h

/-- From ten on the shift and the mask of 40 R141 are a quotient and a remainder. -/
theorem bcdDec_of_ten_le {b : Byte} (h : 10 ≤ b.toNat) (w : Nat) :
    bcdDec b w = if assembled b w > 99 then 0 else BitVec.ofNat 8 (assembled b w) := by
  have hsum : (b.toNat >>> 4 &&& tensMask w) * 10 + (b.toNat &&& 0x0F) = assembled b w := by
    rw [tensMask, Nat.one_shiftLeft, Nat.and_two_pow_sub_one_eq_mod, Nat.shiftRight_eq_div_pow,
      Nat.and_two_pow_sub_one_eq_mod b.toNat 4, assembled]
  simp only [bcdDec, if_neg h.not_gt, hsum]

/-- The two branches of the decoder give the same (40 R142 (b)). -/
theorem bcdDec_toNat (b : Byte) (w : Nat) : (bcdDec b w).toNat = if assembled b w > 99 then 0 else assembled b w := by
  obtain hlt | hle := Nat.lt_or_ge b.toNat 10
  · have hsum : assembled b w = b.toNat := by
      rw [assembled, Nat.div_eq_of_lt (by omega), Nat.zero_mod, Nat.mod_eq_of_lt (by omega)]
      omega
    rw [bcdDec_of_lt_ten hlt, hsum, if_neg (by omega)]
  · rw [bcdDec_of_ten_le hle]
    split
    · rfl
    · exact Nat.mod_eq_of_lt (by omega)

theorem bcdEnc_of_gt {d : Byte} (h : 99 < d.toNat) : bcdEnc d = 0 := if_pos h

theorem bcdEnc_toNat {d : Byte} (h : d.toNat ≤ 99) : (bcdEnc d).toNat = 16 * (d.toNat / 10) + d.toNat % 10 := by
  have hpack : (d.toNat / 10) <<< 4 ||| d.toNat % 10 = 16 * (d.toNat / 10) + d.toNat % 10 := by
    rw [← Nat.shiftLeft_add_eq_or_of_lt (by omega), Nat.shiftLeft_eq, Nat.mul_comm]
  rw [bcdEnc, if_neg h.not_gt, hpack, BitVec.toNat_ofNat]
  omega

/-! ### The pair -/

/-- The round trip (40 R146), at every width that holds the tens digit. -/
theorem bcdDec_bcdEnc {d : Byte} {w : Nat} (h : d.toNat ≤ 99) (hw : d.toNat / 10 < 2 ^ w) : bcdDec (bcdEnc d) w = d := by
  have hsum : assembled (bcdEnc d) w = d.toNat := by
    have htens : (16 * (d.toNat / 10) + d.toNat % 10) / 16 = d.toNat / 10 := by omega
    rw [assembled, bcdEnc_toNat h, htens, Nat.mod_eq_of_lt hw]
    omega
  refine BitVec.eq_of_toNat_eq ?_
  rw [bcdDec_toNat, hsum, if_neg h.not_gt]

theorem bcdDec_of_assembled_gt {b : Byte} {w : Nat} (h : 99 < assembled b w) : bcdDec b w = 0 :=
  BitVec.eq_of_toNat_eq ((bcdDec_toNat b w).trans (if_pos h))

/-- Bits above the tens width do not matter (40 R142 (c)): `m` masks the ones nibble and `w` bits above it. -/
theorem bcdDec_and_mask (b : Byte) {m : Byte} {w : Nat} (hm : m.toNat = 2 ^ (4 + w) - 1) :
    bcdDec b w = bcdDec (b &&& m) w := by
  have hsum : assembled (b &&& m) w = assembled b w := by
    rw [assembled, BitVec.toNat_and, hm, Nat.and_two_pow_sub_one_eq_mod, Nat.pow_add,
      Nat.mod_mul_right_div_self, Nat.mod_mod, Nat.mod_mul_right_mod, assembled]
  refine BitVec.eq_of_toNat_eq ?_
  rw [bcdDec_toNat, bcdDec_toNat, hsum]

/-- Settles O15: the legal widths pass the one check and answer at once (`exec_bcdDec`), a reserved width is an operand that is
not well formed. -/
theorem bcdDecRule : Obligations.BcdDecRule := by
  refine ⟨fun c hop => decode_of_row hop rfl, fun s b tw hf => ⟨fun hw => ?reserved, fun hw => ?legal⟩⟩
  case reserved => exact reservedOperandsRefused _ s hf (decide_eq_false hw)
  case legal =>
    refine ⟨_, exec_bcdDec hf b hw, rfl, onlyResponse_pass hf _, fun hlt => bcdDec_of_lt_ten hlt _, ?_⟩
    rintro - _ rfl
    exact bcdDec_toNat b tw.toNat

/-- Settles O16: the operation checks nothing and answers at once (`exec_bcdEnc`). -/
theorem bcdEncRule : Obligations.BcdEncRule :=
  ⟨fun _ hop => decode_of_row hop rfl, fun _ d hf =>
    ⟨_, exec_bcdEnc hf d, rfl, onlyResponse_pass hf _, bcdEnc_of_gt, bcdEnc_toNat⟩⟩

/-- Settles O17: each bound is the largest decimal whose tens digit fits the width (`bcdDec_bcdEnc`). -/
theorem bcdPairLaws : Obligations.BcdPairLaws := by
  refine ⟨fun d h => bcdDec_bcdEnc h ?_, fun d h => bcdDec_bcdEnc ?_ ?_, fun d h => bcdDec_bcdEnc ?_ ?_,
    fun d h => bcdDec_bcdEnc ?_ ?_, fun d => bcdEnc_of_gt, fun b h => bcdDec_of_assembled_gt ?width4,
    fun b => ⟨bcdDec_and_mask b rfl, bcdDec_and_mask b rfl, bcdDec_and_mask b rfl⟩⟩
  case width4 =>
    have := b.isLt
    rw [assembled]
    omega
  all_goals omega

end Sys2Proof.Machine
end

section
/-! PROOFS. The time register codec (41): the time block of a TimeValue and back (R161 to R167), the shape of a read (43 R241)
with TIME_GET and MODE_GET (R168, R171), and TIME_SET call by call (R169, R170), which leaves the time that a get then gives
(R172). -/

namespace Sys2Proof.Machine

/-! ### The time block -/

/-- A mark above the tens width is not decoded (40 R142 (c)): `m` masks the ones nibble and `w` bits above it. -/
theorem bcdDec_or_mark (b : Byte) {x m : Byte} {w : Nat} (hm : m.toNat = 2 ^ (4 + w) - 1) (hx : x &&& m = 0#8) :
    bcdDec (b ||| x) w = bcdDec b w := by
  rw [bcdDec_and_mask _ hm, BitVec.and_or_distrib_right, hx, BitVec.or_zero, ← bcdDec_and_mask b hm]

/-- The hours byte field by field (42 R193). -/
theorem hoursDec_eq (b : Byte) : hoursDec b = (if b.getLsbD 6 then bcdDec b 1 else bcdDec b 2, b.getLsbD 6,
    if b.getLsbD 6 then b.getLsbD 5 else Config.pPm24h) := by
  rw [hoursDec]
  cases b.getLsbD 6 <;> rfl

/-- The hours byte comes back with its mode, and in 12-hour mode with `pm`, when the tens digit leaves their bits free
(30 R103). -/
theorem hoursDec_hoursEnc {hours : Byte} {pm mode12 : Bool} (h : hours.toNat ≤ if mode12 then 19 else 39) :
    hoursDec (hoursEnc hours pm mode12) = (hours, mode12, if mode12 then pm else Config.pPm24h) := by
  obtain ⟨-, -, width2, width1, -⟩ := bcdPairLaws
  cases mode12 with
  | false =>
    have h39 : hours.toNat ≤ 39 := h
    have hlt : (bcdEnc hours).toNat < 2 ^ 6 := by rw [bcdEnc_toNat] <;> omega
    have modeFree : (bcdEnc hours)[6] = false := Nat.testBit_lt_two_pow hlt
    simp [hoursEnc, hoursDec, modeFree, width2 hours h39]
  | true =>
    have h19 : hours.toNat ≤ 19 := h
    have hlt : (bcdEnc hours).toNat < 2 ^ 5 := by rw [bcdEnc_toNat] <;> omega
    have pmFree : (bcdEnc hours)[5] = false := Nat.testBit_lt_two_pow hlt
    have unmark (b : Byte) {x : Byte} (hx : x &&& 0x1F = 0#8) : bcdDec (b ||| x) 1 = bcdDec b 1 := bcdDec_or_mark b rfl hx
    cases pm <;> simp [hoursEnc, hoursDec, pmFree, unmark, width1 hours h19]

/-- Settles O20: the round trip of each decimal at the tens width of its field (`bcdPairLaws`), and that of the hours byte
(`hoursDec_hoursEnc`). -/
theorem timeRoundTrip : Obligations.TimeRoundTrip := by
  rintro tv use24 ⟨seconds, minutes, hours, dayOfMonth, month, year⟩
  obtain ⟨width4, width3, width2, width1, -⟩ := bcdPairLaws
  have hoursBack : hoursDec (hoursEnc tv.hours tv.pm (!use24)) =
      (tv.hours, !use24, if use24 then Config.pPm24h else tv.pm) := by
    cases use24 <;> exact hoursDec_hoursEnc hours
  simp only [timeDec, timeEnc, hoursBack, width3 _ seconds, width3 _ minutes, width2 _ dayOfMonth, width1 _ month,
    width4 _ year]

/-! ### TIME_DEC and TIME_ENC -/

/-- The bytes of a result block are the low bytes of `blk_out` (30 R113). -/
theorem blkOutIs_pass (r : Results) (n : Nat) (h : r.blk.length ≤ 7) : BlkOutIs (.pass r n) r.blk := by
  have fits (hi : BitVec 56) : packBytes r.blk + 2 ^ (8 * r.blk.length) * (hi.toNat / 2 ^ (8 * r.blk.length)) < 2 ^ 56 := by
    obtain ⟨m, hm⟩ := Nat.pow_dvd_pow 2 (show 8 * r.blk.length ≤ 56 by omega)
    have packed := packBytes_lt r.blk
    have above : hi.toNat / 2 ^ (8 * r.blk.length) < m := Nat.div_lt_of_lt_mul (hm ▸ hi.isLt)
    calc _ < 2 ^ (8 * r.blk.length) * (hi.toNat / 2 ^ (8 * r.blk.length) + 1) := by rw [Nat.mul_succ]; omega
      _ ≤ 2 ^ 56 := hm ▸ Nat.mul_le_mul_left _ above
  intro k hk
  rw [extractLsb'_eq_portByte, Response.pass, blkOutPort, BitVec.toNat_ofNat, Nat.mod_eq_of_lt (fits _)]
  exact portByte_packBytes _ _ hk

theorem exec_timeDec {s : State} (hf : s.flight = none) (B : TimeRegs) :
    exec (.timeDec B) s = .next (s.pass { tv := some (timeDec B) }) :=
  exec_pass_of_result rfl hf (List.forall_mem_nil _) rfl

theorem exec_timeEnc {s : State} (hf : s.flight = none) (tv : TimeValue) (use24 : Bool) :
    exec (.timeEnc tv use24) s = .next (s.pass { blk := (timeEnc tv use24).toBytes }) :=
  exec_pass_of_result rfl hf (List.forall_mem_nil _) rfl

/-- Settles O18: the operation answers at once (`exec_timeDec`) with `timeDec`, whose hours byte is that of `hoursDec_eq`. -/
theorem timeDecRule : Obligations.TimeDecRule := by
  refine ⟨fun _ hop => decode_of_row hop rfl, fun s B hf => ⟨_, exec_timeDec hf B, rfl, onlyResponse_pass hf _, ?_⟩⟩
  show (timeDec B).toPort = _
  rw [timeDec, hoursDec_eq]

/-- Settles O19: the operation answers at once (`exec_timeEnc`) with the bytes of the block (`blkOutIs_pass`). -/
theorem timeEncRule : Obligations.TimeEncRule := by
  refine ⟨fun _ hop => decode_of_row hop rfl, fun s tv use24 hf =>
    ⟨_, exec_timeEnc hf tv use24, rfl, onlyResponse_pass hf _, ?_⟩⟩
  cases use24 <;> exact blkOutIs_pass _ _ (Nat.le_refl 7)

/-! ### Reads -/

section
variable {s : State} {w : List WireEvent}

theorem onlyTransport_pass (hf : s.flight = none) (dev : Memory) (trace : List Call) (r : Results) :
    OnlyTransport s (State.pass { s with dev := dev, trace := trace, wire := w } r) w := by
  simp [OnlyTransport, State.pass, ← hf]

theorem onlyTransport_fail (hf : s.flight = none) (dev : Memory) (trace : List Call) (c : FailCause) :
    OnlyTransport s (State.fail { s with dev := dev, trace := trace, wire := w } c) w := by
  simp [OnlyTransport, State.fail, ← hf]

end

/-- Every `rd(A, n)` inside the register file has the read shape (43 R241), with the results `g` of the bytes it reads. -/
theorem rdShape_of_rd {op : Bool → Bool → Instr} {start n : Nat} {call : Call} {results : List Byte → Results}
    {g : State → Response → Prop} (he : ∀ hv ov s, exec (op hv ov) s = rd (op hv ov) hv ov start n results s)
    (hr : start + n ≤ 0x13) (hcall : readCall start n = call)
    (hg : ∀ s : State, g s (.pass (results (regBytes s.dev start n)) s.free)) : RdShape op call g := by
  subst hcall
  intro s hf
  refine ⟨fun hv ov h => ?step0, fun hs => ?steps⟩
  case step0 => exact failsAtOnce_of_check (he hv ov s) hf (by simpa using h)
  case steps =>
    rw [he, rd, operation_start hf (by simp [hs])]
    refine ⟨fun a w ha hw => ⟨_, rfl, ?_⟩, fun w ⟨as, hlen, ha, hw⟩ => ⟨_, rfl, ?_⟩⟩
    · rw [runSteps_read_fail hw ha.1]
      exact ⟨rfl, fun _ => rfl, rfl, onlyTransport_fail hf _ _ _⟩
    · obtain ⟨a, rfl⟩ := List.length_eq_one_iff.mp hlen
      rw [runSteps_read_pass hw (ha a List.mem_cons_self) hs hr]
      exact ⟨rfl, hg s, fun _ => rfl, rfl, onlyTransport_pass hf _ _ _⟩

/-- Settles O21: the seven bytes read are the time registers (`rdShape_of_rd`). -/
theorem timeGetRule : Obligations.TimeGetRule :=
  ⟨fun _ hop => decode_of_row hop rfl, rdShape_of_rd (fun _ _ _ => rfl) (by decide) rfl fun _ => rfl⟩

/-- Settles O22: the byte read is the hours register (`rdShape_of_rd`). -/
theorem modeGetRule : Obligations.ModeGetRule :=
  ⟨fun _ hop => decode_of_row hop rfl, rdShape_of_rd (fun _ _ _ => rfl) (by decide) rfl fun _ => rfl⟩

/-- OSF_GET has the read shape over the status byte (43 R254). -/
theorem osfGet_rdShape : RdShape .osfGet (.readSingle 0x0F) (fun s r => r.flagOut = (s.reg 0x0F).getLsbD 7) :=
  rdShape_of_rd (fun _ _ _ => rfl) (by decide) rfl fun _ => rfl

/-! ### TIME_SET -/

section
variable {s : State} {tv : TimeValue} {use24 : Bool} {a b c : Answer} {w : List WireEvent}

/-- The addresses of the time block (30 R102). -/
theorem timeBlock_range {B : TimeRegs} {x : Nat} :
    Config.timeBase ≤ x ∧ x < Config.timeBase + B.toBytes.length ↔ x < 7 := by
  simp [Config.timeBase, TimeRegs.toBytes]

/-- The time registers after a write of the whole block. -/
theorem timeRegs_writeBlock {m : Memory} {B : TimeRegs} (hd : s.dev = m.writeBlock Config.timeBase B.toBytes) :
    s.timeRegs = B := by
  simp [State.timeRegs, State.reg, hd, Memory.read_writeBlock, Config.timeBase, TimeRegs.toBytes]

/-- The registers once the status byte is written back cleared of OSF: step 2 of TIME_SET (41 R169). -/
def State.osfCleared (s : State) : Memory := s.dev.write Config.statAddr (osfClrByte (s.reg Config.statAddr))

theorem State.osfCleared_read_stat (s : State) : s.osfCleared.read 0x0F = s.reg 0x0F &&& 0x7F :=
  (Memory.read_write ..).trans (if_pos rfl)

theorem State.osfCleared_read_other (s : State) {x : Nat} (hx : x ≠ 0x0F) : s.osfCleared.read x = s.reg x :=
  (Memory.read_write ..).trans (if_neg hx)

/-- The calls that TIME_SET has put out before the block write, newest first. -/
def State.osfClearTrace (s : State) : List Call :=
  .writeSingle 0x0F (s.reg 0x0F &&& 0x7F) :: .readSingle 0x0F :: s.trace

/-- Steps 1 and 2 of TIME_SET when both calls pass. -/
theorem runSteps_osfClear {i : Instr} {fin : List Byte → Except FailCause Results} {rest : List OpStep} {k : Nat}
    {l : List Byte} (hs : s.sess = true) (ha : GoodAnswer a) (hb : GoodAnswer b)
    (hw : s.wire = .answer a :: .answer b :: w) :
    runSteps i fin (.read Config.statAddr 1 :: .write Config.statAddr (fun r => [osfClrByte (r.getD 0 0)]) :: rest) k l s =
      runSteps i fin rest (k + 2) (regBytes s.dev Config.statAddr 1)
        { s with dev := s.osfCleared, trace := s.osfClearTrace, wire := w } :=
  Eq.trans (runSteps_read_pass hw ha hs (by decide)) (runSteps_write_pass rfl hb hs (by simp [Config.statAddr]))

/-! What TIME_SET comes to, by the first of its three calls that fails (41 R169, R170). -/

section
variable (hf : s.flight = none) (hs : s.sess = true)
include hf hs

theorem exec_timeSet (tv : TimeValue) (use24 : Bool) : exec (.timeSet true true tv use24) s =
    .next (runSteps (.timeSet true true tv use24) (fun _ => .ok {})
      [.read Config.statAddr 1, .write Config.statAddr (fun r => [osfClrByte (r.getD 0 0)]),
       .write Config.timeBase (fun _ => (timeEnc tv use24).toBytes)] 0 [] s) :=
  operation_start hf (by simp [hs])

theorem exec_timeSet_pass (hA : Answered s 3 w) : exec (.timeSet true true tv use24) s = .next (State.pass { s with
    dev := s.osfCleared.writeBlock Config.timeBase (timeEnc tv use24).toBytes
    trace := .writeMulti 0x00 (timeEnc tv use24).toBytes :: s.osfClearTrace
    wire := w } {}) := by
  obtain ⟨as, hlen, ha, hw⟩ := hA
  obtain ⟨a, b, c, rfl⟩ := List.length_eq_three.mp hlen
  simp only [List.forall_mem_cons] at ha
  obtain ⟨ha, hb, hc, -⟩ := ha
  rw [exec_timeSet hf hs, runSteps_osfClear hs ha hb hw]
  exact congrArg _ (runSteps_write_pass rfl hc hs (by simp [Config.timeBase, TimeRegs.toBytes]))

theorem exec_timeSet_read_fail (ha : BadAnswer a) (hw : s.wire = .answer a :: w) :
    exec (.timeSet true true tv use24) s =
      .next (State.fail { s with trace := .readSingle 0x0F :: s.trace, wire := w } .transport) := by
  rw [exec_timeSet hf hs, runSteps_read_fail hw ha.1]
  rfl

theorem exec_timeSet_status_fail (ha : GoodAnswer a) (hb : BadAnswer b) (hw : s.wire = .answer a :: .answer b :: w) :
    exec (.timeSet true true tv use24) s = .next (State.fail { s with
      dev := s.dev.transferOut b false Config.statAddr [s.reg 0x0F &&& 0x7F] 0
      trace := s.osfClearTrace
      wire := w } .transport) := by
  rw [exec_timeSet hf hs, runSteps_read_pass hw ha hs (by decide)]
  exact congrArg _ (runSteps_write_fail rfl hb.1)

theorem exec_timeSet_block_fail (ha : GoodAnswer a) (hb : GoodAnswer b) (hc : BadAnswer c)
    (hw : s.wire = .answer a :: .answer b :: .answer c :: w) :
    exec (.timeSet true true tv use24) s = .next (State.fail { s with
      dev := s.osfCleared.transferOut c false Config.timeBase (timeEnc tv use24).toBytes 0
      trace := .writeMulti 0x00 (timeEnc tv use24).toBytes :: s.osfClearTrace
      wire := w } .transport) := by
  rw [exec_timeSet hf hs, runSteps_osfClear hs ha hb hw]
  exact congrArg _ (runSteps_write_fail rfl hc.1)

end

/-- Settles O23: step 0 checks handle, session and value, and a pass leaves the registers of `exec_timeSet_pass`. -/
theorem timeSetRule : Obligations.TimeSetRule := by
  refine ⟨fun _ hop => decode_of_row hop rfl, fun s tv use24 hf => ⟨fun hv vv h => ?step0, fun hs w hA => ?pass⟩⟩
  case step0 => exact failsAtOnce_of_check rfl hf (by simpa using h)
  case pass =>
    have outside {x : Nat} (h7 : 7 ≤ x) :
        (s.osfCleared.writeBlock Config.timeBase (timeEnc tv use24).toBytes).read x = s.osfCleared.read x := by
      rw [Memory.read_writeBlock, dif_neg (mt timeBlock_range.mp h7.not_gt)]
    exact ⟨_, exec_timeSet_pass hf hs hA, rfl, (outside (by decide)).trans s.osfCleared_read_stat, timeRegs_writeBlock rfl,
      fun a h7 ha => (outside h7).trans (s.osfCleared_read_other ha), rfl, onlyTransport_pass hf _ _ _⟩

/-- Settles O24: a failed write leaves each register it addressed old or new (`transferOut_fail`), on top of the calls that
passed. -/
theorem timeSetFailureLeftovers : Obligations.TimeSetFailureLeftovers := by
  rintro s tv use24 ⟨hf, hs⟩
  refine ⟨fun a w ha hw => ?read, fun a b w ha hb hw => ?status, fun a b c w ha hb hc hw => ?block⟩
  case read => exact ⟨_, exec_timeSet_read_fail hf hs ha hw, rfl, fun _ => rfl, onlyTransport_fail hf _ _ _⟩
  case status =>
    have left := transferOut_fail hb.2 false Config.statAddr [s.reg 0x0F &&& 0x7F] 0 s.dev
    exact ⟨_, exec_timeSet_status_fail hf hs ha hb hw, rfl, (left 0x0F).imp_right fun ⟨_, new⟩ => new,
      fun x hx => (left x).resolve_right fun ⟨hin, _⟩ => hx hin, onlyTransport_fail hf _ _ _⟩
  case block =>
    have left := transferOut_fail hc.2 false Config.timeBase (timeEnc tv use24).toBytes 0 s.osfCleared
    have outside {x : Nat} (h7 : 7 ≤ x) := (left x).resolve_right fun ⟨hin, _⟩ => h7.not_gt (timeBlock_range.mp hin)
    refine ⟨_, exec_timeSet_block_fail hf hs ha hb hc hw, rfl, (outside (by decide)).trans s.osfCleared_read_stat,
      fun k hk => ?_, fun x h7 hx => (outside h7).trans (s.osfCleared_read_other hx), onlyTransport_fail hf _ _ _⟩
    have hk7 : k < 7 := hk
    exact (left k).imp (·.trans (s.osfCleared_read_other (by omega))) fun ⟨_, new⟩ => new

end

/-! ### Setting and getting the time -/

section
variable {s t : State} {m n : Nat} {w : List WireEvent}

theorem OnlyTransport.wire (h : OnlyTransport s t w) : t.wire = w := congrArg State.wire h

theorem OnlyTransport.ready (h : OnlyTransport s t w) (hs : Ready s) : Ready t :=
  ⟨(congrArg State.flight h).trans hs.1, (congrArg State.sess h).trans hs.2⟩

/-- The answers of the first calls, and from a state whose wire is the rest the answers of the others. -/
theorem Answered.split (h : Answered s (m + n) w) :
    ∃ w', Answered s m w' ∧ ∀ t : State, t.wire = w' → Answered t n w := by
  obtain ⟨as, hlen, hgood, hwire⟩ := h
  refine ⟨(as.drop m).map .answer ++ w, ⟨as.take m, by simp [hlen], fun a ha => hgood a (List.mem_of_mem_take ha), ?_⟩,
    fun t ht => ⟨as.drop m, by simp [hlen], fun a ha => hgood a (List.mem_of_mem_drop ha), ht⟩⟩
  rw [← List.append_assoc, ← List.map_append, List.take_append_drop, hwire]

end

/-- Settles O25: the get finds the block that the set left (`timeSetRule`, `timeGetRule`), which decodes to the fields set
(`timeRoundTrip`), and OSF_GET the status byte cleared of OSF. -/
theorem timeSetThenGet : Obligations.TimeSetThenGet := by
  intro s tv use24 w hs hfit hA
  obtain ⟨w1, hset, rest⟩ := Answered.split (m := 3) (n := 2) hA
  obtain ⟨t, ht, htok, htosf, httime, -, -, htframe⟩ := (timeSetRule.2 s tv use24 hs.1).2 hs.2 w1 hset
  have htr := htframe.ready hs
  obtain ⟨w2, hget, rest⟩ := (rest t htframe.wire).split (m := 1) (n := 1)
  obtain ⟨u, hu, huok, hutv, hukept, -, huframe⟩ := ((timeGetRule.2 t htr.1).2 htr.2).2 w2 hget
  have hur := huframe.ready htr
  obtain ⟨v, hv, hvok, hvflag, -⟩ := ((osfGet_rdShape u hur.1).2 hur.2).2 w (rest u huframe.wire)
  refine ⟨t, u, v, ht, hu, hv, htok, huok, hvok, ?_, ?_⟩
  · rw [hutv, httime, timeRoundTrip tv use24 hfit]
  · rw [hvflag, hukept, htosf]
    simp

end Sys2Proof.Machine
end

section
/-! PROOFS. The alarm blocks (42): the variant of a tag, the four pure operations (R196, R197, R200, R201), the tag as the
fingerprint of the block its encode writes (R199), and the round trip (R203). -/

namespace Sys2Proof.Machine

/-! ### Tags and variants -/

@[simp] theorem alarm1Variant_ofTag_tag (v : Alarm1Variant) : Alarm1Variant.ofTag v.tag = some v := by
  cases v <;> rfl

@[simp] theorem alarm2Variant_ofTag_tag (v : Alarm2Variant) : Alarm2Variant.ofTag v.tag = some v := by
  cases v <;> rfl

/-- The decoders of 42 R200, R201 by what the fingerprint is. -/
theorem a1Dec_of_variant {B : Alarm1Regs} {v : Alarm1Variant} (h : fp1 B = v.tag) (tv : TimeValue) :
    a1Dec B tv = .ok (v, a1Populate v B tv) := by rw [a1Dec, h, alarm1Variant_ofTag_tag]

theorem a1Dec_of_illegal {B : Alarm1Regs} (h : sel1Legal (fp1 B) = false) (tv : TimeValue) :
    a1Dec B tv = .error .fingerprint := by rw [a1Dec, alarm1Variant_ofTag_none h]

theorem a2Dec_of_variant {B : Alarm2Regs} {v : Alarm2Variant} (h : fp2 B = v.tag) (tv : TimeValue) :
    a2Dec B tv = .ok (v, a2Populate v B tv) := by rw [a2Dec, h, alarm2Variant_ofTag_tag]

theorem a2Dec_of_illegal {B : Alarm2Regs} (h : sel2Legal (fp2 B) = false) (tv : TimeValue) :
    a2Dec B tv = .error .fingerprint := by rw [a2Dec, alarm2Variant_ofTag_none h]

theorem alarm1Results_of_ok {B : Alarm1Regs} {tv tv' : TimeValue} {v : Alarm1Variant} (h : a1Dec B tv = .ok (v, tv')) :
    alarm1Results B tv = .ok { var1 := some v.tag, tv := some tv' } := by rw [alarm1Results, h]

theorem alarm1Results_of_error {B : Alarm1Regs} {tv : TimeValue} {c : FailCause} (h : a1Dec B tv = .error c) :
    alarm1Results B tv = .error c := by rw [alarm1Results, h]

theorem alarm2Results_of_ok {B : Alarm2Regs} {tv tv' : TimeValue} {v : Alarm2Variant} (h : a2Dec B tv = .ok (v, tv')) :
    alarm2Results B tv = .ok { var2 := some v.tag, tv := some tv' } := by rw [alarm2Results, h]

theorem alarm2Results_of_error {B : Alarm2Regs} {tv : TimeValue} {c : FailCause} (h : a2Dec B tv = .error c) :
    alarm2Results B tv = .error c := by rw [alarm2Results, h]

/-! ### A1_ENC and A2_ENC -/

section
variable {s : State} (hf : s.flight = none) (tv : TimeValue) (mode12 : Bool)
include hf

theorem exec_a1Enc_tag (v : Alarm1Variant) : ∃ t, exec (.a1Enc v.tag tv mode12) s = .next t ∧ t.resp.ok = true ∧
    OnlyResponse s t ∧ BlkOutIs t.resp (a1Enc v tv mode12).toBytes :=
  ⟨s.pass { blk := (a1Enc v tv mode12).toBytes },
    exec_pass_of_result rfl hf (List.forall_mem_nil _) (by rw [alarm1Variant_ofTag_tag]), rfl, onlyResponse_pass hf _,
    blkOutIs_pass _ _ (by simp [Alarm1Regs.toBytes])⟩

theorem exec_a2Enc_tag (v : Alarm2Variant) : ∃ t, exec (.a2Enc v.tag tv mode12) s = .next t ∧ t.resp.ok = true ∧
    OnlyResponse s t ∧ BlkOutIs t.resp (a2Enc v tv mode12).toBytes :=
  ⟨s.pass { blk := (a2Enc v tv mode12).toBytes },
    exec_pass_of_result rfl hf (List.forall_mem_nil _) (by rw [alarm2Variant_ofTag_tag]), rfl, onlyResponse_pass hf _,
    blkOutIs_pass _ _ (by simp [Alarm2Regs.toBytes])⟩

end

/-- Settles O26: each tag is that of its variant (`exec_a1Enc_tag`), and a tag of none is a reserved operand value. -/
theorem alarm1EncRule : Obligations.Alarm1EncRule := by
  refine ⟨fun _ hop => decode_of_row hop rfl, ?_⟩
  rintro s tv mode12 _ _ _ hf rfl rfl rfl
  have enc := exec_a1Enc_tag hf tv mode12
  refine ⟨?_, fun sel1 h => reservedOperandsRefused _ s hf (by simpa [Instr.wf, sel1Legal] using h)⟩
  simp only [List.forall_mem_cons]
  exact ⟨enc .oncePerSecond, enc .secondsOnly, enc .secondsMinutes, enc .secondsMinutesHours,
    enc .secondsMinutesHoursDayOfMonth, enc .secondsMinutesHoursDayOfWeek, List.forall_mem_nil _⟩

/-- Settles O27: each tag is that of its variant (`exec_a2Enc_tag`), and a tag of none is a reserved operand value. -/
theorem alarm2EncRule : Obligations.Alarm2EncRule := by
  refine ⟨fun _ hop => decode_of_row hop rfl, ?_⟩
  rintro s tv mode12 _ _ hf rfl rfl
  have enc := exec_a2Enc_tag hf tv mode12
  refine ⟨?_, fun sel2 h => reservedOperandsRefused _ s hf (by simpa [Instr.wf, sel2Legal] using h)⟩
  simp only [List.forall_mem_cons]
  exact ⟨enc .oncePerMinute, enc .minutesOnly, enc .minutesHours, enc .minutesHoursDayOfMonth,
    enc .minutesHoursDayOfWeek, List.forall_mem_nil _⟩

/-! ### A1_DEC and A2_DEC -/

/-- The five mask bits as a number: bit `i` of the fingerprint weighs `2 ^ i` (30 R109). -/
theorem fp1_toNat (B : Alarm1Regs) : (fp1 B).toNat =
    (B.seconds.getLsbD 7).toNat + 2 * (B.minutes.getLsbD 7).toNat + 4 * (B.hours.getLsbD 7).toNat
      + 8 * (B.day.getLsbD 7).toNat + 16 * (B.day.getLsbD 6).toNat := by
  have weights : ∀ a b c d e : Bool,
      (BitVec.ofNat 5 (a.toNat ||| b.toNat <<< 1 ||| c.toNat <<< 2 ||| d.toNat <<< 3 ||| e.toNat <<< 4)).toNat =
        a.toNat + 2 * b.toNat + 4 * c.toNat + 8 * d.toNat + 16 * e.toNat := by decide
  exact weights _ _ _ _ _

theorem fp2_toNat (B : Alarm2Regs) : (fp2 B).toNat =
    (B.minutes.getLsbD 7).toNat + 2 * (B.hours.getLsbD 7).toNat + 4 * (B.day.getLsbD 7).toNat
      + 8 * (B.day.getLsbD 6).toNat := by
  have weights : ∀ a b c d : Bool,
      (BitVec.ofNat 4 (a.toNat ||| b.toNat <<< 1 ||| c.toNat <<< 2 ||| d.toNat <<< 3)).toNat =
        a.toNat + 2 * b.toNat + 4 * c.toNat + 8 * d.toNat := by decide
  exact weights _ _ _ _

/-- A legal tag is that of a variant (30 R110). -/
theorem exists_alarm1Variant {t : BitVec 5} (h : sel1Legal t = true) : ∃ v : Alarm1Variant, t = v.tag := by
  rw [sel1Legal_eq, Option.isSome_iff_exists] at h
  obtain ⟨v, hv⟩ := h
  exact ⟨v, alarm1Variant_tag_ofTag hv⟩

theorem exists_alarm2Variant {t : BitVec 4} (h : sel2Legal t = true) : ∃ v : Alarm2Variant, t = v.tag := by
  rw [sel2Legal_eq, Option.isSome_iff_exists] at h
  obtain ⟨v, hv⟩ := h
  exact ⟨v, alarm2Variant_tag_ofTag hv⟩

/-- The hours fields after a decode, one by one (42 R193). -/
theorem withHours_eq (tv : TimeValue) (b : Byte) : withHours tv b = { tv with
    hours := if b.getLsbD 6 then bcdDec b 1 else bcdDec b 2
    is12HourFormat := b.getLsbD 6
    pm := if b.getLsbD 6 then b.getLsbD 5 else Config.pPm24h } := by
  rw [withHours, hoursDec_eq]

section
variable {s : State} (hf : s.flight = none) (tv : TimeValue)
include hf

theorem exec_a1Dec_of_variant {B : Alarm1Regs} {v : Alarm1Variant} (h : fp1 B = v.tag) :
    exec (.a1Dec B tv) s = .next (s.pass { var1 := some v.tag, tv := some (a1Populate v B tv) }) :=
  exec_pass_of_result rfl hf (List.forall_mem_nil _) (alarm1Results_of_ok (a1Dec_of_variant h tv))

theorem exec_a2Dec_of_variant {B : Alarm2Regs} {v : Alarm2Variant} (h : fp2 B = v.tag) :
    exec (.a2Dec B tv) s = .next (s.pass { var2 := some v.tag, tv := some (a2Populate v B tv) }) :=
  exec_pass_of_result rfl hf (List.forall_mem_nil _) (alarm2Results_of_ok (a2Dec_of_variant h tv))

end

/-- Settles O28: an illegal fingerprint fails at once, a legal one is the tag of a variant, which names the fields that
`a1Populate` decodes. -/
theorem alarm1DecRule : Obligations.Alarm1DecRule := by
  refine ⟨fun _ hop => decode_of_row hop rfl, ?_⟩
  rintro s B tv fp hf hfp
  rw [← fp1_toNat] at hfp
  subst hfp
  refine ⟨fun hfp => ?unknown, fun hfp => ?known⟩
  case unknown =>
    have illegal : sel1Legal (fp1 B) = false := by simpa [sel1Legal] using hfp
    exact failsAtOnce_of_result rfl hf (alarm1Results_of_error (a1Dec_of_illegal illegal tv))
  case known =>
    obtain ⟨v, hv⟩ := exists_alarm1Variant (List.contains_iff_mem.mpr hfp)
    refine ⟨_, exec_a1Dec_of_variant hf tv hv, rfl, onlyResponse_pass hf _, congrArg BitVec.toNat hv.symm, ?_⟩
    show (a1Populate v B tv).toPort = _
    rw [hv]
    cases v <;> simp only [a1Populate, withHours_eq] <;> rfl

/-- Settles O29: an illegal fingerprint fails at once, a legal one is the tag of a variant, which names the fields that
`a2Populate` decodes. -/
theorem alarm2DecRule : Obligations.Alarm2DecRule := by
  refine ⟨fun _ hop => decode_of_row hop rfl, ?_⟩
  rintro s B tv fp hf hfp
  rw [← fp2_toNat] at hfp
  subst hfp
  refine ⟨fun hfp => ?unknown, fun hfp => ?known⟩
  case unknown =>
    have illegal : sel2Legal (fp2 B) = false := by simpa [sel2Legal] using hfp
    exact failsAtOnce_of_result rfl hf (alarm2Results_of_error (a2Dec_of_illegal illegal tv))
  case known =>
    obtain ⟨v, hv⟩ := exists_alarm2Variant (List.contains_iff_mem.mpr hfp)
    refine ⟨_, exec_a2Dec_of_variant hf tv hv, rfl, onlyResponse_pass hf _, congrArg BitVec.toNat hv.symm, ?_⟩
    show (a2Populate v B tv).toPort = _
    rw [hv]
    cases v <;> simp only [a2Populate, withHours_eq] <;> rfl

/-! ### The block of a variant and back -/

/-- An encoded decimal whose tens digit fits the width leaves the bits above it free. -/
theorem bcdEnc_high_bit {d : Byte} {k : Nat} (h : d.toNat ≤ 99) (hk : d.toNat / 10 * 16 + 9 < 2 ^ k) :
    (bcdEnc d).getLsbD k = false :=
  Nat.testBit_lt_two_pow (by rw [bcdEnc_toNat h]; omega)

/-- The mask bit of an encoded decimal (30 R104) is free up to 79. -/
theorem bcdEnc_bit7 {d : Byte} (h : d.toNat ≤ 79) : (bcdEnc d).getLsbD 7 = false := bcdEnc_high_bit (by omega) (by omega)

theorem bcdEnc_bit6 {d : Byte} (h : d.toNat ≤ 39) : (bcdEnc d).getLsbD 6 = false := bcdEnc_high_bit (by omega) (by omega)

/-- The mask bit of an hours byte is free in both modes. -/
theorem hoursEnc_bit7 {hours : Byte} {pm mode12 : Bool} (h : hours.toNat ≤ if mode12 then 19 else 39) :
    (hoursEnc hours pm mode12).getLsbD 7 = false := by
  have free : (bcdEnc hours).getLsbD 7 = false := bcdEnc_bit7 (h.trans (by cases mode12 <;> decide))
  cases mode12 <;> cases pm <;> simp only [hoursEnc, BitVec.getLsbD_or, free, Bool.false_eq_true, if_false, if_true] <;> rfl

/-- The day byte of a day of the month has both of its upper bits free (42 R192). -/
theorem alarmDayOfMonth_bits {tv : TimeValue} (h : tv.dayOfMonth.toNat ≤ 39) :
    (alarmDayOfMonth tv).getLsbD 7 = false ∧ (alarmDayOfMonth tv).getLsbD 6 = false :=
  ⟨bcdEnc_bit7 (by omega), bcdEnc_bit6 h⟩

/-- The day byte of a day of the week is marked in bit 6 (42 R192). -/
theorem alarmDayOfWeek_bits {tv : TimeValue} (h : tv.dayOfWeek.toNat ≤ 39) :
    (alarmDayOfWeek tv).getLsbD 7 = false ∧ (alarmDayOfWeek tv).getLsbD 6 = true := by
  rw [alarmDayOfWeek, BitVec.getLsbD_or, BitVec.getLsbD_or, bcdEnc_bit7 (by omega), bcdEnc_bit6 h]
  exact ⟨rfl, rfl⟩

/-- Settles O30: bit 7 of a field the variant uses is free, that of every other is the mask, and bit 6 of the day byte tells the
two kinds of day apart. -/
theorem tagIsFingerprint : Obligations.TagIsFingerprint := by
  refine ⟨fun v tv m ⟨sec, min, hr, dom, dow⟩ => ?alarm1, fun v tv m ⟨min, hr, dom, dow⟩ => ?alarm2⟩
  case alarm1 =>
    have seconds (hv) := bcdEnc_bit7 (sec hv)
    have minutes (hv) := bcdEnc_bit7 (min hv)
    have hours (hv) : (alarmHours tv m).getLsbD 7 = false := hoursEnc_bit7 (hr hv)
    have dayOfMonth (hv) := alarmDayOfMonth_bits (dom hv)
    have dayOfWeek (hv) := alarmDayOfWeek_bits (dow hv)
    cases v <;> simp (disch := decide) only [fp1, bitNat, a1Enc, seconds, minutes, hours, dayOfMonth, dayOfWeek] <;> rfl
  case alarm2 =>
    have minutes (hv) := bcdEnc_bit7 (min hv)
    have hours (hv) : (alarmHours tv m).getLsbD 7 = false := hoursEnc_bit7 (hr hv)
    have dayOfMonth (hv) := alarmDayOfMonth_bits (dom hv)
    have dayOfWeek (hv) := alarmDayOfWeek_bits (dow hv)
    cases v <;> simp (disch := decide) only [fp2, bitNat, a2Enc, minutes, hours, dayOfMonth, dayOfWeek] <;> rfl

/-! The fields of an alarm block decoded again. -/

theorem bcdDec_alarmDayOfWeek {tv : TimeValue} (h : tv.dayOfWeek.toNat ≤ 39) :
    bcdDec (alarmDayOfWeek tv) 2 = tv.dayOfWeek := by
  rw [alarmDayOfWeek, bcdDec_or_mark (m := 0x3F) _ rfl rfl]
  exact bcdDec_bcdEnc (by omega) (by omega)

theorem withHours_alarmHours {tv : TimeValue} {m : Bool} (h : tv.hours.toNat ≤ if m then 19 else 39) (tv0 : TimeValue) :
    withHours tv0 (alarmHours tv m) =
      { tv0 with hours := tv.hours, is12HourFormat := m, pm := if m then tv.pm else Config.pPm24h } := by
  rw [withHours, alarmHours, hoursDec_hoursEnc h]

theorem a1Populate_a1Enc {v : Alarm1Variant} {tv : TimeValue} {m : Bool} (h : Used1Fit v tv m) (tv0 : TimeValue) :
    a1Populate v (a1Enc v tv m) tv0 = alarm1Reported v tv tv0 m := by
  obtain ⟨sec, min, hr, dom, dow⟩ := h
  obtain ⟨-, width3, width2, -⟩ := bcdPairLaws
  have seconds (hv) := width3 _ (sec hv)
  have minutes (hv) := width3 _ (min hv)
  have hours (hv) := withHours_alarmHours (hr hv)
  have dayOfMonth (hv) : bcdDec (alarmDayOfMonth tv) 2 = tv.dayOfMonth := width2 _ (dom hv)
  have dayOfWeek (hv) := bcdDec_alarmDayOfWeek (dow hv)
  cases v <;> simp (disch := decide) only [a1Populate, a1Enc, hasSeconds1, hasMinutes1, hasHours1, if_true,
    seconds, minutes, hours, dayOfMonth, dayOfWeek] <;> rfl

theorem a2Populate_a2Enc {v : Alarm2Variant} {tv : TimeValue} {m : Bool} (h : Used2Fit v tv m) (tv0 : TimeValue) :
    a2Populate v (a2Enc v tv m) tv0 = alarm2Reported v tv tv0 m := by
  obtain ⟨min, hr, dom, dow⟩ := h
  obtain ⟨-, width3, width2, -⟩ := bcdPairLaws
  have minutes (hv) := width3 _ (min hv)
  have hours (hv) := withHours_alarmHours (hr hv)
  have dayOfMonth (hv) : bcdDec (alarmDayOfMonth tv) 2 = tv.dayOfMonth := width2 _ (dom hv)
  have dayOfWeek (hv) := bcdDec_alarmDayOfWeek (dow hv)
  cases v <;> simp (disch := decide) only [a2Populate, a2Enc, hasMinutes2, hasHours2, if_true,
    minutes, hours, dayOfMonth, dayOfWeek] <;> rfl

/-- The round trip for the fields a variant uses (42 R203): the fingerprint is the tag (R199), the fields come back. -/
theorem a1Dec_a1Enc {v : Alarm1Variant} {tv : TimeValue} {m : Bool} (h : Used1Fit v tv m) (tv0 : TimeValue) :
    a1Dec (a1Enc v tv m) tv0 = .ok (v, alarm1Reported v tv tv0 m) := by
  rw [a1Dec_of_variant (tagIsFingerprint.1 v tv m h), a1Populate_a1Enc h]

theorem a2Dec_a2Enc {v : Alarm2Variant} {tv : TimeValue} {m : Bool} (h : Used2Fit v tv m) (tv0 : TimeValue) :
    a2Dec (a2Enc v tv m) tv0 = .ok (v, alarm2Reported v tv tv0 m) := by
  rw [a2Dec_of_variant (tagIsFingerprint.2 v tv m h), a2Populate_a2Enc h]

theorem AlarmFits.used1 {tv : TimeValue} {m : Bool} (h : AlarmFits tv m) (v : Alarm1Variant) : Used1Fit v tv m :=
  have ⟨sec, min, hr, dom, dow⟩ := h
  ⟨fun _ => sec, fun _ => min, fun _ => hr, fun _ => dom, fun _ => dow⟩

theorem AlarmFits.used2 {tv : TimeValue} {m : Bool} (h : AlarmFits tv m) (v : Alarm2Variant) : Used2Fit v tv m :=
  have ⟨_, min, hr, dom, dow⟩ := h
  ⟨fun _ => min, fun _ => hr, fun _ => dom, fun _ => dow⟩

/-- Settles O31: a TimeValue that fits the block fits every variant (`a1Dec_a1Enc`, `a2Dec_a2Enc`). -/
theorem alarmRoundTrip : Obligations.AlarmRoundTrip :=
  ⟨fun v _ tv0 _ h => a1Dec_a1Enc (h.used1 v) tv0, fun v _ tv0 _ h => a2Dec_a2Enc (h.used2 v) tv0⟩

end Sys2Proof.Machine
end

section
/-! PROOFS. The alarm operations on the device (42): what ALARM_SET refuses (R204 step 0), what it leaves when its calls pass (R204)
and when one of them fails (R205 (d)), one argument for both alarms; ALARM_GET (R206); and the set that a get reads back
(R207). -/

namespace Sys2Proof.Machine

/-! ### Step 0 of ALARM_SET -/

/-- Only the tag of *once per second* needs no value (30 R124). -/
theorem any_needsNoValue1 (sel1 : BitVec 5) : (Alarm1Variant.ofTag sel1).any needsNoValue1 = decide (sel1.toNat = 0x0F) := by
  revert sel1; decide

/-- Only the tag of *once per minute* needs no value (30 R124). -/
theorem any_needsNoValue2 (sel2 : BitVec 4) : (Alarm2Variant.ofTag sel2).any needsNoValue2 = decide (sel2.toNat = 0x7) := by
  revert sel2; decide

/-- Settles O32: each premise makes one of the five checks of step 0 fail, or a selector a reserved operand value. -/
theorem alarmSetPreconditions : Obligations.AlarmSetPreconditions := by
  refine ⟨fun _ hop => decode_of_row hop rfl, fun s hv vv s1v s2v sel1 sel2 tv hf h => ?_⟩
  have bothSame (hsame : s1v = s2v) : FailsAtOnce (.alarmSet hv vv s1v sel1 s2v sel2 tv) s :=
    failsAtOnce_of_check rfl hf ⟨(s1v != s2v, .precondSelector), by simp, by simp [hsame]⟩
  have noValue (hvv : vv = false) (hneed : selectorNeedsNoValue s1v sel1 sel2 = false) :
      FailsAtOnce (.alarmSet hv vv s1v sel1 s2v sel2 tv) s :=
    failsAtOnce_of_check rfl hf ⟨(vv || selectorNeedsNoValue s1v sel1 sel2, .precondTarget), by simp, by simp [hvv, hneed]⟩
  rcases h with hhv | hs | hsame | ⟨rfl, htag⟩ | ⟨rfl, htag⟩ | ⟨hvv, rfl, htag⟩ | ⟨hvv, rfl, htag⟩
  · exact failsAtOnce_of_check rfl hf ⟨(hv, .precondHandle), by simp, hhv⟩
  · exact failsAtOnce_of_check rfl hf ⟨(s.sess, .precondSession), by simp, hs⟩
  · exact bothSame hsame
  · exact reservedOperandsRefused _ s hf (by simp [Instr.wf, sel1Legal, htag])
  · exact reservedOperandsRefused _ s hf (by simp [Instr.wf, sel2Legal, htag])
  · exact noValue hvv ((any_needsNoValue1 sel1).trans (decide_eq_false htag))
  · cases s1v with
    | true => exact bothSame rfl
    | false => exact noValue hvv ((any_needsNoValue2 sel2).trans (decide_eq_false htag))

/-! ### What ALARM_SET writes -/

/-- What ALARM_SET does for one variant of one alarm (42 R204): whether it reads the hours register, where the alarm's block goes
and what it is in each mode, and what becomes of the control and of the status byte. -/
structure AlarmPlan where
  hasHours : Bool
  base : Nat
  block : Bool → List Byte
  control : Byte → Byte
  status : Byte → Byte
  block_below : ∀ mode12, base + (block mode12).length ≤ 0x0E
  block_mode : hasHours = false → ∀ mode12 mode12', block mode12 = block mode12'

/-- A block without hours is the same in both modes. -/
theorem a1Enc_mode {v : Alarm1Variant} (h : hasHours1 v = false) (tv : TimeValue) (mode12 mode12' : Bool) :
    a1Enc v tv mode12 = a1Enc v tv mode12' := by
  cases v <;> trivial

theorem a2Enc_mode {v : Alarm2Variant} (h : hasHours2 v = false) (tv : TimeValue) (mode12 mode12' : Bool) :
    a2Enc v tv mode12 = a2Enc v tv mode12' := by
  cases v <;> trivial

/-- ALARM_SET for an alarm 1 variant; its steps are `alarmSet1Steps`. -/
def alarm1Plan (v : Alarm1Variant) (tv : TimeValue) : AlarmPlan where
  hasHours := hasHours1 v
  base := Config.a1Base
  block mode12 := (a1Enc v tv mode12).toBytes
  control := alarmSet1Control
  status := alarmSet1Status
  block_below _ := by simp [Config.a1Base, Alarm1Regs.toBytes]
  block_mode h mode12 mode12' := by rw [a1Enc_mode h tv mode12 mode12']

/-- ALARM_SET for an alarm 2 variant; its steps are `alarmSet2Steps`. -/
def alarm2Plan (v : Alarm2Variant) (tv : TimeValue) : AlarmPlan where
  hasHours := hasHours2 v
  base := Config.a2Base
  block mode12 := (a2Enc v tv mode12).toBytes
  control := alarmSet2Control
  status := alarmSet2Status
  block_below _ := by simp [Config.a2Base, Alarm2Regs.toBytes]
  block_mode h mode12 mode12' := by rw [a2Enc_mode h tv mode12 mode12']

/-- A register read and written back on a still wire: a call fails and leaves the register old or new, or both pass. -/
theorem StillRun.rmw_cases {fin : List Byte → Except FailCause Results} {a : Nat} {b : Byte} {g : Byte → Byte}
    {rest : List OpStep} {l : List Byte} {s t : State}
    (run : StillRun fin (.read a 1 :: .write a (fun r => [g (r.getD 0 0)]) :: rest) l s t) (hb : s.dev.read a = b) :
    (∀ x, t.dev.read x = s.dev.read x ∨ x = a ∧ t.dev.read x = g b) ∨
      ∃ s', s'.dev = s.dev.write a (g b) ∧ StillRun fin rest [b] s' t := by
  subst hb
  cases run with
  | readFail => exact .inl fun _ => .inl rfl
  | readPass _ _ _ _ _ _ _ run =>
    cases run with
    | writeFail _ _ _ _ _ _ d h =>
      refine .inl fun x => (h x).imp_right fun ⟨hx, new⟩ => ?_
      obtain rfl : x = a := by rw [List.length_singleton] at hx; omega
      rw [List.getElem_singleton] at new
      exact ⟨rfl, new⟩
    | writePass _ _ _ _ _ _ _ run => exact .inr ⟨_, rfl, run⟩

namespace AlarmPlan

variable (p : AlarmPlan) (s : State)

/-- Steps 2 to 6: the block, then the control and the status byte. -/
def writes : List OpStep :=
  [.write p.base (fun r => p.block (mode12Bit (r.getD 0 0))),
   .read Config.ctrlAddr 1,
   .write Config.ctrlAddr (fun r => [p.control (r.getD 0 0)]),
   .read Config.statAddr 1,
   .write Config.statAddr (fun r => [p.status (r.getD 0 0)])]

/-- Steps 1 to 6. -/
def steps : List OpStep := hoursRead p.hasHours ++ p.writes

/-- The block, in the mode of the hours register. -/
def bytes : List Byte := p.block (mode12Bit (s.reg 0x02))

/-- The registers after step 2, after step 4 and after step 6. -/
def blockDone : Memory := s.dev.writeBlock p.base (p.bytes s)
def controlDone : Memory := (p.blockDone s).write 0x0E (p.control (s.reg 0x0E))
def statusDone : Memory := (p.controlDone s).write 0x0F (p.status (s.reg 0x0F))

/-- The call of step 1, and those of steps 2 to 6, newest first. -/
def hoursCall : List Call := if p.hasHours then [.readSingle 0x02] else []
def writeCalls : List Call :=
  [.writeSingle 0x0F (p.status (s.reg 0x0F)), .readSingle 0x0F, .writeSingle 0x0E (p.control (s.reg 0x0E)), .readSingle 0x0E,
    writeCall p.base (p.bytes s)]

theorem steps_length : p.steps.length = p.hoursCall.length + 5 := by
  rw [steps, hoursCall]; cases p.hasHours <;> rfl

theorem steps_length_le : p.steps.length ≤ 6 := by
  rw [steps]; cases p.hasHours <;> simp [hoursRead, writes]

theorem steps_inRange : ∀ st ∈ p.steps, st.InRange := by
  have block (r : List Byte) := (p.block_below (mode12Bit (r.getD 0 0))).trans (show 0x0E ≤ 0x13 by decide)
  have writes : ∀ st ∈ p.writes, st.InRange := by
    simpa [writes, OpStep.InRange, Config.ctrlAddr, Config.statAddr] using block
  rw [steps]
  cases p.hasHours with
  | false => exact writes
  | true => exact List.forall_mem_cons.mpr ⟨by simp [OpStep.InRange, Config.hoursAddr], writes⟩

/-- Whether the mode was read or not, step 2 writes the block in the mode of the hours register. -/
theorem block_of_latched {l : List Byte} (h : p.hasHours = true → l = [s.reg 0x02]) :
    p.block (mode12Bit (l.getD 0 0)) = p.bytes s := by
  cases hh : p.hasHours with
  | false => exact p.block_mode hh _ _
  | true => rw [h hh]; rfl

variable {p s} {x : Nat}

/-! ### The registers, step by step -/

theorem bytes_below : p.base + (p.bytes s).length ≤ 0x0E := p.block_below _

theorem blockDone_inside {k : Nat} (hk : k < (p.bytes s).length) : (p.blockDone s).read (p.base + k) = (p.bytes s)[k] := by
  rw [blockDone, Memory.read_writeBlock, dif_pos (by omega)]
  simp

theorem blockDone_outside (h : x < p.base ∨ p.base + (p.bytes s).length ≤ x) : (p.blockDone s).read x = s.reg x := by
  rw [blockDone, Memory.read_writeBlock, dif_neg (by omega), State.reg]

/-- The block ends below the control byte. -/
theorem blockDone_above (h : 0x0E ≤ x) : (p.blockDone s).read x = s.reg x := blockDone_outside (.inr (bytes_below.trans h))

theorem controlDone_control : (p.controlDone s).read 0x0E = p.control (s.reg 0x0E) :=
  (Memory.read_write ..).trans (if_pos rfl)

theorem controlDone_other (h : x ≠ 0x0E) : (p.controlDone s).read x = (p.blockDone s).read x :=
  (Memory.read_write ..).trans (if_neg h)

theorem controlDone_status : (p.controlDone s).read 0x0F = s.reg 0x0F :=
  (controlDone_other (by decide)).trans (blockDone_above (by decide))

theorem statusDone_status : (p.statusDone s).read 0x0F = p.status (s.reg 0x0F) :=
  (Memory.read_write ..).trans (if_pos rfl)

theorem statusDone_other (h : x ≠ 0x0F) : (p.statusDone s).read x = (p.controlDone s).read x :=
  (Memory.read_write ..).trans (if_neg h)

theorem statusDone_inside {k : Nat} (hk : k < (p.bytes s).length) : (p.statusDone s).read (p.base + k) = (p.bytes s)[k] := by
  have := bytes_below (p := p) (s := s)
  rw [statusDone_other (by omega), controlDone_other (by omega), blockDone_inside hk]

theorem statusDone_outside (h : x < p.base ∨ p.base + (p.bytes s).length ≤ x) (hc : x ≠ 0x0E) (hs : x ≠ 0x0F) :
    (p.statusDone s).read x = s.reg x := by
  rw [statusDone_other hs, controlDone_other hc, blockDone_outside h]

theorem statusDone_control : (p.statusDone s).read 0x0E = p.control (s.reg 0x0E) :=
  (statusDone_other (by decide)).trans controlDone_control

/-! ### A pass -/

/-- A register read and written back. -/
theorem passRun_rmw {a : Nat} {b : Byte} {g : Byte → Byte} {rest : List OpStep} {mss : List (List (Fin 19 × Byte))}
    {l : List Byte} {m : Memory} {tr : List Call} (hb : m.read a = b) :
    passRun (.read a 1 :: .write a (fun r => [g (r.getD 0 0)]) :: rest) ([] :: [] :: mss) l m tr =
      passRun rest mss [b] (m.write a (g b)) (.writeSingle a (g b) :: .readSingle a :: tr) := by
  subst hb; rfl

/-- Steps 2 to 6 on plain memory. -/
theorem passRun_writes {l : List Byte} (hl : p.block (mode12Bit (l.getD 0 0)) = p.bytes s) (tr : List Call) :
    passRun p.writes [[], [], [], [], []] l s.dev tr = (p.statusDone s, [s.reg 0x0F], p.writeCalls s ++ tr) := by
  rw [writes, passRun, hl]
  exact (passRun_rmw (blockDone_above (by decide))).trans (passRun_rmw controlDone_status)

theorem passRun_steps : passRun p.steps (List.replicate p.steps.length []) [] s.dev s.trace =
    (p.statusDone s, [s.reg 0x0F], p.writeCalls s ++ (p.hoursCall ++ s.trace)) := by
  have latched {l : List Byte} := p.block_of_latched s (l := l)
  rw [steps, hoursCall]
  cases hh : p.hasHours with
  | false => exact passRun_writes (latched (by simp [hh])) _
  | true => exact passRun_writes (latched fun _ => rfl) _

/-- The steps of ALARM_SET when every call passes. -/
theorem runSteps_steps {i : Instr} {w : List WireEvent} (hA : Answered s (p.hoursCall.length + 5) w) (hs : s.sess = true) :
    runSteps i (fun _ => .ok {}) p.steps 0 [] s = State.pass { s with
      dev := p.statusDone s, trace := p.writeCalls s ++ (p.hoursCall ++ s.trace), wire := w } {} := by
  rw [← steps_length] at hA
  rw [runSteps_answered hA hs p.steps_inRange, passRun_steps]
  rfl

/-! ### A failure -/

variable (p s) in
/-- The registers that an ALARM_SET leaves which fails at one of its calls (42 R205 (d)): those that the step
that failed was to write are old or new, on top of the steps that passed. -/
inductive Leftover : Memory → Prop
  | block {d : Memory} (h : ∀ x, d.read x = s.reg x ∨
      ∃ hx : p.base ≤ x ∧ x < p.base + (p.bytes s).length, d.read x = (p.bytes s)[x - p.base]'(by omega)) : Leftover d
  | control {d : Memory} (h : ∀ x, d.read x = (p.blockDone s).read x ∨ x = 0x0E ∧ d.read x = p.control (s.reg 0x0E)) :
      Leftover d
  | status {d : Memory} (h : ∀ x, d.read x = (p.controlDone s).read x ∨ x = 0x0F ∧ d.read x = p.status (s.reg 0x0F)) :
      Leftover d

theorem leftover_of_writes {l : List Byte} {s0 t : State} (run : StillRun (fun _ => .ok {}) p.writes l s0 t)
    (hfail : t.resp.ok = false) (hd : s0.dev = s.dev) (hl : p.block (mode12Bit (l.getD 0 0)) = p.bytes s) :
    p.Leftover s t.dev := by
  unfold writes at run
  cases run with
  | writeFail _ _ _ _ _ _ d h =>
    simp only [hl, hd] at h
    exact .block h
  | writePass _ _ _ _ _ _ _ run =>
    simp only [hl, hd] at run
    obtain h | ⟨s1, hs1, run⟩ := run.rmw_cases (blockDone_above (p := p) (by decide))
    · exact .control h
    · have hs1 : s1.dev = p.controlDone s := hs1
      obtain h | ⟨s2, -, run⟩ := run.rmw_cases (hs1 ▸ controlDone_status)
      · exact .status (hs1 ▸ h)
      · cases run
        cases hfail

/-- The steps of ALARM_SET when one of the calls fails. -/
theorem leftover_of_steps {t : State} (run : StillRun (fun _ => .ok {}) p.steps [] s t) (hfail : t.resp.ok = false) :
    p.Leftover s t.dev := by
  have latched {l : List Byte} := p.block_of_latched s (l := l)
  rw [steps] at run
  cases hh : p.hasHours with
  | false =>
    rw [hh] at run
    exact leftover_of_writes run hfail rfl (latched (by simp [hh]))
  | true =>
    rw [hh] at run
    cases run with
    | readFail => exact .block fun _ => .inl rfl
    | readPass _ _ _ _ _ _ _ run => exact leftover_of_writes run hfail rfl (latched fun _ => rfl)

end AlarmPlan

/-! ### ALARM_SET -/

section
variable {vv : Bool}

theorem value_or_notNeeded1 {v : Alarm1Variant} (h : vv = true ∨ v = .oncePerSecond) (sel2 : BitVec 4) :
    (vv || selectorNeedsNoValue true v.tag sel2) = true := by
  obtain rfl | rfl := h
  · rfl
  · exact Bool.or_true vv

theorem value_or_notNeeded2 {v : Alarm2Variant} (h : vv = true ∨ v = .oncePerMinute) (sel1 : BitVec 5) :
    (vv || selectorNeedsNoValue false sel1 v.tag) = true := by
  obtain rfl | rfl := h
  · rfl
  · exact Bool.or_true vv

/-- An ALARM_SET whose checks and calls all pass, for either alarm. -/
theorem exec_alarmSet_pass {s : State} {s1v : Bool} {sel1 : BitVec 5} {sel2 : BitVec 4} {tv : TimeValue} {p : AlarmPlan}
    {w : List WireEvent} (hs : Ready s) (hlegal : selectorLegal s1v sel1 sel2 = true)
    (hvalue : (vv || selectorNeedsNoValue s1v sel1 sel2) = true) (hsteps : alarmSetSteps s1v sel1 sel2 tv = p.steps)
    (hA : Answered s (p.hoursCall.length + 5) w) :
    exec (.alarmSet true vv s1v sel1 (!s1v) sel2 tv) s = .next (State.pass { s with
      dev := p.statusDone s, trace := p.writeCalls s ++ (p.hoursCall ++ s.trace), wire := w } {}) := by
  have start : exec (.alarmSet true vv s1v sel1 (!s1v) sel2 tv) s = _ :=
    operation_start hs.1 (by simp [hs.2, hlegal, hvalue])
  rw [start, hsteps, AlarmPlan.runSteps_steps hA hs.2]

end

/-- The variants that read the hours register are those with hours (decision D16). -/
theorem alarm1Plan_hoursCall (v : Alarm1Variant) (tv : TimeValue) :
    (if v.tag ∈ [0x00#5, 0x08#5, 0x10#5] then [.readSingle 0x02] else []) = (alarm1Plan v tv).hoursCall := by
  cases v <;> rfl

theorem alarm2Plan_hoursCall (v : Alarm2Variant) (tv : TimeValue) :
    (if v.tag ∈ [0x0#4, 0x4#4, 0x8#4] then [.readSingle 0x02] else []) = (alarm2Plan v tv).hoursCall := by
  cases v <;> rfl

/-- The alarm 1 registers are those of a block when they are so byte by byte. -/
theorem alarm1Regs_eq_of_bytes {t : State} {B : Alarm1Regs}
    (h : ∀ k, ∀ hk : k < B.toBytes.length, t.reg (Config.a1Base + k) = B.toBytes[k]) : t.alarm1Regs = B := by
  have byte0 : t.reg 0x07 = B.seconds := h 0 (by simp [Alarm1Regs.toBytes])
  have byte1 : t.reg 0x08 = B.minutes := h 1 (by simp [Alarm1Regs.toBytes])
  have byte2 : t.reg 0x09 = B.hours := h 2 (by simp [Alarm1Regs.toBytes])
  have byte3 : t.reg 0x0A = B.day := h 3 (by simp [Alarm1Regs.toBytes])
  rw [State.alarm1Regs, byte0, byte1, byte2, byte3]

theorem alarm2Regs_eq_of_bytes {t : State} {B : Alarm2Regs}
    (h : ∀ k, ∀ hk : k < B.toBytes.length, t.reg (Config.a2Base + k) = B.toBytes[k]) : t.alarm2Regs = B := by
  have byte0 : t.reg 0x0B = B.minutes := h 0 (by simp [Alarm2Regs.toBytes])
  have byte1 : t.reg 0x0C = B.hours := h 1 (by simp [Alarm2Regs.toBytes])
  have byte2 : t.reg 0x0D = B.day := h 2 (by simp [Alarm2Regs.toBytes])
  rw [State.alarm2Regs, byte0, byte1, byte2]

/-- Settles O33: the plan of the variant on plain memory (`exec_alarmSet_pass`), register by register. -/
theorem alarmSet1Rule : Obligations.AlarmSet1Rule := by
  rintro s vv v sel2 tv _ _ w hs hv rfl rfl hA
  rw [alarm1Plan_hoursCall v tv] at hA ⊢
  have pass := exec_alarmSet_pass hs (by simp [selectorLegal]) (value_or_notNeeded1 hv sel2)
    (alarmSetSteps_one (alarm1Variant_ofTag_tag v) sel2 tv) hA
  exact ⟨_, pass, rfl, alarm1Regs_eq_of_bytes fun _ hk => AlarmPlan.statusDone_inside hk,
    AlarmPlan.statusDone_control, AlarmPlan.statusDone_status,
    fun _ ha => AlarmPlan.statusDone_outside (ha.imp_right Nat.succ_le_of_lt), rfl, onlyTransport_pass hs.1 _ _ _⟩

/-- Settles O34: the plan of the variant on plain memory (`exec_alarmSet_pass`), register by register. -/
theorem alarmSet2Rule : Obligations.AlarmSet2Rule := by
  rintro s vv v sel1 tv _ _ w hs hv rfl rfl hA
  rw [alarm2Plan_hoursCall v tv] at hA ⊢
  have pass := exec_alarmSet_pass hs (by simp [selectorLegal]) (value_or_notNeeded2 hv sel1)
    (alarmSetSteps_two (alarm2Variant_ofTag_tag v) sel1 tv) hA
  exact ⟨_, pass, rfl, alarm2Regs_eq_of_bytes fun _ hk => AlarmPlan.statusDone_inside hk,
    AlarmPlan.statusDone_control, AlarmPlan.statusDone_status,
    fun _ ha => AlarmPlan.statusDone_outside (ha.imp_right Nat.succ_le_of_lt), rfl, onlyTransport_pass hs.1 _ _ _⟩

/-- Settles O35: a failure at step 0 leaves everything; one at a call leaves the registers of the step that failed old or new, on top
of the steps that passed (`AlarmPlan.leftover_of_steps`). -/
theorem alarmSetFailureLeftovers : Obligations.AlarmSetFailureLeftovers := by
  intro s t vv s1v sel1 sel2 tv base bytes c f hs ⟨as, w, hlen, hduring, hwire⟩ one two h hfail
  obtain ⟨p, hsteps, rfl, rfl, rfl, rfl⟩ : ∃ p : AlarmPlan, alarmSetSteps s1v sel1 sel2 tv = p.steps ∧ base = p.base ∧
      bytes = p.bytes s ∧ c = p.control (s.reg 0x0E) ∧ f = p.status (s.reg 0x0F) := by
    cases s1v with
    | true =>
      obtain ⟨hbase, hc, hf, v, hv, hbytes⟩ := one rfl
      exact ⟨alarm1Plan v tv, alarmSetSteps_one hv sel2 tv, hbase, hbytes, hc, hf⟩
    | false =>
      obtain ⟨hbase, hc, hf, v, hv, hbytes⟩ := two rfl
      exact ⟨alarm2Plan v tv, alarmSetSteps_two hv sel1 tv, hbase, hbytes, hc, hf⟩
  obtain ⟨_, rfl⟩ | ⟨hc, ht⟩ := operation_cases hs h
  · exact ⟨fun _ _ => .inl rfl, .inl rfl, .inl rfl, absurd rfl, absurd rfl, fun _ _ _ _ => rfl, rfl⟩
  have hsess : s.sess = true := hc (_, .precondSession) (by simp)
  rw [hsteps] at ht
  have run : StillRun (fun _ => .ok {}) p.steps [] s t :=
    ht ▸ stillRun hwire (p.steps_length_le.trans hlen) hduring hsess p.steps_inRange
  have below := AlarmPlan.bytes_below (p := p) (s := s)
  cases AlarmPlan.leftover_of_steps run hfail with
  | block h =>
    have outside {x : Nat} (hx : x < p.base ∨ p.base + (p.bytes s).length ≤ x) : t.reg x = s.reg x :=
      (h x).resolve_right fun ⟨hin, _⟩ => by omega
    have above {x : Nat} (hx : 0x0E ≤ x) : t.reg x = s.reg x := outside (.inr (below.trans hx))
    exact ⟨fun k hk => (h _).imp_right fun ⟨_, new⟩ => new.trans (by simp), .inl (above (by decide)), .inl (above (by decide)),
      absurd (above (by decide)), absurd (above (by decide)), fun _ hx _ _ => outside hx, run.sess_eq⟩
  | control h =>
    have old {x : Nat} (hx : x ≠ 0x0E) : t.reg x = (p.blockDone s).read x := (h x).resolve_right fun ⟨hc, _⟩ => hx hc
    have new (k : Nat) (hk : k < (p.bytes s).length) : t.reg (p.base + k) = (p.bytes s)[k] :=
      (old (by omega)).trans (AlarmPlan.blockDone_inside hk)
    have status : t.reg 0x0F = s.reg 0x0F := (old (by decide)).trans (AlarmPlan.blockDone_above (by decide))
    exact ⟨fun k hk => .inr (new k hk), (h 0x0E).imp (·.trans (AlarmPlan.blockDone_above (by decide))) (·.2), .inl status,
      fun _ => new, absurd status, fun _ hx hc _ => (old hc).trans (AlarmPlan.blockDone_outside hx), run.sess_eq⟩
  | status h =>
    have old {x : Nat} (hx : x ≠ 0x0F) : t.reg x = (p.controlDone s).read x := (h x).resolve_right fun ⟨hf, _⟩ => hx hf
    have new (k : Nat) (hk : k < (p.bytes s).length) : t.reg (p.base + k) = (p.bytes s)[k] :=
      (old (by omega)).trans ((AlarmPlan.controlDone_other (by omega)).trans (AlarmPlan.blockDone_inside hk))
    have control : t.reg 0x0E = p.control (s.reg 0x0E) := (old (by decide)).trans AlarmPlan.controlDone_control
    exact ⟨fun k hk => .inr (new k hk), .inr control, (h 0x0F).imp (·.trans AlarmPlan.controlDone_status) (·.2),
      fun _ => new, fun _ => ⟨control, new⟩, fun _ hx hc hf => (old hf).trans
        ((AlarmPlan.controlDone_other hc).trans (AlarmPlan.blockDone_outside hx)), run.sess_eq⟩

/-! ### ALARM_GET -/

theorem onlyTransport_respond {s : State} {w : List WireEvent} (hf : s.flight = none) (dev : Memory) (trace : List Call)
    (r : Except FailCause Results) : OnlyTransport s (State.respond { s with dev := dev, trace := trace, wire := w } r) w := by
  cases r with
  | ok r => exact onlyTransport_pass hf dev trace r
  | error c => exact onlyTransport_fail hf dev trace c

section
variable {s : State} {w : List WireEvent} (hf : s.flight = none) (hs : s.sess = true) (tv : TimeValue)
include hf hs

/-- A get with a handle, a target and one selector makes its one read. -/
theorem exec_alarmGet (s1v : Bool) : exec (.alarmGet true true s1v (!s1v) tv) s =
    .next (runSteps (.alarmGet true true s1v (!s1v) tv)
      (fun b => if s1v then alarm1Results (.ofBytes b) tv else alarm2Results (.ofBytes b) tv)
      (if s1v then [.read Config.a1Base Config.a1Len] else [.read Config.a2Base Config.a2Len]) 0 [] s) :=
  operation_start hf (by simp [hs])

theorem exec_alarmGet_read_fail {a : Answer} (ha : BadAnswer a) (hw : s.wire = .answer a :: w) (s1v : Bool) :
    ∃ tr, exec (.alarmGet true true s1v (!s1v) tv) s = .next (State.fail { s with trace := tr, wire := w } .transport) := by
  rw [exec_alarmGet hf hs]
  cases s1v with
  | true => exact ⟨_, congrArg _ (runSteps_read_fail hw ha.1)⟩
  | false => exact ⟨_, congrArg _ (runSteps_read_fail hw ha.1)⟩

theorem exec_alarmGet1 (hA : Answered s 1 w) : exec (.alarmGet true true true false tv) s =
    .next (State.respond { s with trace := .readMulti 0x07 4 :: s.trace, wire := w } (alarm1Results s.alarm1Regs tv)) := by
  obtain ⟨as, hlen, ha, hw⟩ := hA
  obtain ⟨a, rfl⟩ := List.length_eq_one_iff.mp hlen
  exact (exec_alarmGet hf hs tv true).trans
    (congrArg _ (runSteps_read_pass hw (ha a List.mem_cons_self) hs (by decide)))

theorem exec_alarmGet2 (hA : Answered s 1 w) : exec (.alarmGet true true false true tv) s =
    .next (State.respond { s with trace := .readMulti 0x0B 3 :: s.trace, wire := w } (alarm2Results s.alarm2Regs tv)) := by
  obtain ⟨as, hlen, ha, hw⟩ := hA
  obtain ⟨a, rfl⟩ := List.length_eq_one_iff.mp hlen
  exact (exec_alarmGet hf hs tv false).trans
    (congrArg _ (runSteps_read_pass hw (ha a List.mem_cons_self) hs (by decide)))

end

/-- Settles O36: the get answers with the decode of the one block it read (`exec_alarmGet1`, `exec_alarmGet2`). -/
theorem alarmGetRule : Obligations.AlarmGetRule := by
  refine ⟨fun _ hop => decode_of_row hop rfl, fun s tv hf => ⟨fun hv ov s1v s2v h => ?step0, fun hs =>
    ⟨fun s1v a w ha hw => ?readFails, fun w hA => ⟨?alarm1, ?alarm2⟩⟩⟩⟩
  case step0 => exact failsAtOnce_of_check rfl hf (by simpa using h)
  case readFails =>
    obtain ⟨tr, hexec⟩ := exec_alarmGet_read_fail hf hs tv ha hw s1v
    exact ⟨_, hexec, rfl, fun _ => rfl, onlyTransport_fail hf _ _ _⟩
  case alarm1 =>
    refine ⟨_, exec_alarmGet1 hf hs tv hA, fun _ => congrArg (Memory.read · _) (respond_dev _ _),
      onlyTransport_respond hf _ _ _, respond_trace _ _, fun h => ?_, fun v tv' h => ?_⟩
    · rw [alarm1Results_of_error h]; rfl
    · rw [alarm1Results_of_ok h]; exact ⟨rfl, rfl, rfl⟩
  case alarm2 =>
    refine ⟨_, exec_alarmGet2 hf hs tv hA, fun _ => congrArg (Memory.read · _) (respond_dev _ _),
      onlyTransport_respond hf _ _ _, respond_trace _ _, fun h => ?_, fun v tv' h => ?_⟩
    · rw [alarm2Results_of_error h]; rfl
    · rw [alarm2Results_of_ok h]; exact ⟨rfl, rfl, rfl⟩

/-! ### Setting an alarm and getting it -/

/-- The number of calls of a set of alarm 1 (20 R70), in the form of `AlarmSet1Rule`. -/
theorem callTable_alarmSet1_length (vv : Bool) (v : Alarm1Variant) (sel2 : BitVec 4) (tv : TimeValue) :
    (callTable (.alarmSet true vv true v.tag false sel2 tv)).length =
      (if v.tag ∈ [0x00#5, 0x08#5, 0x10#5] then [Call.readSingle 0x02] else []).length + 5 := by
  cases v <;> rfl

/-- The number of calls of a set of alarm 2 (20 R70), in the form of `AlarmSet2Rule`. -/
theorem callTable_alarmSet2_length (vv : Bool) (v : Alarm2Variant) (sel1 : BitVec 5) (tv : TimeValue) :
    (callTable (.alarmSet true vv false sel1 true v.tag tv)).length =
      (if v.tag ∈ [0x0#4, 0x4#4, 0x8#4] then [Call.readSingle 0x02] else []).length + 5 := by
  cases v <;> rfl

/-- Settles O58: the get finds the block that the set left (`alarmSet1Rule`, `alarmSet2Rule`, `alarmGetRule`), which decodes to the
variant and the fields set (`a1Dec_a1Enc`, `a2Dec_a2Enc`), and the control byte as the set left it. -/
theorem eitherAlarmSetThenGet : Obligations.EitherAlarmSetThenGet := by
  refine ⟨fun s vv v sel2 tv tv0 n w hs hv hfit hn hA => ?alarm1, fun s vv v sel1 tv tv0 n w hs hv hfit hn hA => ?alarm2⟩
  case alarm1 =>
    rw [hn, callTable_alarmSet1_length] at hA
    obtain ⟨w', hset, rest⟩ := Answered.split hA
    obtain ⟨t, ht, htok, htregs, htcontrol, -, -, -, htframe⟩ := alarmSet1Rule s vv v sel2 tv _ _ w' hs hv rfl rfl hset
    have htr := htframe.ready hs
    obtain ⟨⟨u, hu, hukept, -, -, -, huok⟩, -⟩ := ((alarmGetRule.2 t tv0 htr.1).2 htr.2).2 w (rest t htframe.wire)
    obtain ⟨huok, huvar, hutv⟩ := huok _ _ (htregs ▸ a1Dec_a1Enc hfit tv0)
    refine ⟨u, ⟨t, ht, hu, htok, huok⟩, huvar, hutv, ?_⟩
    rw [hukept, htcontrol]
    simp
  case alarm2 =>
    rw [hn, callTable_alarmSet2_length] at hA
    obtain ⟨w', hset, rest⟩ := Answered.split hA
    obtain ⟨t, ht, htok, htregs, htcontrol, -, -, -, htframe⟩ := alarmSet2Rule s vv v sel1 tv _ _ w' hs hv rfl rfl hset
    have htr := htframe.ready hs
    obtain ⟨-, u, hu, hukept, -, -, -, huok⟩ := ((alarmGetRule.2 t tv0 htr.1).2 htr.2).2 w (rest t htframe.wire)
    obtain ⟨huok, huvar, hutv⟩ := huok _ _ (htregs ▸ a2Dec_a2Enc hfit tv0)
    refine ⟨u, ⟨t, ht, hu, htok, huok⟩, huvar, hutv, ?_⟩
    rw [hukept, htcontrol]
    simp

/-- Settles O37: the case of O58 for alarm 1 with a value, the get decoding the block of the set (`a1Dec_a1Enc`). -/
theorem alarmSetThenGet : Obligations.AlarmSetThenGet := by
  intro s v sel2 tv tv0 n w hs hfit hn hA
  have hused := hfit.used1 v
  obtain ⟨u, ⟨t, ht, hu, htok, huok⟩, hvar, htv, hcontrol⟩ :=
    eitherAlarmSetThenGet.1 s true v sel2 tv tv0 n w hs (.inl rfl) hused hn hA
  exact ⟨t, u, _, ht, hu, htok, huok, hvar, htv, a1Dec_a1Enc hused tv0, hcontrol⟩

end Sys2Proof.Machine
end

section
/-! PROOFS. The control and status accessors (43): the shape of every read-modify-write (R240), the accessors one by one (R242 to
R256), and the laws of their bits (R258). -/

namespace Sys2Proof.Machine

/-! ### Read-modify-write -/

section
variable {i : Instr} {addr : Nat} {f : Byte → Byte} {s : State} {w : List WireEvent} {a b : Answer}

/-- The calls of `rmw(A, f)` that reaches its write, newest first. -/
def State.rmwTrace (s : State) (addr : Nat) (f : Byte → Byte) : List Call :=
  .writeSingle addr (f (s.reg addr)) :: .readSingle addr :: s.trace

/-! What `rmw(A, f)` comes to, by the first of its two calls that fails (43 R240). -/

section
variable (he : exec i s = rmw i true addr f s) (hf : s.flight = none) (hs : s.sess = true)
include he hf hs

theorem exec_rmw : exec i s = .next (runSteps i (fun _ => .ok {})
    [.read addr 1, .write addr (fun r => [f (r.getD 0 0)])] 0 [] s) := by
  rw [he, rmw, operation_start hf (by simp [hs])]

theorem exec_rmw_read_fail (ha : BadAnswer a) (hw : s.wire = .answer a :: w) :
    exec i s = .next (State.fail { s with trace := .readSingle addr :: s.trace, wire := w } .transport) := by
  rw [exec_rmw he hf hs, runSteps_read_fail hw ha.1]
  rfl

variable (haddr : addr ≤ 0x12)
include haddr

theorem exec_rmw_write_fail (ha : GoodAnswer a) (hb : BadAnswer b) (hw : s.wire = .answer a :: .answer b :: w) :
    exec i s = .next (State.fail { s with
      dev := s.dev.transferOut b false addr [f (s.reg addr)] 0
      trace := s.rmwTrace addr f
      wire := w } .transport) := by
  rw [exec_rmw he hf hs, runSteps_read_pass hw ha hs (by omega)]
  exact congrArg _ (runSteps_write_fail rfl hb.1)

theorem exec_rmw_pass (hA : Answered s 2 w) : exec i s = .next (State.pass { s with
    dev := s.dev.write addr (f (s.reg addr))
    trace := s.rmwTrace addr f
    wire := w } {}) := by
  obtain ⟨as, hlen, ha, hw⟩ := hA
  obtain ⟨a, b, rfl⟩ := List.length_eq_two.mp hlen
  simp only [List.forall_mem_cons] at ha
  obtain ⟨ha, hb, -⟩ := ha
  rw [exec_rmw he hf hs, runSteps_read_pass hw ha hs (by omega)]
  exact congrArg _ (runSteps_write_pass rfl hb hs (by simp; omega))

end

/-- A register outside a block of one byte is another register than that byte's. -/
theorem regsKeptOutside_one {t : State} : RegsKeptOutside s t addr 1 ↔ ∀ x, x ≠ addr → t.reg x = s.reg x :=
  forall_congr' fun _ => imp_congr_left (not_congr (by omega))

end

/-- Every `rmw(A, f)` on a register that exists has the read-modify-write shape (43 R240). -/
theorem rmwShape_of_rmw {op : Bool → Instr} {addr : Nat} {f : Byte → Byte}
    (he : ∀ hv s, exec (op hv) s = rmw (op hv) hv addr f s) (haddr : addr ≤ 0x12) : RmwShape op addr f := by
  intro s hf
  refine ⟨fun hv h => ?step0, fun hs => ⟨fun a w ha hw => ?read, fun a b w ha hb hw => ?write, fun w hA => ?pass⟩⟩
  case step0 => exact failsAtOnce_of_check (he hv s) hf (by simpa using h)
  case read => exact ⟨_, exec_rmw_read_fail (he true s) hf hs ha hw, rfl, fun _ => rfl, rfl, onlyTransport_fail hf _ _ _⟩
  case write =>
    have left := transferOut_fail hb.2 false addr [f (s.reg addr)] 0 s.dev
    refine ⟨_, exec_rmw_write_fail (he true s) hf hs haddr ha hb hw, rfl, (left addr).imp_right fun ⟨_, new⟩ => ?_,
      fun x hx => (left x).resolve_right fun ⟨hin, _⟩ => hx hin, rfl, onlyTransport_fail hf _ _ _⟩
    rwa [List.getElem_singleton] at new
  case pass =>
    exact ⟨_, exec_rmw_pass (he true s) hf hs haddr hA, rfl, (Memory.read_write ..).trans (if_pos rfl),
      regsKeptOutside_one.mpr fun x hx => (Memory.read_write ..).trans (if_neg hx), rfl, onlyTransport_pass hf _ _ _⟩

/-! ### The accessors one by one -/

/-- Settles O38: each is an `rmw` of the control byte (`rmwShape_of_rmw`). -/
theorem oscillatorAccessors : Obligations.OscillatorAccessors :=
  ⟨fun _ => ⟨fun hop => decode_of_row hop rfl, fun hop => decode_of_row hop rfl⟩,
    rmwShape_of_rmw (fun _ _ => rfl) (by decide), rmwShape_of_rmw (fun _ _ => rfl) (by decide)⟩

/-- Settles O39: each is an `rmw` of the status byte (`rmwShape_of_rmw`). -/
theorem output32kAccessors : Obligations.Output32kAccessors :=
  ⟨fun _ => ⟨fun hop => decode_of_row hop rfl, fun hop => decode_of_row hop rfl⟩,
    rmwShape_of_rmw (fun _ _ => rfl) (by decide), rmwShape_of_rmw (fun _ _ => rfl) (by decide)⟩

/-- Settles O40: each is an `rmw` of the control byte (`rmwShape_of_rmw`), whose byte has the bits of `sqwEnByte_bits` and
`sqwDisByte_bits`. -/
theorem squareWaveAccessors : Obligations.SquareWaveAccessors :=
  ⟨fun _ => ⟨fun hop => decode_of_row hop rfl, fun hop => decode_of_row hop rfl⟩,
    fun freq bb => ⟨sqwEnByte freq bb, rmwShape_of_rmw (fun _ _ => rfl) (by decide), sqwEnByte_bits freq bb⟩,
    sqwDisByte, rmwShape_of_rmw (fun _ _ => rfl) (by decide), sqwDisByte_bits⟩

/-- Settles O41: each is an `rmw` of the control byte (`rmwShape_of_rmw`). -/
theorem alarmEnableAccessors : Obligations.AlarmEnableAccessors :=
  ⟨fun _ => ⟨fun hop => decode_of_row hop rfl, fun hop => decode_of_row hop rfl, fun hop => decode_of_row hop rfl,
      fun hop => decode_of_row hop rfl⟩,
    rmwShape_of_rmw (fun _ _ => rfl) (by decide), rmwShape_of_rmw (fun _ _ => rfl) (by decide),
    rmwShape_of_rmw (fun _ _ => rfl) (by decide), rmwShape_of_rmw (fun _ _ => rfl) (by decide)⟩

/-- Settles O42: each is an `rmw` of the status byte (`rmwShape_of_rmw`). -/
theorem flagClearAccessors : Obligations.FlagClearAccessors :=
  ⟨fun _ => ⟨fun hop => decode_of_row hop rfl, fun hop => decode_of_row hop rfl, fun hop => decode_of_row hop rfl⟩,
    rmwShape_of_rmw (fun _ _ => rfl) (by decide), rmwShape_of_rmw (fun _ _ => rfl) (by decide),
    rmwShape_of_rmw (fun _ _ => rfl) (by decide)⟩

/-- Settles O43: the byte read is the status register (`osfGet_rdShape`). -/
theorem osfGetRule : Obligations.OsfGetRule := ⟨fun _ hop => decode_of_row hop rfl, osfGet_rdShape⟩

theorem tempFrac_toNat (lsb : Byte) : (tempFrac lsb).toNat = lsb.toNat / 64 := by
  have hlt := lsb.isLt
  rw [tempFrac, BitVec.toNat_ofNat, Nat.shiftRight_eq_div_pow]
  omega

/-- Settles O44: the two bytes read are the temperature registers (`rdShape_of_rd`), the fraction the top of the second
(`tempFrac_toNat`). -/
theorem tempGetRule : Obligations.TempGetRule :=
  ⟨fun _ hop => decode_of_row hop rfl,
    rdShape_of_rd (fun _ _ _ => rfl) (by decide) rfl fun _ => ⟨rfl, tempFrac_toNat _⟩⟩

/-! ### Bits kept and bits written -/

/-- Outside `bits` the byte written is the byte read. -/
def KeepsOutside (bits : List Nat) (f : Byte → Byte) : Prop :=
  ∀ r k, k < 8 → k ∉ bits → (f r).getLsbD k = r.getLsbD k

/-- The bits `bits` of the byte written do not depend on the byte read. -/
def FixesBits (bits : List Nat) (f : Byte → Byte) : Prop :=
  ∀ r r' k, k < 8 → k ∈ bits → (f r).getLsbD k = (f r').getLsbD k

/-- `f` puts `v` in bit `bit` and keeps what is outside `bits`. -/
structure PutsBit (bits : List Nat) (bit : Nat) (v : Bool) (f : Byte → Byte) : Prop where
  put : ∀ r, (f r).getLsbD bit = v
  kept : KeepsOutside bits f

section
variable {f g : Byte → Byte} {bits bits' : List Nat} {bit : Nat} {m : Byte}

theorem apply_apply_of_fixesBits (hk : KeepsOutside bits f) (hf : FixesBits bits f) (r : Byte) : f (f r) = f r := by
  refine BitVec.eq_of_getLsbD_eq fun k h8 => ?_
  by_cases hmem : k ∈ bits
  · exact hf _ _ k h8 hmem
  · exact hk _ k h8 hmem

theorem apply_comm_of_disjoint (hfk : KeepsOutside bits f) (hf : FixesBits bits f) (hgk : KeepsOutside bits' g)
    (hg : FixesBits bits' g) (hd : ∀ k ∈ bits, k ∉ bits') (r : Byte) : g (f r) = f (g r) := by
  refine BitVec.eq_of_getLsbD_eq fun k h8 => ?_
  by_cases hmem : k ∈ bits
  · rw [hgk _ k h8 (hd k hmem), hf (g r) r k h8 hmem]
  · rw [hfk (g r) k h8 hmem]
    by_cases hmem' : k ∈ bits'
    · exact hg _ _ k h8 hmem'
    · rw [hgk _ k h8 hmem', hgk _ k h8 hmem', hfk r k h8 hmem]

theorem putsBit_or (hm : ∀ k, k < 8 → m.getLsbD k = decide (k = bit)) (h8 : bit < 8) :
    PutsBit [bit] bit true (· ||| m) where
  put r := by simp [hm bit h8]
  kept r k hk hne := by
    have hbit : k ≠ bit := List.ne_of_not_mem_cons hne
    simp [hm k hk, hbit]

theorem putsBit_and (hm : ∀ k, k < 8 → m.getLsbD k = decide (k ≠ bit)) (h8 : bit < 8) :
    PutsBit [bit] bit false (· &&& m) where
  put r := by simp [hm bit h8]
  kept r k hk hne := by
    have hbit : k ≠ bit := List.ne_of_not_mem_cons hne
    simp [hm k hk, hbit]

end

/-- The bits that the square-wave pair changes. -/
abbrev sqwBits : List Nat := [6, 4, 3, 2]

theorem putsBit_sqwEnByte (freq : BitVec 2) (bb : Bool) : PutsBit sqwBits 2 Config.pSqwEnBit2 (sqwEnByte freq bb) where
  put r := sqwEnByte_bits freq bb r 2 (by decide)
  kept r k hk hne := by
    simp only [List.mem_cons, List.not_mem_nil, or_false, not_or] at hne
    simp [sqwEnByte_bits freq bb r k hk, hne]

theorem putsBit_sqwDisByte : PutsBit sqwBits 2 (!Config.pSqwEnBit2) sqwDisByte where
  put r := sqwDisByte_bits r 2 (by decide)
  kept r k hk hne := (sqwDisByte_bits r k hk).trans (if_neg fun h => hne (by simp [h]))

/-! ### Two accessors of one register in a row -/

section
variable {i j : Instr} {addr : Nat} {f g : Byte → Byte} {s : State} {w : List WireEvent}

/-- A pass of `rmw(A, f)` in terms of the whole register file. -/
theorem exec_rmw_pass_reg (he : ∀ s, exec i s = rmw i true addr f s) (haddr : addr ≤ 0x12) (hs : Ready s)
    (hA : Answered s 2 w) : ∃ t, exec i s = .next t ∧ t.resp.ok = true ∧
      t.reg = Function.update s.reg addr (f (s.reg addr)) ∧ OnlyTransport s t w :=
  ⟨_, exec_rmw_pass (he s) hs.1 hs.2 haddr hA, rfl,
    funext fun _ => (Memory.read_write ..).trans (Function.update_apply ..).symm, onlyTransport_pass hs.1 _ _ _⟩

theorem regsKeptOutside_of_update {t : State} {b : Byte} (h : t.reg = Function.update s.reg addr b) :
    RegsKeptOutside s t addr 1 :=
  regsKeptOutside_one.mpr fun x hx => by rw [h, Function.update_of_ne hx]

variable (hi : ∀ s, exec i s = rmw i true addr f s) (hj : ∀ s, exec j s = rmw j true addr g s) (haddr : addr ≤ 0x12)
  (hs : Ready s) (hA : Answered s 4 w)
include hi hj haddr hs hA

/-- The second accessor finds the byte that the first wrote. -/
theorem exec_rmw_rmw : ∃ t u, exec i s = .next t ∧ exec j t = .next u ∧ t.resp.ok = true ∧ u.resp.ok = true ∧
    t.reg = Function.update s.reg addr (f (s.reg addr)) ∧ u.reg = Function.update s.reg addr (g (f (s.reg addr))) := by
  obtain ⟨w', hfirst, hrest⟩ := Answered.split (m := 2) (n := 2) hA
  obtain ⟨t, ht, htok, htreg, hframe⟩ := exec_rmw_pass_reg hi haddr hs hfirst
  obtain ⟨u, hu, huok, hureg, -⟩ := exec_rmw_pass_reg hj haddr (hframe.ready hs) (hrest t hframe.wire)
  refine ⟨t, u, ht, hu, htok, huok, htreg, ?_⟩
  rw [hureg, htreg, Function.update_idem, Function.update_self]

theorem bothPass_rmw : ∃ u, BothPass i j s u ∧ u.reg = Function.update s.reg addr (g (f (s.reg addr))) := by
  obtain ⟨t, u, ht, hu, htok, huok, -, hreg⟩ := exec_rmw_rmw hi hj haddr hs hA
  exact ⟨u, ⟨t, ht, hu, htok, huok⟩, hreg⟩

/-- Two accessors that put opposite values in one bit undo each other on it (43 R258). -/
theorem undoEachOther_of_putsBit {bits : List Nat} {bit : Nat} {val : Bool} (hf : PutsBit bits bit val f)
    (hg : PutsBit bits bit (!val) g) : UndoEachOther i j addr bit val bits s := by
  obtain ⟨u, hu, hureg⟩ := bothPass_rmw hi hj haddr hs hA
  obtain ⟨v, hv, hvreg⟩ := bothPass_rmw hj hi haddr hs hA
  have huaddr : u.reg addr = g (f (s.reg addr)) := by rw [hureg, Function.update_self]
  have hvaddr : v.reg addr = f (g (s.reg addr)) := by rw [hvreg, Function.update_self]
  refine ⟨u, v, hu, hv, ?_, ?_, fun k hk hmem => ⟨?_, ?_⟩, regsKeptOutside_of_update hureg, regsKeptOutside_of_update hvreg⟩
  · rw [huaddr, hg.put]
  · rw [hvaddr, hf.put]
  · rw [huaddr, hg.kept _ k hk hmem, hf.kept _ k hk hmem]
  · rw [hvaddr, hf.kept _ k hk hmem, hg.kept _ k hk hmem]

end

/-- Settles O45: every accessor is an `rmw` that keeps the bits outside its own and fixes its own (`accessor_rmw`), so a second run
writes what the first wrote (`apply_apply_of_fixesBits`) and disjoint accessors commute (`apply_comm_of_disjoint`); the two of a
pair put opposite values in its bit (`undoEachOther_of_putsBit`). -/
theorem accessorLaws : Obligations.AccessorLaws := by
  intro s w hs hA
  refine ⟨fun i hh hb => ?idempotent, ?osc, ?en32k, fun freq bb => ?sqw, ?a1ie, ?a2ie,
    fun i j addr bi bj hi hj hbi hbj hd => ?commute⟩
  case idempotent =>
    obtain ⟨⟨addr, bits⟩, hbits⟩ := Option.ne_none_iff_exists'.mp hb
    obtain ⟨haddr, f, he, hkept, hfixed⟩ := accessor_rmw hh hbits
    obtain ⟨t, u, ht, hu, htok, huok, htreg, hureg⟩ := exec_rmw_rmw he he haddr hs hA
    rw [apply_apply_of_fixesBits hkept hfixed, ← htreg] at hureg
    exact ⟨t, u, ht, hu, htok, huok, congrFun hureg⟩
  case commute =>
    obtain ⟨haddr, f, hif, hfkept, hffixed⟩ := accessor_rmw hi hbi
    obtain ⟨-, g, hjg, hgkept, hgfixed⟩ := accessor_rmw hj hbj
    obtain ⟨u, hu, hureg⟩ := bothPass_rmw hif hjg haddr hs hA
    obtain ⟨v, hv, hvreg⟩ := bothPass_rmw hjg hif haddr hs hA
    rw [← apply_comm_of_disjoint hfkept hffixed hgkept hgfixed hd, ← hureg] at hvreg
    exact ⟨u, v, hu, hv, congrFun hvreg⟩
  case sqw =>
    exact undoEachOther_of_putsBit (fun _ => rfl) (fun _ => rfl) (by decide) hs hA (putsBit_sqwEnByte freq bb)
      putsBit_sqwDisByte
  case osc =>
    exact undoEachOther_of_putsBit (f := oscEnByte) (g := oscDisByte) (fun _ => rfl) (fun _ => rfl) (by decide) hs hA
      (putsBit_and (by decide) (by decide)) (putsBit_or (by decide) (by decide))
  case en32k =>
    exact undoEachOther_of_putsBit (f := en32kEnByte) (g := en32kDisByte) (fun _ => rfl) (fun _ => rfl) (by decide) hs hA
      (putsBit_or (by decide) (by decide)) (putsBit_and (by decide) (by decide))
  case a1ie =>
    exact undoEachOther_of_putsBit (f := a1ieEnByte) (g := a1ieDisByte) (fun _ => rfl) (fun _ => rfl) (by decide) hs hA
      (putsBit_or (by decide) (by decide)) (putsBit_and (by decide) (by decide))
  case a2ie =>
    exact undoEachOther_of_putsBit (f := a2ieEnByte) (g := a2ieDisByte) (fun _ => rfl) (fun _ => rfl) (by decide) hs hA
      (putsBit_or (by decide) (by decide)) (putsBit_and (by decide) (by decide))

end Sys2Proof.Machine
end

section
/-! PROOFS. The exceptions (60): which meaning a step runs (R292), that every step has a next state (R280, R298), the one
refusal of the model (93 U18), and the handle and session checks of the transport operations (R283). -/

namespace Sys2Proof.Machine

/-! ### When a meaning answers -/

section
variable {i : Instr} {s : State}

/-- A meaning is refused while a different operation is in flight. -/
theorem exec_refused_of_other_flight {f : Flight} (hf : s.flight = some f) (hi : f.instr ≠ i) :
    exec i s = .refused .commandInFlight := by
  obtain ⟨checks, steps, fin, form⟩ := exec_form i
  rw [form.exec_eq, operation_busy hf hi]

/-- A meaning with nothing in flight but its own operation has a next state: a new operation fails at step 0 or runs its steps,
an operation in flight is carried on. -/
theorem exec_next_of_own_flight (h : ∀ f, s.flight = some f → f.instr = i) : ∃ t, exec i s = .next t := by
  obtain ⟨checks, steps, fin, form⟩ := exec_form i
  rw [form.exec_eq]
  cases hf : s.flight with
  | some f => exact ⟨_, operation_resume hf (h f hf)⟩
  | none =>
    cases hc : firstFailed (checks s) with
    | some c => exact ⟨s.fail c, by simp only [operation, hf, hc]⟩
    | none => exact ⟨_, operation_start hf (firstFailed_none.mp hc)⟩

end

/-- Settles O8: a meaning is refused under a different operation (`exec_refused_of_other_flight`), and otherwise nothing but
its own operation is in flight (`exec_next_of_own_flight`). -/
theorem secondCommandRefused : Obligations.SecondCommandRefused := by
  refine fun i s => ⟨fun _ hf hi => exec_refused_of_other_flight hf hi, ?_⟩
  by_cases hother : ∃ f, s.flight = some f ∧ f.instr ≠ i
  · exact .inr hother
  · push Not at hother
    exact .inl (exec_next_of_own_flight hother)

/-! ### The step -/

/-- With nothing in flight a pending command that decodes to `i` is taken, and `i` is run. -/
theorem step_of_decoded_command {i : Instr} {s : State} {c : Command} {rest : List Input} (hf : s.flight = none)
    (hi : s.inputs = .command c :: rest) (hd : decode c = .ok i) : step s = exec i { s with inputs := rest } := by
  simp only [step, hf, hi, hd]

/-- Settles O6, by the equations of the step for its three cases. -/
theorem stepRunsDecodedCommand : Obligations.StepRunsDecodedCommand :=
  ⟨fun _ _ _ _ hf hi hd => step_of_decoded_command hf hi hd, fun _ _ hf => step_of_flight hf,
   fun _ hf hi => step_of_no_input hf hi⟩

/-- Settles O7: a step runs a meaning only with nothing in flight or for the operation in flight itself, and then the meaning has
a next state (`exec_next_of_own_flight`); every other input is taken at once. -/
theorem stepAlwaysAnswersNext : Obligations.StepAlwaysAnswersNext := by
  intro s
  cases hf : s.flight with
  | some f =>
    rw [step_of_flight hf]
    exact exec_next_of_own_flight fun g hg => by rw [Option.some.inj (hf.symm.trans hg)]
  | none =>
    cases hi : s.inputs with
    | nil => exact ⟨s, step_of_no_input hf hi⟩
    | cons x rest =>
      cases x with
      | command c =>
        obtain ⟨i, he⟩ | ⟨r, he⟩ := step_of_command hf hi
        · rw [he]
          exact exec_next_of_own_flight (s := { s with inputs := rest }) (by simp [hf])
        · exact ⟨_, he⟩
      | init b => exact ⟨_, step_of_init hf hi⟩
      | deinit b => exact ⟨_, step_of_deinit hf hi⟩
      | reset => exact ⟨_, step_of_reset hf hi⟩
      | move m => exact ⟨_, step_of_move hf hi⟩

/-! ### Handle and session -/

/-- Settles O48: the handle bit and the session bit are among the checks of every transport operation (`HasForm.handle_checked`),
and an operation with a check that does not pass fails at once (`failsAtOnce_of_check`). -/
theorem handleAndSessionChecked : Obligations.HandleAndSessionChecked := by
  intro i s h hf hh hbad
  obtain ⟨checks, steps, fin, form⟩ := exec_form i
  obtain ⟨⟨c, handleCheck⟩, c', sessionCheck⟩ := form.handle_checked h hh s
  refine failsAtOnce_of_check (form.exec_eq s) hf ?_
  obtain noHandle | noSession := hbad
  · exact ⟨(h, c), handleCheck, noHandle⟩
  · exact ⟨(s.sess, c'), sessionCheck, noSession⟩

end Sys2Proof.Machine
end

section
/-! PROOFS. The hazards (70 §3): a byte latched by a read is written back over what other agents have put in its register since
(R314), in every read-modify-write, in TIME_SET and in both windows of ALARM_SET; and the `deinit` of another caller inside an
operation (R316). -/

namespace Sys2Proof.Machine

/-! ### The window of one read-modify-write -/

/-- The registers after other agents have made the moves `ms` and register `a` has then been written with `b`. -/
def Memory.movedThenWritten (m : Memory) (ms : List (Fin 19 × Byte)) (a : Nat) (b : Byte) : Memory :=
  (m.deviceMoves ms).write a b

section
variable {m : Memory} {ms : List (Fin 19 × Byte)} {a x : Nat} {b : Byte}

theorem read_movedThenWritten_self : (m.movedThenWritten ms a b).read a = b := (Memory.read_write ..).trans (if_pos rfl)

theorem read_movedThenWritten_other (h : x ≠ a) : (m.movedThenWritten ms a b).read x = (lastPut ms x).getD (m.read x) := by
  rw [Memory.movedThenWritten, Memory.read_write, if_neg h, read_deviceMoves]

/-- A register read, changed or not by other agents, and written back as a function of the byte read (70 R314). -/
theorem passRun_rmw_window {g : Byte → Byte} {rest : List OpStep} {mss : List (List (Fin 19 × Byte))} {l : List Byte}
    {tr : List Call} (hb : m.read a = b) :
    passRun (.read a 1 :: .write a (fun r => [g (r.getD 0 0)]) :: rest) ([] :: ms :: mss) l m tr =
      passRun rest mss [b] (m.movedThenWritten ms a (g b)) (.writeSingle a (g b) :: .readSingle a :: tr) := by
  subst hb; rfl

end

/-- What was last put in a register by two lists of moves in a row, over the byte it held. -/
theorem lastPut_append_getD (ms ms' : List (Fin 19 × Byte)) (x : Nat) (b : Byte) :
    (lastPut (ms ++ ms') x).getD b = (lastPut ms' x).getD ((lastPut ms x).getD b) := by
  rw [lastPut_append]
  cases lastPut ms' x <;> rfl

/-- A wire whose first answers come with no move before them. -/
theorem windowWire_append (as bs : List Answer) (mss : List (List (Fin 19 × Byte))) :
    windowWire (List.replicate as.length [] ++ mss) (as ++ bs) = as.map .answer ++ windowWire mss bs := by
  induction as with
  | nil => rfl
  | cons a as ih => exact congrArg (WireEvent.answer a :: ·) ih

/-! ### The accessors and TIME_SET -/

/-- Every `rmw(A, f)` on a register that exists overwrites what other agents put there in its window (70 R314). -/
theorem rmwOverwrites_of_rmw {i : Instr} {addr : Nat} {f : Byte → Byte} (he : ∀ s, exec i s = rmw i true addr f s)
    (haddr : addr ≤ 0x12) : RmwOverwrites i addr f := by
  rintro s a c ms w ⟨hf, hs⟩ ha hc hw
  have wire : s.wire = windowWire [[], ms] [a, c] ++ w := by simp [hw, windowWire, registerMoves]
  have pass : exec i s = .next (State.pass { s with
      dev := s.dev.movedThenWritten ms addr (f (s.reg addr)), trace := s.rmwTrace addr f, wire := w } {}) := by
    rw [exec_rmw (he s) hf hs, runSteps_pass wire rfl rfl (by simp [ha, hc]) hs (by simp [OpStep.InRange]; omega),
      passRun_rmw_window rfl]
    rfl
  exact ⟨_, pass, rfl, read_movedThenWritten_self, fun y hy => read_movedThenWritten_other hy, rfl,
    onlyTransport_pass hf _ _ _⟩

/-- A TIME_SET whose calls pass, other agents having changed registers between its read and its write of the status byte. -/
theorem exec_timeSet_window {s : State} {tv : TimeValue} {use24 : Bool} {a c d : Answer} {ms : List (Fin 19 × Byte)}
    {w : List WireEvent} (hs : Ready s) (ha : GoodAnswer a) (hc : GoodAnswer c) (hd : GoodAnswer d)
    (hw : s.wire = .answer a :: (registerMoves ms ++ .answer c :: .answer d :: w)) :
    exec (.timeSet true true tv use24) s = .next (State.pass { s with
      dev := (s.dev.movedThenWritten ms Config.statAddr (osfClrByte (s.reg Config.statAddr))).writeBlock Config.timeBase
        (timeEnc tv use24).toBytes
      trace := .writeMulti 0x00 (timeEnc tv use24).toBytes :: s.osfClearTrace
      wire := w } {}) := by
  have wire : s.wire = windowWire [[], ms, []] [a, c, d] ++ w := by simp [hw, windowWire, registerMoves]
  rw [exec_timeSet hs.1 hs.2, runSteps_pass wire rfl rfl (by simp [ha, hc, hd]) hs.2
    (by simp [OpStep.InRange, Config.statAddr, Config.timeBase, TimeRegs.toBytes]), passRun_rmw_window rfl]
  rfl

/-- Settles O46: the accessors are read-modify-writes (`rmwOverwrites_of_rmw`), and TIME_SET begins with one of the status byte and
then writes the time block (`exec_timeSet_window`). -/
theorem staleLatchedByte : Obligations.StaleLatchedByte := by
  refine ⟨?oscEn, ?oscDis, ?a1ieEn, ?a1ieDis, ?a2ieEn, ?a2ieDis, ?en32kEn, ?en32kDis, ?a1fClr, ?a2fClr, ?osfClr,
    fun freq bb => ⟨sqwEnByte freq bb, ?sqwEn, sqwEnByte_bits freq bb⟩, ⟨sqwDisByte, ?sqwDis, sqwDisByte_bits⟩, ?timeSet⟩
  case timeSet =>
    intro s tv use24 a c d ms w hs ha hc hd hw
    have outside (m : Memory) {x : Nat} (h7 : 7 ≤ x) :
        (m.writeBlock Config.timeBase (timeEnc tv use24).toBytes).read x = m.read x := by
      rw [Memory.read_writeBlock, dif_neg (mt timeBlock_range.mp h7.not_gt)]
    exact ⟨_, exec_timeSet_window hs ha hc hd hw, rfl, (outside _ (by decide)).trans read_movedThenWritten_self,
      timeRegs_writeBlock rfl, fun y h7 hy => (outside _ h7).trans (read_movedThenWritten_other hy),
      onlyTransport_pass hs.1 _ _ _⟩
  all_goals exact rmwOverwrites_of_rmw (fun _ => rfl) (by decide)

/-! ### ALARM_SET -/

namespace AlarmPlan

variable {p : AlarmPlan} {s : State} {ms1 ms2 : List (Fin 19 × Byte)} {x : Nat}

/-- The control byte is written after the moves `ms1`: the registers after step 4. -/
def controlOver (p : AlarmPlan) (s : State) (ms1 : List (Fin 19 × Byte)) : Memory :=
  (p.blockDone s).movedThenWritten ms1 0x0E (p.control (s.reg 0x0E))

/-- The byte that step 5 reads: what the moves `ms1` left in the status byte. -/
def statusRead (s : State) (ms1 : List (Fin 19 × Byte)) : Byte := (lastPut ms1 0x0F).getD (s.reg 0x0F)

/-- The status byte is written after the moves `ms2`: the registers after step 6. -/
def statusOver (p : AlarmPlan) (s : State) (ms1 ms2 : List (Fin 19 × Byte)) : Memory :=
  (p.controlOver s ms1).movedThenWritten ms2 0x0F (p.status (statusRead s ms1))

theorem controlOver_status : (p.controlOver s ms1).read 0x0F = statusRead s ms1 := by
  rw [controlOver, read_movedThenWritten_other (by decide), blockDone_above (by decide), statusRead]

theorem statusOver_control :
    (p.statusOver s ms1 ms2).read 0x0E = (lastPut ms2 0x0E).getD (p.control (s.reg 0x0E)) := by
  rw [statusOver, read_movedThenWritten_other (by decide), controlOver, read_movedThenWritten_self]

theorem statusOver_other (hc : x ≠ 0x0E) (hs : x ≠ 0x0F) :
    (p.statusOver s ms1 ms2).read x = (lastPut (ms1 ++ ms2) x).getD ((p.blockDone s).read x) := by
  rw [statusOver, read_movedThenWritten_other hs, controlOver, read_movedThenWritten_other hc, lastPut_append_getD]

theorem statusOver_inside {k : Nat} (hk : k < (p.bytes s).length) :
    (p.statusOver s ms1 ms2).read (p.base + k) = (lastPut (ms1 ++ ms2) (p.base + k)).getD (p.bytes s)[k] := by
  have := bytes_below (p := p) (s := s)
  rw [statusOver_other (by omega) (by omega), blockDone_inside hk]

theorem statusOver_outside (h : x < p.base ∨ p.base + (p.bytes s).length ≤ x) (hc : x ≠ 0x0E) (hs : x ≠ 0x0F) :
    (p.statusOver s ms1 ms2).read x = (lastPut (ms1 ++ ms2) x).getD (s.reg x) := by
  rw [statusOver_other hc hs, blockDone_outside h]

/-- The calls of steps 2 to 6, newest first. -/
def windowCalls (p : AlarmPlan) (s : State) (ms1 : List (Fin 19 × Byte)) : List Call :=
  [.writeSingle 0x0F (p.status (statusRead s ms1)), .readSingle 0x0F, .writeSingle 0x0E (p.control (s.reg 0x0E)),
    .readSingle 0x0E, writeCall p.base (p.bytes s)]

/-- Steps 2 to 6 with both windows open. -/
theorem passRun_writes_windows {l : List Byte} (hl : p.block (mode12Bit (l.getD 0 0)) = p.bytes s) (tr : List Call) :
    passRun p.writes [[], [], ms1, [], ms2] l s.dev tr =
      (p.statusOver s ms1 ms2, [statusRead s ms1], p.windowCalls s ms1 ++ tr) := by
  rw [writes, passRun, hl]
  exact (passRun_rmw_window (blockDone_above (by decide))).trans (passRun_rmw_window controlOver_status)

/-- Steps 1 to 6 with both windows open. -/
theorem passRun_steps_windows :
    passRun p.steps (List.replicate (p.hoursCall.length + 2) [] ++ [ms1, [], ms2]) [] s.dev s.trace =
      (p.statusOver s ms1 ms2, [statusRead s ms1], p.windowCalls s ms1 ++ (p.hoursCall ++ s.trace)) := by
  have latched {l : List Byte} := p.block_of_latched s (l := l)
  rw [steps, hoursCall]
  cases hh : p.hasHours with
  | false => exact passRun_writes_windows (latched (by simp [hh])) _
  | true => exact passRun_writes_windows (latched fun _ => rfl) _

end AlarmPlan

/-- An ALARM_SET whose checks and calls all pass, for either alarm, overwrites what other agents put in the control and in the
status byte in its two windows (70 R314). -/
theorem alarmSetOverwrites_of_plan {s : State} {vv s1v : Bool} {sel1 : BitVec 5} {sel2 : BitVec 4} {tv : TimeValue}
    {p : AlarmPlan} (hs : Ready s) (hlegal : selectorLegal s1v sel1 sel2 = true)
    (hvalue : (vv || selectorNeedsNoValue s1v sel1 sel2) = true) (hsteps : alarmSetSteps s1v sel1 sel2 tv = p.steps) :
    AlarmSetOverwrites (.alarmSet true vv s1v sel1 (!s1v) sel2 tv) s p.hoursCall.length p.base (p.bytes s) p.control
      p.status := by
  intro before x y z ms1 ms2 w hlen hgood hw
  have wire : s.wire = windowWire (List.replicate (p.hoursCall.length + 2) [] ++ [ms1, [], ms2]) (before ++ [x, y, z]) ++ w := by
    rw [← hlen, windowWire_append, hw]
    simp [windowWire, registerMoves]
  have start : exec (.alarmSet true vv s1v sel1 (!s1v) sel2 tv) s = _ :=
    operation_start hs.1 (by simp [hs.2, hlegal, hvalue])
  have pass : exec (.alarmSet true vv s1v sel1 (!s1v) sel2 tv) s = .next (State.pass { s with
      dev := p.statusOver s ms1 ms2, trace := p.windowCalls s ms1 ++ (p.hoursCall ++ s.trace), wire := w } {}) := by
    rw [start, hsteps, runSteps_pass wire (by simp [p.steps_length]) (by simp [p.steps_length, hlen]) hgood hs.2
      p.steps_inRange, AlarmPlan.passRun_steps_windows]
    rfl
  exact ⟨_, pass, rfl, AlarmPlan.statusOver_control, read_movedThenWritten_self,
    fun _ hk => AlarmPlan.statusOver_inside hk, fun _ ha => AlarmPlan.statusOver_outside ha, onlyTransport_pass hs.1 _ _ _⟩

theorem alarm1Plan_hoursCall_length (v : Alarm1Variant) (tv : TimeValue) :
    (if v.tag ∈ [0x00#5, 0x08#5, 0x10#5] then 1 else 0) = (alarm1Plan v tv).hoursCall.length := by
  rw [← alarm1Plan_hoursCall, apply_ite List.length, List.length_singleton, List.length_nil]

theorem alarm2Plan_hoursCall_length (v : Alarm2Variant) (tv : TimeValue) :
    (if v.tag ∈ [0x0#4, 0x4#4, 0x8#4] then 1 else 0) = (alarm2Plan v tv).hoursCall.length := by
  rw [← alarm2Plan_hoursCall, apply_ite List.length, List.length_singleton, List.length_nil]

/-- Settles O59: both alarms follow the plan of their variant (`alarmSetOverwrites_of_plan`). -/
theorem staleByteInAlarmSet : Obligations.StaleByteInAlarmSet := by
  refine fun s vv tv hs => ⟨fun v sel2 hv => ?alarm1, fun v sel1 hv => ?alarm2⟩
  case alarm1 =>
    rw [alarm1Plan_hoursCall_length v tv]
    exact alarmSetOverwrites_of_plan hs (by simp [selectorLegal]) (value_or_notNeeded1 hv sel2)
      (alarmSetSteps_one (alarm1Variant_ofTag_tag v) sel2 tv)
  case alarm2 =>
    rw [alarm2Plan_hoursCall_length v tv]
    exact alarmSetOverwrites_of_plan hs (by simp [selectorLegal]) (value_or_notNeeded2 hv sel1)
      (alarmSetSteps_two (alarm2Variant_ofTag_tag v) sel1 tv)

/-! ### A session left inside an operation -/

/-- A write that finds the session left fails, whatever the transport answers (20 R84). -/
theorem runSteps_write_noSession {i : Instr} {fin : List Byte → Except FailCause Results} {rest : List OpStep} {k start : Nat}
    {f : List Byte → List Byte} {l : List Byte} {s s1 : State} {a : Answer} (hd : drawFrom s.wire s = .answered s1 a)
    (hs : s1.sess = false) :
    runSteps i fin (.write start f :: rest) k l s = State.fail { s1 with
      trace := writeCall start (f l) :: s1.trace
      dev := s1.dev.transferOut a false start (f l) 0 } .transport :=
  runSteps_failed hd (by rw [OpStep.call, memWrite_noSession hs]; rfl)

/-- Settles O47: the read passes, the write finds the session left and fails (`runSteps_write_noSession`), and so leaves the
register old or new (`transferOut_fail`). -/
theorem deinitInsideOperation : Obligations.DeinitInsideOperation := by
  rintro s a b w ⟨hf, hs⟩ ha hb hw
  have run : exec (.oscEn true) s = .next (State.fail { s with
      sess := false
      dev := s.dev.transferOut b false 0x0E [s.reg 0x0E &&& 0x7F] 0
      trace := s.rmwTrace 0x0E oscEnByte
      wire := w } .transport) := by
    rw [exec_rmw rfl hf hs, runSteps_read_pass hw ha hs (by decide), runSteps_write_noSession rfl rfl]
    rfl
  have left := transferOut_fail hb false 0x0E [s.reg 0x0E &&& 0x7F] 0 s.dev
  exact ⟨_, run, rfl, rfl, (left 0x0E).imp_right fun ⟨_, new⟩ => new,
    fun x hx => (left x).resolve_right fun ⟨hin, _⟩ => hx hin⟩

end Sys2Proof.Machine
end
